-- ==== Sys2Proof/Word.lean ====
section
/-! DEFINITION. The word and byte types (00_scope.md R8, R9, R46's 18-bit address). The arithmetic of R9 is
`BitVec`'s own: `+` and `-` wrap, `^^^` is exclusive or, `<<<` and `>>>` are the logical shifts. -/

namespace Sys2Proof

/-- A Word: an unsigned 32-bit integer (R8). -/
abbrev Word := BitVec 32

/-- A byte: an unsigned 8-bit integer (R8). -/
abbrev Byte := BitVec 8

/-- A byte offset from the engine's base address (R46, R47). -/
abbrev Addr := BitVec 18

end Sys2Proof
end

