-- ==== Sys2Proof/Config.lean ====
section
/-! DEFINITION. What the spec leaves to the implementation (00_scope.md R7, 93_implementation_defined.md): BUF_BYTES, and the
free values of an entropy draw (R145, U5) and of a host read while busy (R62, U6). Each is a constant without a body,
so no proof can know its value (log entries 3, 4 and 5). -/

namespace Sys2Proof

/-- Fixes BUF_BYTES: one value for every multiple of 8 from 24 to 65536 (R7). -/
opaque Config.bufUnits : Fin 8190

/-- BUF_BYTES, the size in bytes of each of IN_BUF and OUT_BUF (R7). -/
def Config.bufBytes : Nat := 8 * Config.bufUnits.val + 24

/-- The entropy source's answer to a draw: 16 bytes, or UNAVAILABLE (`none`) (R145). -/
abbrev EntropyAnswer := Option (Vector Byte 16)

/-- The n-th free entropy draw, under no law (R145, U5). -/
opaque Config.entropy : Nat → EntropyAnswer

/-- The n-th free value of a host read while busy (R62, U6). -/
opaque Config.busyRead : Nat → Word

end Sys2Proof
end

