-- ==== Sys2Proof/Syntax.lean ====
section
/-! DEFINITION. What the host can say to the engine: the commands of the opcode map (30_encoding.md R73) and the bus
transactions (20_memory.md R46). Commands carry no operands (R72). -/

namespace Sys2Proof

/-- The commands, one constructor per row of spec/opcode_table.json (R73). -/
inductive Instr where
  | nop     -- R152
  | expand  -- R101
  | encb    -- R115
  | decb    -- R116
  | encm    -- R127
  | decm    -- R129
  | pad     -- R91
  | b64e    -- R134
  | b64d    -- R135
  | keyd    -- R141
  | genk    -- R146
  | u8ck    -- R149
  | xfer    -- R151
  deriving DecidableEq, Repr

/-- `size ∈ {1, 2, 4}` bytes (R46). -/
inductive BusSize where
  | byte | half | word
  deriving DecidableEq, Repr

/-- The size in bytes. -/
def BusSize.bytes : BusSize → Nat
  | .byte => 1
  | .half => 2
  | .word => 4

/-- `kind ∈ {read, write}` (R46). -/
inductive BusKind where
  | read | write
  deriving DecidableEq, Repr

/-- One host transaction `(kind, addr, size, wdata)` (R46). A read's `wdata` is not used. -/
structure Txn where
  kind  : BusKind
  addr  : Addr
  size  : BusSize
  wdata : Word
  deriving DecidableEq, Repr

end Sys2Proof
end

