-- ==== Sys2Proof/WellFormed.lean ====
section
/-! DEFINITION. The checks the spec makes on what the host sends: the command word (30_encoding.md R71, R73, R74) and the
transaction's alignment and width (20_memory.md R50, R51). -/

namespace Sys2Proof

/-- A command has no operand that could be ill-formed (R72), so every command is well-formed. -/
def Instr.wf : Instr → Bool
  | .nop | .expand | .encb | .decb | .encm | .decm | .pad | .b64e | .b64d | .keyd | .genk | .u8ck | .xfer => true

/-- RSV, bits 31:8 of a command word, is 0 (R71). -/
def rsvOk (cw : Word) : Bool := cw.extractLsb' 8 24 == 0

/-- OPC, bits 7:0 of a command word, is one of 0x00 to 0x0C (R73). -/
def opcOk (cw : Word) : Bool := (cw.extractLsb' 0 8).toNat ≤ 0x0C

/-- The access is naturally aligned: `addr mod n = 0` (R51). -/
def Txn.aligned (t : Txn) : Bool := t.addr.toNat % t.size.bytes == 0

/-- The access has a width its region takes: the register space takes size 4 only (R50). -/
def Txn.sizeOk (t : Txn) : Bool := t.size == .word || 0x10000 ≤ t.addr.toNat

/-- The transaction is one the engine performs; any other is answered ERR (R51). -/
def Txn.wf (t : Txn) : Bool := t.aligned && t.sizeOk

end Sys2Proof
end

