-- ==== Sys2Proof/Decode.lean ====
section
/-! DEFINITION. The command word CMD32 (30_encoding.md R71 to R74): a decoder total on every 32-bit word, an encoder written
from the same map, the mnemonics and the disassembler of R78. A command word arrives whole on the bus and is latched
whole (R20, R34, R64): there is no instruction stream in memory and no byte order to decode (log entry 15). -/

namespace Sys2Proof

/-- Why a word selects no command (R74). Either way the engine completes it with ILLEGAL_CMD. -/
inductive DecodeError where
  /-- RSV ≠ 0, whatever OPC is. -/
  | reservedBits
  /-- RSV = 0 and OPC in 0x0D to 0xFF. -/
  | unassignedOpcode
  deriving DecidableEq, Repr

/-- The row of R73 that an opcode selects. -/
def opcodeMap : Nat → Option Instr
  | 0x00 => some .nop
  | 0x01 => some .expand
  | 0x02 => some .encb
  | 0x03 => some .decb
  | 0x04 => some .encm
  | 0x05 => some .decm
  | 0x06 => some .pad
  | 0x07 => some .b64e
  | 0x08 => some .b64d
  | 0x09 => some .keyd
  | 0x0A => some .genk
  | 0x0B => some .u8ck
  | 0x0C => some .xfer
  | _ => none

/-- `decode(cw)` of R73. -/
def decode (cw : Word) : Except DecodeError Instr :=
  if rsvOk cw then
    match opcodeMap (cw.extractLsb' 0 8).toNat with
    | some i => .ok i
    | none => .error .unassignedOpcode
  else .error .reservedBits

/-- The command word of a command: R73's third column. -/
def encode : Instr → Word
  | .nop    => 0x00000000
  | .expand => 0x00000001
  | .encb   => 0x00000002
  | .decb   => 0x00000003
  | .encm   => 0x00000004
  | .decm   => 0x00000005
  | .pad    => 0x00000006
  | .b64e   => 0x00000007
  | .b64d   => 0x00000008
  | .keyd   => 0x00000009
  | .genk   => 0x0000000A
  | .u8ck   => 0x0000000B
  | .xfer   => 0x0000000C

/-- The mnemonic of R73. -/
def mnemonic : Instr → String
  | .nop    => "NOP"
  | .expand => "EXPAND"
  | .encb   => "ENCB"
  | .decb   => "DECB"
  | .encm   => "ENCM"
  | .decm   => "DECM"
  | .pad    => "PAD"
  | .b64e   => "B64E"
  | .b64d   => "B64D"
  | .keyd   => "KEYD"
  | .genk   => "GENK"
  | .u8ck   => "U8CK"
  | .xfer   => "XFER"

/-- The hex digit of a 4-bit value. DESIGN CHOICE (log entry 24): A to F are upper case; R78 does not state the case. -/
def hexDigit (v : BitVec 4) : Char :=
  if v.toNat < 10 then Char.ofNat (0x30 + v.toNat) else Char.ofNat (0x41 + (v.toNat - 10))

/-- The eight hex digits of a word, the most significant first. -/
def hex8 (w : Word) : String :=
  String.ofList ([28, 24, 20, 16, 12, 8, 4, 0].map fun lo => hexDigit (w.extractLsb' lo 4))

/-- The disassembly of a command word (R78). -/
def disassemble (cw : Word) : String :=
  match decode cw with
  | .ok i => "CMD " ++ mnemonic i
  | .error _ => "CMD .word 0x" ++ hex8 cw

/-- The host's reading of a table row: the low `nbits` bits of `w` as one command word, the bits above them zero. -/
def decodeTableWord (nbits w : Nat) : Option Instr :=
  match decode (BitVec.ofNat 32 (w % 2 ^ nbits)) with
  | .ok i => some i
  | .error _ => none

end Sys2Proof
end

