-- ==== Sys2Proof/Machine/State.lean ====
section
/-! DEFINITION. The engine's state (10_state.md R16 to R38) as plain data, the error codes (60_exceptions.md R161), the model
faults (R172), the inputs (00_scope.md R14) and the state after reset (R37, R187). -/

namespace Sys2Proof.Machine

/-- The error codes a command can complete with (R161). The codes 8 to 15 are never produced: they have no constructor. -/
inductive ErrCode where
  | ok | keyFormat | decode | encoding | entropy | noTable | illegalCmd | length
  deriving DecidableEq, Repr

/-- The two byte buffers (R28, R29). -/
inductive Buf where
  | inBuf | outBuf
  deriving DecidableEq, Repr

/-- The model faults of R172. -/
inductive Fault where
  /-- A host read (R55) or a command's MemRead (R12) of a byte that holds no value (R31); the step stops. Raised by the
  host's buffer-window reads and by ENCM, DECM, PAD, B64E, B64D, KEYD, U8CK and XFER. Safe: the hardware goes on with
  some value (U7, log entry 8). -/
  | unwrittenBufferRead (b : Buf)
  /-- A misaligned or wrong-size host access (R51). Recorded in `State.fault`, while the step goes on with the hardware's
  ERR answer; no step stops with it. Safe: R172 says that a run with a fault recorded satisfies no claim (log entry 7). -/
  | busError
  deriving DecidableEq, Repr

/-- Refusals. -/
inductive Refusal where
  /-- An instruction without a meaning; every command of the opcode table has one, so no arm raises it. Safe. -/
  | notModelled (mnemonic : String)
  deriving DecidableEq, Repr

/-- `resp ∈ {OK, ERR}` (R46). -/
inductive RespCode where
  | ok | err
  deriving DecidableEq, Repr

/-- The engine's answer to one transaction (R46). A write is given no read data (log entry 9). -/
structure Response where
  code  : RespCode
  rdata : Option Word
  deriving DecidableEq, Repr

/-- What happens next, from outside (R14) or by the schedule (R59). -/
inductive Input where
  /-- The host performs a transaction (R46). -/
  | host (t : Txn)
  /-- rst_n is asserted and released (R186). -/
  | resetPin
  /-- It is the engine's turn: it completes the pending command, if there is one (R59). -/
  | engine
  deriving DecidableEq, Repr

/-- A buffer: the bytes that hold a value, as (offset, byte) pairs, offsets strictly rising. An offset that is not listed
holds no value (R31). -/
abbrev Memory := List Host.Cell

/-- The canonical form of a buffer: strictly rising offsets. -/
abbrev Memory.wf (m : Memory) : Prop := m.Pairwise fun x y => x.1 < y.1

/-- The engine's state. -/
structure State where
  /-- CTRL.IE (R18). -/
  ie      : Bool
  /-- STATUS.DONE (R19). -/
  done    : Bool
  /-- STATUS.TV (R22). -/
  tv      : Bool
  /-- STATUS.OVR (R19, R61). -/
  ovr     : Bool
  /-- STATUS.ERRCODE (R19, R161). -/
  errcode : ErrCode
  /-- PENDING (R34). -/
  pending : Option Word
  /-- IN_LEN (R21). -/
  inLen   : Word
  /-- OUT_LEN (R23). -/
  outLen  : Word
  /-- BLK_A (R24). -/
  blkA    : Word
  /-- BLK_B (R24). -/
  blkB    : Word
  /-- KEY0 to KEY3 (R25). -/
  key     : Vector Word 4
  /-- SUBKEY0 to SUBKEY25, the Round Subkey Table S (R27). -/
  subkey  : Vector Word 26
  /-- IN_BUF (R28). -/
  inBuf   : Memory
  /-- OUT_BUF (R29). -/
  outBuf  : Memory
  /-- The recorded model fault (R38, R172). -/
  fault   : Option Fault
  /-- The answer to the last transaction (R46, R70). -/
  resp    : Option Response
  /-- The model's own: the inputs still to come, the next first (R14, R59). -/
  inputs  : List Input
  /-- The model's own: the entropy source's answers that are ready, the next first (R145). -/
  entropy : List EntropyAnswer
  /-- The model's own: how many free values have been taken. -/
  draws   : Nat
  deriving DecidableEq, Repr

/-- The state after the first reset (R37, R187): registers at their reset values, every buffer byte unwritten. -/
def State.reset : State where
  ie      := false
  done    := false
  tv      := false
  ovr     := false
  errcode := .ok
  pending := none
  inLen   := 0
  outLen  := 0
  blkA    := 0
  blkB    := 0
  key     := Vector.replicate 4 0
  subkey  := Vector.replicate 26 0
  inBuf   := []
  outBuf  := []
  fault   := none
  resp    := none
  inputs  := []
  entropy := []
  draws   := 0

end Sys2Proof.Machine
end

