-- ==== Sys2Proof/Machine/Ops.lean ====
section
/-! DEFINITION. The named operations every command and every transaction is written with: rotations (00_scope.md R10), byte order
(R11), the buffers (R12, 10_state.md R30, R31), the completion of a command, which is what stands in for taking an
exception (60_exceptions.md R163, R169), the acknowledgement that stands in for returning from one (R170), issue
(30_encoding.md R76), the reset actions (70_reset_and_hazards.md R186 to R189) and the draws (R62, R145). -/

namespace Sys2Proof.Machine

/-- The outcome of a step. -/
abbrev Result := Host.Outcome State Fault Refusal

/-! ## Words and bytes -/

/-- `rotl(x, n)` (R10). -/
def rotl (x : Word) (n : Nat) : Word :=
  if n % 32 = 0 then x else (x <<< (n % 32)) ||| (x >>> (32 - n % 32))

/-- `rotr(x, n)` (R10). -/
def rotr (x : Word) (n : Nat) : Word :=
  if n % 32 = 0 then x else (x >>> (n % 32)) ||| (x <<< (32 - n % 32))

/-- `le32(b0, b1, b2, b3)` (R11). -/
def le32 (b0 b1 b2 b3 : Byte) : Word :=
  b0.setWidth 32 ||| (b1.setWidth 32 <<< 8) ||| (b2.setWidth 32 <<< 16) ||| (b3.setWidth 32 <<< 24)

/-- The low `n` bytes of a word, the least significant first: the bytes of a bus write of size `n` (R52). -/
def leBytes (n : Nat) (x : Word) : List Byte :=
  (List.range n).map fun k => x.extractLsb' (8 * k) 8

/-- `bytes_le(x)` (R11). -/
def bytesLe (x : Word) : List Byte :=
  [x.extractLsb' 0 8, x.extractLsb' 8 8, x.extractLsb' 16 8, x.extractLsb' 24 8]

/-- The word of up to four bytes, the least significant first: `rdata` of a bus read (R52). -/
def leJoin : List Byte → Word
  | [] => 0
  | b :: bs => b.setWidth 32 ||| (leJoin bs <<< 8)

/-- `v` zero-extended from the low `n` bytes: a draw of access size `n` (R62). -/
def zextBytes (n : Nat) (v : Word) : Word := (v.setWidth (8 * n)).setWidth 32

/-! ## Buffers -/

/-- The byte at offset `a`, if it holds a value (R31). -/
def Memory.read : Memory → Nat → Option Byte
  | [], _ => none
  | (k, b) :: m, a => if k = a then some b else Memory.read m a

/-- Store a byte (R12). -/
def Memory.write : Memory → Nat → Byte → Memory
  | [], a, v => [(a, v)]
  | (k, b) :: m, a, v =>
    if a < k then (a, v) :: (k, b) :: m
    else if k = a then (a, v) :: m
    else (k, b) :: Memory.write m a v

/-- `MemRead(buf, off, n)`: nothing, if a byte of the range holds no value (R12). -/
def Memory.readBytes (m : Memory) (off : Nat) : Nat → Option (List Byte)
  | 0 => some []
  | n + 1 =>
    match m.read off, Memory.readBytes m (off + 1) n with
    | some b, some bs => some (b :: bs)
    | _, _ => none

/-- `MemWrite(buf, off, n, d)` with `n = len(d)` (R12). -/
def Memory.writeBytes (m : Memory) (off : Nat) : List Byte → Memory
  | [] => m
  | b :: bs => Memory.writeBytes (m.write off b) (off + 1) bs

/-! ## Completion and issue -/

/-- The completion step's own writes (R163): ERRCODE, PENDING emptied so that BUSY is 0, DONE. This is all that stands in
for exception entry: nothing is saved and no mode or vector exists (R169). -/
def State.complete (s : State) (c : ErrCode) : State :=
  { s with errcode := c, pending := none, done := true }

/-- `complete`: the command ends with OK; `s` holds its writes (R13, R163). -/
def succeed (s : State) : Result := .next (s.complete .ok)

/-- `raise c`: the command ends with the error code `c` and none of its writes; `s` is the state it started in
(R13, R164). -/
def raise (c : ErrCode) (s : State) : Result := .next (s.complete c)

/-- The issue of the command word `cw` (R76): PENDING is latched and DONE cleared. -/
def State.issue (s : State) (cw : Word) : State := { s with pending := some cw, done := false }

/-- A STATUS write (R19): writing 1 clears DONE (bit 1) and OVR (bit 4). With DONE it is the host's acknowledgement of a
completion, which stands in for a return from an exception (R170). -/
def State.clearFlags (s : State) (wdata : Word) : State :=
  { s with done := s.done && !wdata.getLsbD 1, ovr := s.ovr && !wdata.getLsbD 4 }

/-! ## Results of commands -/

/-- An output of bytes: `MemWrite(OUT_BUF, 0, n, d)` and `x[OUT_LEN] <- n` (R30). -/
def State.putOutput (s : State) (d : List Byte) : State :=
  { s with outBuf := s.outBuf.writeBytes 0 d, outLen := BitVec.ofNat 32 d.length }

/-- XFER's writes: `MemWrite(IN_BUF, 0, n, d)` and `x[IN_LEN] <- x[OUT_LEN]` (R151). -/
def State.putInput (s : State) (d : List Byte) : State :=
  { s with inBuf := s.inBuf.writeBytes 0 d, inLen := s.outLen }

/-- The block register pair (R24). -/
def State.putBlock (s : State) (ab : Word × Word) : State := { s with blkA := ab.1, blkB := ab.2 }

/-- All 26 table words, and TV set (R22, R27). -/
def State.putTable (s : State) (t : Vector Word 26) : State := { s with subkey := t, tv := true }

/-- The key registers, and TV cleared (R22). -/
def State.putKey (s : State) (k : Vector Word 4) : State := { s with key := k, tv := false }

/-! ## Reset -/

/-- The buffer a command in flight may have written when it is aborted (R189). -/
def abortedBuf : Instr → Option Buf
  | .encm | .decm | .pad | .b64e | .b64d | .genk => some .outBuf
  | .xfer => some .inBuf
  | .nop | .expand | .encb | .decb | .keyd | .u8ck => none

/-- The buffer that the abort of what is in flight makes unwritten (R189): none, if nothing is in flight or the latched
word is illegal. -/
def State.abortTarget (s : State) : Option Buf :=
  match s.pending with
  | none => none
  | some cw =>
    match decode cw with
    | .ok i => abortedBuf i
    | .error _ => none

/-- The effects of the reset input and of a soft reset (R37, R186, R188, R189): the registers take their reset values, and
the buffers stay but for the abort. The model's own fields and the bus's last answer are not engine state and stay
(log entry 10). -/
def State.resetAction (s : State) : State :=
  { State.reset with
    inBuf := if s.abortTarget = some .inBuf then [] else s.inBuf
    outBuf := if s.abortTarget = some .outBuf then [] else s.outBuf
    fault := s.fault
    resp := s.resp
    inputs := s.inputs
    entropy := s.entropy
    draws := s.draws }

/-! ## Inputs, draws and answers -/

/-- The entropy draw of one GENK (R145): the source's next ready answer, or else a free value. -/
def State.drawnEntropy (s : State) : EntropyAnswer :=
  match s.entropy with
  | a :: _ => a
  | [] => Config.entropy s.draws

/-- The state after an entropy draw: the answer is used up. -/
def State.afterEntropy (s : State) : State :=
  match s.entropy with
  | _ :: rest => { s with entropy := rest }
  | [] => { s with draws := s.draws + 1 }

/-- The state after the free value of a busy read has been taken (R62). -/
def State.afterBusyRead (s : State) : State := { s with draws := s.draws + 1 }

/-- The bus's answer to a transaction (R46). -/
def State.respond (s : State) (r : Response) : State := { s with resp := some r }

/-- The answer to a misaligned or wrong-size access, with the fault R51 asks to record (log entry 7). A fault already
recorded is kept (R172). -/
def State.busError (s : State) (k : BusKind) : State :=
  { s with
    fault := if s.fault = none then some .busError else s.fault
    resp := some ⟨.err, match k with | .read => some 0 | .write => none⟩ }

end Sys2Proof.Machine
end

