-- ==== Sys2Proof/Machine/Flags.lean ====
section
/-! DEFINITION. STATUS, CTRL and ID as the host reads them and the interrupt output (10_state.md R17 to R19, R36,
60_exceptions.md R161, R167). The engine has no condition codes (R35). -/

namespace Sys2Proof.Machine

/-- STATUS.BUSY: PENDING is non-empty (R34). -/
def State.busy (s : State) : Bool := s.pending.isSome

/-- The number of an error code (R161). -/
def ErrCode.code : ErrCode → BitVec 4
  | .ok         => 0
  | .keyFormat  => 1
  | .decode     => 2
  | .encoding   => 3
  | .entropy    => 4
  | .noTable    => 5
  | .illegalCmd => 6
  | .length     => 7

/-- STATUS.ERR: ERRCODE ≠ 0 (R19). -/
def State.err (s : State) : Bool := s.errcode.code != 0

/-- The irq output: `STATUS.DONE and CTRL.IE` (R36, R167). -/
def State.irq (s : State) : Bool := s.done && s.ie

/-- One bit of a register, at its place. -/
def bitAt (k : Nat) (b : Bool) : Word := if b then (1 : Word) <<< k else 0

/-- STATUS as read: BUSY 0, DONE 1, ERR 2, TV 3, OVR 4, ERRCODE 11:8, the rest 0 (R19). -/
def State.statusWord (s : State) : Word :=
  bitAt 0 s.busy ||| bitAt 1 s.done ||| bitAt 2 s.err ||| bitAt 3 s.tv ||| bitAt 4 s.ovr
    ||| (s.errcode.code.setWidth 32 <<< 8)

/-- CTRL as read: IE in bit 0, SRST and the rest 0 (R18). -/
def State.ctrlWord (s : State) : Word := bitAt 0 s.ie

/-- ID: REV 0x07, WBITS 0x20, KBYTES 0x10, ROUNDS 0x0C (R17). -/
def idWord : Word := 0x0720100C

end Sys2Proof.Machine
end

