-- ==== Sys2Proof/Machine/Operands.lean ====
section
/-! DEFINITION. The implicit operands of the commands (30_encoding.md R72): the message in IN_BUF, the message in OUT_BUF, the
key's byte view (10_state.md R25), and the length check every command that reads IN_BUF makes first (R165). -/

namespace Sys2Proof.Machine

/-- `x[IN_LEN]` as a number (R21). -/
def State.inCount (s : State) : Nat := s.inLen.toNat

/-- `x[OUT_LEN]` as a number (R23). -/
def State.outCount (s : State) : Nat := s.outLen.toNat

/-- `MemRead(IN_BUF, 0, x[IN_LEN])` (R68). -/
def State.input (s : State) : Option (List Byte) := s.inBuf.readBytes 0 s.inCount

/-- `MemRead(OUT_BUF, 0, x[OUT_LEN])` (R68). -/
def State.output (s : State) : Option (List Byte) := s.outBuf.readBytes 0 s.outCount

/-- Run the rest of a command on the input message; an unwritten byte in it is the model fault (R12, R31). -/
def withInput (s : State) (k : List Byte → Result) : Result :=
  match s.input with
  | some d => k d
  | none => .fault (.unwrittenBufferRead .inBuf)

/-- Run the rest of a command on the output message; an unwritten byte in it is the model fault (R12, R31). -/
def withOutput (s : State) (k : List Byte → Result) : Result :=
  match s.output with
  | some d => k d
  | none => .fault (.unwrittenBufferRead .outBuf)

/-- The first check of every command that reads IN_BUF: LENGTH if IN_LEN > BUF_BYTES (R165). -/
def checkInLen (s : State) (k : Result) : Result :=
  if Config.bufBytes < s.inCount then raise .length s else k

/-- The check of every command that reads the table: NO_TABLE if TV = 0 (R22, R165). -/
def checkTable (s : State) (k : Result) : Result :=
  if s.tv then k else raise .noTable s

/-- `K[4j + k] = x[KEYj][8k+7 : 8k]` (R25). -/
def keyBytes (key : Vector Word 4) : Vector Byte 16 :=
  #v[key[0].extractLsb' 0 8, key[0].extractLsb' 8 8, key[0].extractLsb' 16 8, key[0].extractLsb' 24 8,
     key[1].extractLsb' 0 8, key[1].extractLsb' 8 8, key[1].extractLsb' 16 8, key[1].extractLsb' 24 8,
     key[2].extractLsb' 0 8, key[2].extractLsb' 8 8, key[2].extractLsb' 16 8, key[2].extractLsb' 24 8,
     key[3].extractLsb' 0 8, key[3].extractLsb' 8 8, key[3].extractLsb' 16 8, key[3].extractLsb' 24 8]

/-- `le32(K[4j], K[4j+1], K[4j+2], K[4j+3])` for j in 0..3: L of R96, and the key registers of R25 and R141. -/
def keyWords (k : Vector Byte 16) : Vector Word 4 :=
  #v[le32 k[0] k[1] k[2] k[3], le32 k[4] k[5] k[6] k[7], le32 k[8] k[9] k[10] k[11], le32 k[12] k[13] k[14] k[15]]

end Sys2Proof.Machine
end

