-- ==== Sys2Proof/Machine/Bus.lean ====
section
/-! DEFINITION. The host bus: the address map (20_memory.md R47 to R49, 10_state.md R16), host reads and writes (R54 to R56), the
busy rules (R61, R62) and the ERR answer (R51). -/

namespace Sys2Proof.Machine

/-- What an aligned access addresses (R47 to R49). -/
inductive Target where
  | id | ctrl | status | cmd | inLen | outLen | blkA | blkB
  | key (j : Fin 4)
  | subkey (i : Fin 26)
  /-- A reserved register offset (R49). -/
  | reserved
  /-- IN_BUF from offset `o`, below BUF_BYTES (R48). -/
  | inBuf (o : Nat)
  /-- OUT_BUF from offset `o`, below BUF_BYTES (R48). -/
  | outBuf (o : Nat)
  /-- A window at or beyond BUF_BYTES (R48), or the upper reserved range (R47). -/
  | raz
  deriving DecidableEq, Repr

/-- The register space, by word offset: R16's summary table; every other offset is reserved (R49). -/
def regTarget (a : Nat) : Target :=
  if a = 0x000 then .id
  else if a = 0x004 then .ctrl
  else if a = 0x008 then .status
  else if a = 0x00C then .cmd
  else if a = 0x010 then .inLen
  else if a = 0x014 then .outLen
  else if a = 0x018 then .blkA
  else if a = 0x01C then .blkB
  else if h : 0x020 ≤ a ∧ a < 0x030 then .key ⟨(a - 0x020) / 4, by omega⟩
  else if h : 0x040 ≤ a ∧ a < 0x0A8 then .subkey ⟨(a - 0x040) / 4, by omega⟩
  else .reserved

/-- The aperture (R47, R48). -/
def target (addr : Addr) : Target :=
  let a := addr.toNat
  if a < 0x10000 then regTarget a
  else if a < 0x20000 then
    if a - 0x10000 < Config.bufBytes then .inBuf (a - 0x10000) else .raz
  else if a < 0x30000 then
    if a - 0x20000 < Config.bufBytes then .outBuf (a - 0x20000) else .raz
  else .raz

/-- A read while busy is a draw (R62): every register but ID, CTRL, STATUS and CMD, and either buffer below BUF_BYTES. -/
def Target.drawnWhileBusy : Target → Bool
  | .inLen | .outLen | .blkA | .blkB | .key _ | .subkey _ | .inBuf _ | .outBuf _ => true
  | .id | .ctrl | .status | .cmd | .reserved | .raz => false

/-- A write while busy is accepted (R61): CTRL and STATUS only. -/
def Target.acceptedWhileBusy : Target → Bool
  | .ctrl | .status => true
  | .id | .cmd | .inLen | .outLen | .blkA | .blkB | .key _ | .subkey _ | .reserved | .inBuf _ | .outBuf _ | .raz => false

/-- `n` bytes of a buffer from offset `o` as read data (R52), or the model fault (R55). -/
def windowRead (b : Buf) (m : Memory) (o n : Nat) : Except Fault Word :=
  match m.readBytes o n with
  | some bs => .ok (leJoin bs)
  | none => .error (.unwrittenBufferRead b)

/-- The value a read of `n` bytes returns (R17 to R27, R47 to R49, R55, R56). -/
def State.readTarget (s : State) (n : Nat) : Target → Except Fault Word
  | .id => .ok idWord
  | .ctrl => .ok s.ctrlWord
  | .status => .ok s.statusWord
  | .cmd => .ok 0
  | .inLen => .ok s.inLen
  | .outLen => .ok s.outLen
  | .blkA => .ok s.blkA
  | .blkB => .ok s.blkB
  | .key j => .ok s.key[j]
  | .subkey i => .ok s.subkey[i]
  | .reserved => .ok 0
  | .inBuf o => windowRead .inBuf s.inBuf o n
  | .outBuf o => windowRead .outBuf s.outBuf o n
  | .raz => .ok 0

/-- An accepted write of `n` bytes (R18 to R27, R54, R56). -/
def State.writeTarget (s : State) (n : Nat) (wdata : Word) : Target → State
  | .ctrl => if wdata.getLsbD 1 then s.resetAction else { s with ie := wdata.getLsbD 0 }
  | .status => s.clearFlags wdata
  | .cmd => s.issue wdata
  | .inLen => { s with inLen := wdata }
  | .blkA => { s with blkA := wdata }
  | .blkB => { s with blkB := wdata }
  | .key j => { s with key := s.key.set j.val wdata, tv := false }
  | .inBuf o => { s with inBuf := s.inBuf.writeBytes o (leBytes n wdata) }
  | .id | .outLen | .subkey _ | .reserved | .outBuf _ | .raz => s

/-- A host write (R56, R61): dropped with OVR set while busy, but for CTRL and STATUS. -/
def hostWrite (t : Txn) (s : State) : State :=
  if s.busy && !(target t.addr).acceptedWhileBusy then
    ({ s with ovr := true } : State).respond ⟨.ok, none⟩
  else
    (s.writeTarget t.size.bytes t.wdata (target t.addr)).respond ⟨.ok, none⟩

/-- A host read (R55, R56, R62): a free value for result-bearing state while busy. -/
def hostRead (t : Txn) (s : State) : Result :=
  if s.busy && (target t.addr).drawnWhileBusy then
    .next (s.afterBusyRead.respond ⟨.ok, some (zextBytes t.size.bytes (Config.busyRead s.draws))⟩)
  else
    match s.readTarget t.size.bytes (target t.addr) with
    | .ok v => .next (s.respond ⟨.ok, some v⟩)
    | .error f => .fault f

/-- One host transaction (R46, R51). -/
def transact (t : Txn) (s : State) : Result :=
  if t.wf then
    match t.kind with
    | .read => hostRead t s
    | .write => .next (hostWrite t s)
  else .next (s.busError t.kind)

end Sys2Proof.Machine
end

