-- ==== Sys2Proof/Machine/BlockTransform.lean ====
section
/-! DEFINITION. The data-dependent rotation mixer, ENCB and DECB (42_block_transform.md R111 to R116). Round r of the spec, for
r in 1..12, is here indexed by r - 1. -/

namespace Sys2Proof.Machine

/-- Round r + 1 of encryptBlock, with S[2(r+1)] on the A half and S[2(r+1)+1] on the B half (R111, R112). -/
def encRound (S : Vector Word 26) (ab : Word × Word) (r : Fin 12) : Word × Word :=
  let a := rotl (ab.1 ^^^ ab.2) ab.2.toNat + S[2 * (r.val + 1)]
  let b := rotl (ab.2 ^^^ a) a.toNat + S[2 * (r.val + 1) + 1]
  (a, b)

/-- `encryptBlock(A, B, S)` (R112). -/
def encryptBlock (S : Vector Word 26) (a b : Word) : Word × Word :=
  (List.finRange 12).foldl (encRound S) (a + S[0], b + S[1])

/-- Round r + 1 of decryptBlock (R113). -/
def decRound (S : Vector Word 26) (ab : Word × Word) (r : Fin 12) : Word × Word :=
  let b := rotr (ab.2 - S[2 * (r.val + 1) + 1]) ab.1.toNat ^^^ ab.1
  let a := rotr (ab.1 - S[2 * (r.val + 1)]) b.toNat ^^^ b
  (a, b)

/-- `decryptBlock(A, B, S)`: rounds 12 down to 1, then the unwhitening (R113). -/
def decryptBlock (S : Vector Word 26) (a b : Word) : Word × Word :=
  let ab := (List.finRange 12).reverse.foldl (decRound S) (a, b)
  (ab.1 - S[0], ab.2 - S[1])

/-- ENCB (R115). -/
def execEncb (s : State) : Result :=
  checkTable s <|
    succeed (s.putBlock (encryptBlock s.subkey s.blkA s.blkB))

/-- DECB (R116). -/
def execDecb (s : State) : Result :=
  checkTable s <|
    succeed (s.putBlock (decryptBlock s.subkey s.blkA s.blkB))

end Sys2Proof.Machine
end

