-- ==== Sys2Proof/Machine/Chaining.lean ====
section
/-! DEFINITION. XFER and NOP (43_facade.md R151, R152). -/

namespace Sys2Proof.Machine

/-- XFER (R151): no length check, since OUT_LEN ≤ BUF_BYTES always holds. -/
def execXfer (s : State) : Result :=
  withOutput s fun d => succeed (s.putInput d)

/-- NOP (R152). -/
def execNop (s : State) : Result := succeed s

end Sys2Proof.Machine
end

