-- ==== Sys2Proof/Machine/Codec.lean ====
section
/-! DEFINITION. The word/block codec and PAD (40_codec.md R86 to R91). -/

namespace Sys2Proof.Machine

/-- `padlen(n) = 8 * ceil(n / 8)` (R87). -/
def padlen (n : Nat) : Nat := 8 * ((n + 7) / 8)

/-- `d ++ zeros(padlen(n) - n)`: zero padding to whole blocks (R86, R87). -/
def padBlocks (d : List Byte) : List Byte := d ++ List.replicate (padlen d.length - d.length) 0

/-- `w[k] = le32(dp[4k..4k+4))` over a sequence of whole words (R86). -/
def groupWords : List Byte → List Word
  | b0 :: b1 :: b2 :: b3 :: rest => le32 b0 b1 b2 b3 :: groupWords rest
  | _ => []

/-- `bytesToWords(d)` (R86). -/
def bytesToWords (d : List Byte) : List Word := groupWords (padBlocks d)

/-- `wordsToBytes(ws)` (R88). -/
def wordsToBytes (ws : List Word) : List Byte := ws.flatMap bytesLe

/-- PAD (R91). -/
def execPad (s : State) : Result :=
  checkInLen s <|
    withInput s fun d =>
      succeed (s.putOutput (wordsToBytes (bytesToWords d)))

end Sys2Proof.Machine
end

