-- ==== Sys2Proof/Machine/KeySchedule.lean ====
section
/-! DEFINITION. The key schedule expander and EXPAND (41_key_schedule.md R96 to R101). -/

namespace Sys2Proof.Machine

/-- P (R6). -/
def magicP : Word := 0xB7E15163

/-- Q (R6). -/
def magicQ : Word := 0x9E3779B9

/-- `S[i] = S[i-1] + Q`, from `x` on, `n` words (R97). -/
def seedFrom : Nat → Word → List Word
  | 0, _ => []
  | n + 1, x => x :: seedFrom n (x + magicQ)

theorem seedFrom_length (n : Nat) (x : Word) : (seedFrom n x).length = n := by
  induction n generalizing x with
  | zero => rfl
  | succ n ih => simp [seedFrom, ih]

/-- The seed table: `S[0] = P`, `S[i] = S[i-1] + Q` (R97). -/
def seedTable : Vector Word 26 := ⟨(seedFrom 26 magicP).toArray, by simp [seedFrom_length]⟩

/-- The scratch state of the mixing passes (R32, R98). -/
structure Mixing where
  s : Vector Word 26
  l : Vector Word 4
  a : Word
  b : Word
  i : Fin 26
  j : Fin 4
  deriving DecidableEq, Repr

/-- One mixing pass: the second assignment reads the A the first just wrote (R98). -/
def mixPass (m : Mixing) : Mixing :=
  let a := rotl (m.s[m.i] + m.a + m.b) 3
  let b := rotl (m.l[m.j] + a + m.b) (a + m.b).toNat
  { s := m.s.set m.i a, l := m.l.set m.j b, a := a, b := b, i := m.i + 1, j := m.j + 1 }

/-- `n` mixing passes. -/
def mixPasses : Nat → Mixing → Mixing
  | 0, m => m
  | n + 1, m => mixPasses n (mixPass m)

/-- The scratch state before the first pass: the seed table, the key words, (A, B, i, j) = (0, 0, 0, 0)
(R96, R97, R98). -/
def mixStart (k : Vector Byte 16) : Mixing :=
  { s := seedTable, l := keyWords k, a := 0, b := 0, i := 0, j := 0 }

/-- V = 78 passes (R5, R99). -/
def mixCount : Nat := 3 * max 26 4

/-- `expand(K)`: the table the passes leave; the rest of the scratch state is discarded (R100). -/
def expand (k : Vector Byte 16) : Vector Word 26 := (mixPasses mixCount (mixStart k)).s

/-- EXPAND (R101). -/
def execExpand (s : State) : Result :=
  succeed (s.putTable (expand (keyBytes s.key)))

end Sys2Proof.Machine
end

