-- ==== Sys2Proof/Machine/Transport.lean ====
section
/-! DEFINITION. The transport encoding, B64E and B64D (43_facade.md R131 to R135). -/

namespace Sys2Proof.Machine

/-- `ALPH[v]` (R132). -/
def alph (v : BitVec 6) : Byte :=
  if v.toNat < 26 then BitVec.ofNat 8 (0x41 + v.toNat)
  else if v.toNat < 52 then BitVec.ofNat 8 (0x61 + (v.toNat - 26))
  else if v.toNat < 62 then BitVec.ofNat 8 (0x30 + (v.toNat - 52))
  else if v.toNat = 62 then 0x2B
  else 0x2F

/-- The value of a byte of the alphabet, and nothing for any other byte (R132, R133). -/
def alphInv (c : Byte) : Option (BitVec 6) :=
  if 0x41 ≤ c.toNat ∧ c.toNat ≤ 0x5A then some (BitVec.ofNat 6 (c.toNat - 0x41))
  else if 0x61 ≤ c.toNat ∧ c.toNat ≤ 0x7A then some (BitVec.ofNat 6 (c.toNat - 0x61 + 26))
  else if 0x30 ≤ c.toNat ∧ c.toNat ≤ 0x39 then some (BitVec.ofNat 6 (c.toNat - 0x30 + 52))
  else if c = 0x2B then some 62
  else if c = 0x2F then some 63
  else none

/-- The pad character `=` (R132). -/
def padChar : Byte := 0x3D

/-- `v` of R132: three bytes as 24 bits, the first on top. -/
def join24 (b0 b1 b2 : Byte) : BitVec 24 :=
  (b0.setWidth 24 <<< 16) ||| (b1.setWidth 24 <<< 8) ||| b2.setWidth 24

/-- `b64enc(d)`, group by group (R132). -/
def b64enc : List Byte → List Byte
  | [] => []
  | [b0] =>
    let v := join24 b0 0 0
    [alph (v.extractLsb' 18 6), alph (v.extractLsb' 12 6), padChar, padChar]
  | [b0, b1] =>
    let v := join24 b0 b1 0
    [alph (v.extractLsb' 18 6), alph (v.extractLsb' 12 6), alph (v.extractLsb' 6 6), padChar]
  | b0 :: b1 :: b2 :: rest =>
    let v := join24 b0 b1 b2
    alph (v.extractLsb' 18 6) :: alph (v.extractLsb' 12 6) :: alph (v.extractLsb' 6 6) :: alph (v.extractLsb' 0 6)
      :: b64enc rest

/-- `x` of R133: four 6-bit values as 24 bits, the first on top. -/
def joinSextets (v0 v1 v2 v3 : BitVec 6) : BitVec 24 :=
  (v0.setWidth 24 <<< 18) ||| (v1.setWidth 24 <<< 12) ||| (v2.setWidth 24 <<< 6) ||| v3.setWidth 24

/-- How many pad characters end the last group of four: two, one or none. A group that ends in three has its second
character outside the alphabet, and so is refused by the alphabet check (R133). -/
def padCount (c2 c3 : Byte) : Nat :=
  if c3 = padChar then (if c2 = padChar then 2 else 1) else 0

/-- A group of four that is not padded (R133). -/
def decodeQuad (c0 c1 c2 c3 : Byte) : Option (List Byte) :=
  match alphInv c0, alphInv c1, alphInv c2, alphInv c3 with
  | some v0, some v1, some v2, some v3 =>
    let x := joinSextets v0 v1 v2 v3
    some [x.extractLsb' 16 8, x.extractLsb' 8 8, x.extractLsb' 0 8]
  | _, _, _, _ => none

/-- The last group of four, with its padding; non-zero pad bits are refused (R133). -/
def decodeLast (c0 c1 c2 c3 : Byte) : Option (List Byte) :=
  if padCount c2 c3 = 2 then
    match alphInv c0, alphInv c1 with
    | some v0, some v1 =>
      let x := joinSextets v0 v1 0 0
      if x.extractLsb' 0 16 = 0 then some [x.extractLsb' 16 8] else none
    | _, _ => none
  else if padCount c2 c3 = 1 then
    match alphInv c0, alphInv c1, alphInv c2 with
    | some v0, some v1, some v2 =>
      let x := joinSextets v0 v1 v2 0
      if x.extractLsb' 0 8 = 0 then some [x.extractLsb' 16 8, x.extractLsb' 8 8] else none
    | _, _, _ => none
  else decodeQuad c0 c1 c2 c3

/-- `b64dec(t)`, with `none` for INVALID (R133): the length is a multiple of 4, and every group but the last is four
characters of the alphabet. -/
def b64dec : List Byte → Option (List Byte)
  | [] => some []
  | [c0, c1, c2, c3] => decodeLast c0 c1 c2 c3
  | c0 :: c1 :: c2 :: c3 :: rest =>
    match decodeQuad c0 c1 c2 c3, b64dec rest with
    | some q, some bs => some (q ++ bs)
    | _, _ => none
  | _ => none

/-- `4 * ceil(n / 3)`, the length of `b64enc` of n bytes (R132). -/
def b64len (n : Nat) : Nat := 4 * ((n + 2) / 3)

/-- B64E (R134): LENGTH for the input, then for the output (R165). -/
def execB64e (s : State) : Result :=
  checkInLen s <|
    if Config.bufBytes < b64len s.inCount then raise .length s
    else
      withInput s fun d =>
        succeed (s.putOutput (b64enc d))

/-- B64D (R135). -/
def execB64d (s : State) : Result :=
  checkInLen s <|
    withInput s fun t =>
      match b64dec t with
      | some o => succeed (s.putOutput o)
      | none => raise .decode s

end Sys2Proof.Machine
end

