-- ==== Sys2Proof/Machine/KeyText.lean ====
section
/-! DEFINITION. Key text: KEYD and GENK (43_facade.md R140, R141, R145, R146). -/

namespace Sys2Proof.Machine

/-- Exactly 16 bytes, as a key. -/
def toKey (o : List Byte) : Option (Vector Byte 16) :=
  if h : o.length = 16 then some ⟨o.toArray, by simpa using h⟩ else none

/-- `keydec(t)`, with `none` for KEY_FORMAT (R140). -/
def keydec (t : List Byte) : Option (Vector Byte 16) :=
  match b64dec t with
  | some o => toKey o
  | none => none

/-- KEYD (R141): the key is loaded and TV cleared, or KEY_FORMAT. -/
def execKeyd (s : State) : Result :=
  checkInLen s <|
    withInput s fun t =>
      match keydec t with
      | some k => succeed (s.putKey (keyWords k))
      | none => raise .keyFormat s

/-- What GENK does with the source's answer (R146). -/
def genkWith (s : State) : EntropyAnswer → State
  | some r => (s.putOutput (b64enc r.toList)).complete .ok
  | none => s.complete .entropy

/-- GENK (R146): one draw, used up whether the command succeeds or fails. There is no length check, since
BUF_BYTES ≥ 24. -/
def execGenk (s : State) : Result := .next (genkWith s.afterEntropy s.drawnEntropy)

end Sys2Proof.Machine
end

