-- ==== Sys2Proof/Machine/Message.lean ====
section
/-! DEFINITION. Message encryption and decryption, ENCM and DECM (43_facade.md R126 to R129). There is no chaining
(42_block_transform.md R117). -/

namespace Sys2Proof.Machine

/-- Transform every block `(w[2k], w[2k+1])` independently, in order (R89, R126). -/
def mapBlocks (f : Word → Word → Word × Word) : List Word → List Word
  | a :: b :: rest => (f a b).1 :: (f a b).2 :: mapBlocks f rest
  | _ => []

/-- `encm(d, S)` (R126). -/
def encm (d : List Byte) (S : Vector Word 26) : List Byte :=
  wordsToBytes (mapBlocks (encryptBlock S) (bytesToWords d))

/-- `decm(d, S)` (R128). -/
def decm (d : List Byte) (S : Vector Word 26) : List Byte :=
  wordsToBytes (mapBlocks (decryptBlock S) (bytesToWords d))

/-- ENCM (R127). -/
def execEncm (s : State) : Result :=
  checkInLen s <|
    checkTable s <|
      withInput s fun d =>
        succeed (s.putOutput (encm d s.subkey))

/-- DECM (R129): the length check needs no bytes and comes before the read (R165). -/
def execDecm (s : State) : Result :=
  checkInLen s <|
    checkTable s <|
      if s.inCount % 8 ≠ 0 then raise .decode s
      else
        withInput s fun d =>
          succeed (s.putOutput (decm d s.subkey))

end Sys2Proof.Machine
end

