-- ==== Sys2Proof/Machine/TextCheck.lean ====
section
/-! DEFINITION. UTF-8 validity and U8CK (43_facade.md R148, R149). -/

namespace Sys2Proof.Machine

/-- A range of byte values, both ends in it. -/
structure ByteRange where
  lo : Byte
  hi : Byte
  deriving DecidableEq, Repr

/-- The byte lies in the range. -/
def ByteRange.has (r : ByteRange) (b : Byte) : Bool := r.lo.toNat ≤ b.toNat && b.toNat ≤ r.hi.toNat

/-- 80 to BF: a continuation byte. -/
def contByte : ByteRange := ⟨0x80, 0xBF⟩

/-- One row of R148's table: the first byte's range and the ranges of the bytes that follow it. -/
structure Utf8Row where
  first : ByteRange
  rest  : List ByteRange
  deriving DecidableEq, Repr

/-- R148's table. -/
def utf8Table : List Utf8Row :=
  [⟨⟨0x00, 0x7F⟩, []⟩,
   ⟨⟨0xC2, 0xDF⟩, [contByte]⟩,
   ⟨⟨0xE0, 0xE0⟩, [⟨0xA0, 0xBF⟩, contByte]⟩,
   ⟨⟨0xE1, 0xEC⟩, [contByte, contByte]⟩,
   ⟨⟨0xED, 0xED⟩, [⟨0x80, 0x9F⟩, contByte]⟩,
   ⟨⟨0xEE, 0xEF⟩, [contByte, contByte]⟩,
   ⟨⟨0xF0, 0xF0⟩, [⟨0x90, 0xBF⟩, contByte, contByte]⟩,
   ⟨⟨0xF1, 0xF3⟩, [contByte, contByte, contByte]⟩,
   ⟨⟨0xF4, 0xF4⟩, [⟨0x80, 0x8F⟩, contByte, contByte]⟩]

/-- What must follow a first byte; nothing, if no row begins with it. -/
def utf8Rest (b : Byte) : Option (List ByteRange) :=
  (utf8Table.find? fun row => row.first.has b).map (·.rest)

/-- Read bytes while the ranges `rs` are still due to complete the sequence begun. -/
def utf8From : List ByteRange → List Byte → Bool
  | [], [] => true
  | _ :: _, [] => false
  | r :: rs, b :: bs => r.has b && utf8From rs bs
  | [], b :: bs =>
    match utf8Rest b with
    | some rs => utf8From rs bs
    | none => false

/-- `utf8_valid(d)` (R148). -/
def utf8Valid (d : List Byte) : Bool := utf8From [] d

/-- U8CK (R149). -/
def execU8ck (s : State) : Result :=
  withOutput s fun d =>
    if utf8Valid d then succeed s else raise .encoding s

end Sys2Proof.Machine
end

