-- ==== Sys2Proof/Machine/Dispatch.lean ====
section
/-! DEFINITION. The engine's completion of a decoded command (60_exceptions.md R163): one arm per command. -/

namespace Sys2Proof.Machine

def exec (i : Instr) (s : State) : Host.Outcome State Fault Refusal :=
  match i with
  | .nop => Sys2Proof.Machine.execNop s
  | .expand => Sys2Proof.Machine.execExpand s
  | .encb => Sys2Proof.Machine.execEncb s
  | .decb => Sys2Proof.Machine.execDecb s
  | .encm => Sys2Proof.Machine.execEncm s
  | .decm => Sys2Proof.Machine.execDecm s
  | .pad => Sys2Proof.Machine.execPad s
  | .b64e => Sys2Proof.Machine.execB64e s
  | .b64d => Sys2Proof.Machine.execB64d s
  | .keyd => Sys2Proof.Machine.execKeyd s
  | .genk => Sys2Proof.Machine.execGenk s
  | .u8ck => Sys2Proof.Machine.execU8ck s
  | .xfer => Sys2Proof.Machine.execXfer s

end Sys2Proof.Machine
end

