-- ==== Sys2Proof/Machine/Schedule.lean ====
section
/-! DEFINITION. The two agents and their schedule (20_memory.md R59, 60_exceptions.md R163, R166): the engine's one step, and
what the next input does. -/

namespace Sys2Proof.Machine

/-- The completion of the latched word `cw` (R163): ILLEGAL_CMD, or the command. -/
def completeWord (cw : Word) (s : State) : Result :=
  match decode cw with
  | .ok i => exec i s
  | .error _ => raise .illegalCmd s

/-- The engine's turn (R59): it completes what is pending, and is idle otherwise (R178). -/
def engineTurn (s : State) : Result :=
  match s.pending with
  | some cw => completeWord cw s
  | none => .next s

/-- What an input does. -/
def takeInput (i : Input) (s : State) : Result :=
  match i with
  | .host t => transact t s
  | .resetPin => .next s.resetAction
  | .engine => engineTurn s

/-- One step of the whole: the next input, and the engine's turn once there is none (log entry 1). -/
def advance (s : State) : Result :=
  match s.inputs with
  | i :: rest => takeInput i { s with inputs := rest }
  | [] => engineTurn s

/-- The command word `cw` latched, and the engine's turn next. -/
def State.withPending (s : State) (cw : Word) : State :=
  { s with pending := some cw, inputs := .engine :: s.inputs }

end Sys2Proof.Machine
end

