-- ==== Sys2Proof/Machine/Step.lean ====
section
/-! DEFINITION. The step, and a state whose next step completes a given command word. -/

namespace Sys2Proof.Machine

/-- One step: the next input, or the engine's turn. -/
def step (s : State) : Host.Outcome State Fault Refusal := advance s

/-- `s` with the command word `w` (its low `nbits` bits, the rest 0) latched in PENDING, where the engine takes its next
command from (R34, R64), and the engine's turn next. It stands for a host's CMD write, after which it is the engine's turn
(log entry 2). -/
def State.withFetchWord (s : State) (nbits w : Nat) : State :=
  s.withPending (BitVec.ofNat 32 (w % 2 ^ nbits))

end Sys2Proof.Machine
end

