-- ==== Sys2Proof/Machine/HostScript.lean ====
section
/-! DEFINITION. Host programs as written by 30_encoding.md R77 to R79, the programs of DOC's three operations (43_facade.md R155
to R157), and the result those programs have. A host program's control flow is the host's, outside the engine (R80): the
engine sees the transactions, which `HostStmt.txn` gives, as `Input.host` (log entry 20). -/

namespace Sys2Proof.Machine

/-- The comparisons of a host branch (R77). -/
inductive HostCmp where
  | eq | ne | lt | le | gt | ge
  deriving DecidableEq, Repr

/-- A statement of R77. Temporaries and labels are names. -/
inductive HostStmt where
  /-- `WR`, `WRH` or `WRB off, v`. -/
  | wr (size : BusSize) (off : Addr) (v : Word)
  /-- `RD`, `RDH` or `RDB off -> t`. -/
  | rd (size : BusSize) (off : Addr) (t : String)
  /-- `label:`. -/
  | label (l : String)
  /-- `t = u[hi:lo]`, as the pseudo-instruction ERRCODE uses it (R79). -/
  | field (t u : String) (hi lo : Nat)
  /-- `IF t[hi:lo] cmp v GOTO l`. -/
  | branch (t : String) (hi lo : Nat) (cmp : HostCmp) (v : Nat) (l : String)
  /-- `EXPECT t = v`. -/
  | expect (t : String) (v : Word)
  deriving DecidableEq, Repr

/-- The bus transaction of a statement, if it is one (R77). -/
def HostStmt.txn : HostStmt → Option Txn
  | .wr size off v => some ⟨.write, off, size, v⟩
  | .rd size off _ => some ⟨.read, off, size, 0⟩
  | .label _ | .field .. | .branch .. | .expect .. => none

/-! ## The register names of R77 -/

def offCtrl : Addr := 0x004
def offStatus : Addr := 0x008
def offCmd : Addr := 0x00C
def offInLen : Addr := 0x010
def offOutLen : Addr := 0x014
def offBlkA : Addr := 0x018
def offBlkB : Addr := 0x01C
def offKey (j : Fin 4) : Addr := BitVec.ofNat 18 (0x020 + 4 * j.val)
def offSubkey (i : Fin 26) : Addr := BitVec.ofNat 18 (0x040 + 4 * i.val)
/-- `IN+o`. DESIGN CHOICE (log entry 25): from 0x30000 on, where `IN+o` passes the aperture, the offset wraps modulo 2^18. -/
def offIn (o : Nat) : Addr := BitVec.ofNat 18 (0x10000 + o)
/-- `OUT+o`. DESIGN CHOICE (log entry 25): from 0x20000 on, where `OUT+o` passes the aperture, the offset wraps modulo 2^18. -/
def offOut (o : Nat) : Addr := BitVec.ofNat 18 (0x20000 + o)

/-! ## The pseudo-instructions of R79 -/

/-- `CMD m`. -/
def pseudoCmd (m : Instr) : List HostStmt := [.wr .word offCmd (encode m)]

/-- `WAIT`, with its fresh label. -/
def pseudoWait (l : String) : List HostStmt :=
  [.label l, .rd .word offStatus "t", .branch "t" 0 0 .eq 1 l]

/-- `EXEC m`. -/
def pseudoExec (m : Instr) (l : String) : List HostStmt := pseudoCmd m ++ pseudoWait l

/-- `LOADKEY k0, k1, k2, k3`. -/
def pseudoLoadKey (k0 k1 k2 k3 : Word) : List HostStmt :=
  [.wr .word (offKey 0) k0, .wr .word (offKey 1) k1, .wr .word (offKey 2) k2, .wr .word (offKey 3) k3]

/-- The byte writes of `LOADIN`, from offset `i` on. -/
def loadBytes : Nat → List Byte → List HostStmt
  | _, [] => []
  | i, b :: bs => .wr .byte (offIn i) (b.setWidth 32) :: loadBytes (i + 1) bs

/-- `LOADIN [b0, …, b(n-1)]`. DESIGN CHOICE (log entry 25): `n` is written modulo 2^32. -/
def pseudoLoadIn (bs : List Byte) : List HostStmt :=
  loadBytes 0 bs ++ [.wr .word offInLen (BitVec.ofNat 32 bs.length)]

/-- `ERRCODE -> t`. -/
def pseudoErrCode (t : String) : List HostStmt := [.rd .word offStatus "u", .field t "u" 11 8]

/-- `READOUT -> d`, where `n` is the length its first read returns. -/
def pseudoReadOut (n : Nat) : List HostStmt :=
  .rd .word offOutLen "n" :: (List.range n).map fun i => .rd .byte (offOut i) ("d" ++ toString i)

/-- `ACK`. -/
def pseudoAck : List HostStmt := [.wr .word offStatus 0x00000012]

/-- `ERRCODE -> e; IF e = v GOTO l`. -/
def failOn (v : Nat) (l : String) : List HostStmt := pseudoErrCode "e" ++ [.branch "e" 31 0 .eq v l]

/-! ## The programs of DOC's operations -/

/-- `generateKey()` (R155). -/
def generateKeyProgram (n : Nat) : List HostStmt :=
  pseudoExec .genk "w1" ++ failOn 4 "fail_entropy" ++ pseudoReadOut n

/-- `encrypt(plaintext, key)` (R156). -/
def encryptProgram (keyText plain : List Byte) (n : Nat) : List HostStmt :=
  pseudoLoadIn keyText ++ pseudoExec .keyd "w1" ++ failOn 1 "fail_key_format"
    ++ pseudoExec .expand "w2"
    ++ pseudoLoadIn plain ++ pseudoExec .encm "w3" ++ failOn 7 "fail_too_long"
    ++ pseudoExec .xfer "w4"
    ++ pseudoExec .b64e "w5" ++ failOn 7 "fail_too_long"
    ++ pseudoReadOut n

/-- `decrypt(ciphertext, key)` (R157). -/
def decryptProgram (keyText cipherText : List Byte) (n : Nat) : List HostStmt :=
  pseudoLoadIn keyText ++ pseudoExec .keyd "w1" ++ failOn 1 "fail_key_format"
    ++ pseudoExec .expand "w2"
    ++ pseudoLoadIn cipherText ++ pseudoExec .b64d "w3" ++ failOn 2 "fail_decode"
    ++ pseudoExec .xfer "w4"
    ++ pseudoExec .decm "w5" ++ failOn 2 "fail_decode"
    ++ pseudoExec .u8ck "w6" ++ failOn 3 "fail_encoding"
    ++ pseudoReadOut n

/-! ## What the operations return -/

/-- The result of `encrypt`, for texts that fit the buffers, LENGTH left out (DESIGN CHOICE, log entry 20):
`b64enc(encm(utf8(plaintext), expand(keydec(key_text))))`, or KEY_FORMAT (R156, R158). -/
def encryptText (keyText plain : List Byte) : Except ErrCode (List Byte) :=
  match keydec keyText with
  | some k => .ok (b64enc (encm plain (expand k)))
  | none => .error .keyFormat

/-- The result of `decrypt`, for texts that fit the buffers, LENGTH left out (DESIGN CHOICE, log entry 20): the key is checked
first, then the transport encoding, the length and the UTF-8 (R157, R158). -/
def decryptText (keyText cipherText : List Byte) : Except ErrCode (List Byte) :=
  match keydec keyText with
  | none => .error .keyFormat
  | some k =>
    match b64dec cipherText with
    | none => .error .decode
    | some c =>
      if c.length % 8 ≠ 0 then .error .decode
      else if utf8Valid (decm c (expand k)) then .ok (decm c (expand k))
      else .error .encoding

end Sys2Proof.Machine
end

