-- ==== Sys2Proof/Safety.lean ====
section
/-! DEFINITION. What counts as a sound state and a safe run: the invariants of the engine's state and the duties of the host
(70_reset_and_hazards.md R191, R192, R199), in the terms the statements use. -/

namespace Sys2Proof.Machine

/-- A buffer in its canonical form that lies below BUF_BYTES (R28, R29). -/
def Memory.Sound (m : Memory) : Prop := m.wf ∧ ∀ c ∈ m, c.1 < Config.bufBytes

/-- The buffers and OUT_LEN (R23, R151): both buffers are sound, `OUT_LEN ≤ BUF_BYTES`, and the bytes below OUT_LEN hold
values. -/
structure State.BufInv (s : State) : Prop where
  inSound  : s.inBuf.Sound
  outSound : s.outBuf.Sound
  outLenLe : s.outCount ≤ Config.bufBytes
  written  : ∀ a, a < s.outCount → (s.outBuf.read a).isSome

/-- R22: TV = 1 implies S = expand(K). -/
def State.TableInv (s : State) : Prop := s.tv = true → s.subkey = expand (keyBytes s.key)

/-- DONE is cleared by an issue and set by a completion (R19), so it is 0 while a command is pending. -/
def State.BusyInv (s : State) : Prop := s.busy = true → s.done = false

/-- The engine's invariant. -/
structure State.Inv (s : State) : Prop where
  buf   : s.BufInv
  table : s.TableInv
  busy  : s.BusyInv

/-- No model fault has been recorded (R172): what a claim about a run may assume. -/
def State.Clean (s : State) : Prop := s.fault = none

/-- Every byte the transaction reads from a buffer holds a value (R199: never read unwritten bytes). -/
def readsWritten (t : Txn) (s : State) : Bool :=
  match t.kind, target t.addr with
  | .read, .inBuf o => (s.inBuf.readBytes o t.size.bytes).isSome
  | .read, .outBuf o => (s.outBuf.readBytes o t.size.bytes).isSome
  | _, _ => true

/-- The transaction respects the busy hazard (R191): while busy the host writes CTRL and STATUS only, and reads nothing
that bears a result. -/
def respectsBusy (t : Txn) (s : State) : Bool :=
  match t.kind with
  | .read => !(s.busy && (target t.addr).drawnWhileBusy)
  | .write => !(s.busy && !(target t.addr).acceptedWhileBusy)

/-- The transaction keeps the host's duties (R51, R191, R199). DESIGN CHOICE (log entry 26): R199 does not say which of its
duties a claim takes for granted; these are the three that can be told of one transaction, and neither EXPAND before a cipher
command nor n ≤ BUF_BYTES is among them. -/
def dutiful (t : Txn) (s : State) : Bool := t.wf && respectsBusy t s && readsWritten t s

/-- The codes a command can complete with (R162). -/
def possibleCodes : Instr → List ErrCode
  | .nop => [.ok]
  | .expand => [.ok]
  | .encb => [.ok, .noTable]
  | .decb => [.ok, .noTable]
  | .encm => [.ok, .length, .noTable]
  | .decm => [.ok, .length, .noTable, .decode]
  | .pad => [.ok, .length]
  | .b64e => [.ok, .length]
  | .b64d => [.ok, .length, .decode]
  | .keyd => [.ok, .length, .keyFormat]
  | .genk => [.ok, .entropy]
  | .u8ck => [.ok, .encoding]
  | .xfer => [.ok]

end Sys2Proof.Machine
end

