-- ==== Sys2Proof/Certificates/Slice0/Obligations.lean ====
section
/-! DEFINITION. The statements about the engine, for the provers. Each is about every state, unless it says otherwise; the rule of
spec/ it formalises stands in its docstring. -/

open Sys2Proof Sys2Proof.Machine

/-! ## Terms the statements use -/

/-- What an outcome becomes when its next state is changed by `f`. -/
def Sys2Proof.Machine.mapNext (f : State → State) : Result → Result
  | .next s => .next (f s)
  | .fault r => .fault r
  | .refused r => .refused r

/-- 80 to BF, as R148 writes a continuation byte. -/
def Sys2Proof.Machine.IsCont (b : Byte) : Prop := 0x80 ≤ b.toNat ∧ b.toNat ≤ 0xBF

/-- A well-formed UTF-8 byte sequence, row by row of R148's table. -/
def Sys2Proof.Machine.Utf8Sequence : List Byte → Prop
  | [a] => a.toNat ≤ 0x7F
  | [a, b] => 0xC2 ≤ a.toNat ∧ a.toNat ≤ 0xDF ∧ IsCont b
  | [a, b, c] =>
    (a.toNat = 0xE0 ∧ 0xA0 ≤ b.toNat ∧ b.toNat ≤ 0xBF ∧ IsCont c)
      ∨ (0xE1 ≤ a.toNat ∧ a.toNat ≤ 0xEC ∧ IsCont b ∧ IsCont c)
      ∨ (a.toNat = 0xED ∧ 0x80 ≤ b.toNat ∧ b.toNat ≤ 0x9F ∧ IsCont c)
      ∨ (0xEE ≤ a.toNat ∧ a.toNat ≤ 0xEF ∧ IsCont b ∧ IsCont c)
  | [a, b, c, d] =>
    (a.toNat = 0xF0 ∧ 0x90 ≤ b.toNat ∧ b.toNat ≤ 0xBF ∧ IsCont c ∧ IsCont d)
      ∨ (0xF1 ≤ a.toNat ∧ a.toNat ≤ 0xF3 ∧ IsCont b ∧ IsCont c ∧ IsCont d)
      ∨ (a.toNat = 0xF4 ∧ 0x80 ≤ b.toNat ∧ b.toNat ≤ 0x8F ∧ IsCont c ∧ IsCont d)
  | _ => False

/-- The commands that read IN_BUF (R72). -/
def Sys2Proof.Machine.inputCommands : List Instr := [.encm, .decm, .pad, .b64e, .b64d, .keyd]

/-- The commands that write OUT_BUF (R72). -/
def Sys2Proof.Machine.outputCommands : List Instr := [.encm, .decm, .pad, .b64e, .b64d, .genk]

/-- The little-endian word at byte offset `o` of a message, bytes beyond its end counting as zero (R86). -/
def Sys2Proof.Machine.wordAt (d : List Byte) (o : Nat) : Word :=
  le32 (d.getD o 0) (d.getD (o + 1) 0) (d.getD (o + 2) 0) (d.getD (o + 3) 0)

/-- Block `k` of a byte sequence: its bytes 8k to 8k + 7. -/
def Sys2Proof.Machine.blockAt (d : List Byte) (k : Nat) : List Byte := (d.drop (8 * k)).take 8

/-- The table of the all-zero key, which the worked examples of the rules use. -/
def Sys2Proof.Machine.zeroTable : Vector Word 26 := expand (Vector.replicate 16 0)

/-- The command `i` completes with the error code `c`, and writes nothing else (R163, R164). -/
def Sys2Proof.Machine.failsWith (i : Instr) (c : ErrCode) (s : State) : Prop :=
  exec i s = .next { s with errcode := c, pending := none, done := true }

/-- The command `i` stops at an unwritten byte of the buffer `b` (R12, R31). -/
def Sys2Proof.Machine.stopsAt (i : Instr) (b : Buf) (s : State) : Prop :=
  exec i s = .fault (.unwrittenBufferRead b)

/-! ## Command words -/

/-- R73: a word selects a command exactly when RSV = 0 and OPC is in the map; the encoder gives that word. -/
def Obligations.DecodeSelectsExactlyTheOpcodeMap : Prop :=
  (∀ (w : Word) (i : Instr), decode w = .ok i ↔
    w.extractLsb' 8 24 = 0 ∧ ((w.extractLsb' 0 8).toNat, i) ∈
      [(0x00, Instr.nop), (0x01, .expand), (0x02, .encb), (0x03, .decb), (0x04, .encm), (0x05, .decm), (0x06, .pad),
       (0x07, .b64e), (0x08, .b64d), (0x09, .keyd), (0x0A, .genk), (0x0B, .u8ck), (0x0C, .xfer)])
  ∧ (∀ (w : Word) (i : Instr), decode w = .ok i ↔ w = encode i)

/-- R74: every other word completes with ILLEGAL_CMD and changes no other state, and none but 0 acts as NOP. -/
def Obligations.IllegalWordsCompleteWithIllegalCmd : Prop :=
  (∀ w : Word, decode w = .ok .nop → w = 0)
  ∧ ∀ (s : State) (cw : Word) (rest : List Input), s.inputs = .engine :: rest → s.pending = some cw →
      (cw.extractLsb' 8 24 ≠ 0 ∨ 0x0D ≤ (cw.extractLsb' 0 8).toNat) →
      step s = .next { s with inputs := rest, errcode := .illegalCmd, pending := none, done := true }

/-- A few words of R73's table, and two that R74 refuses, each by its name. -/
def Obligations.SampleCommandWordsDecode : Prop :=
  decode 0x00000000 = .ok .nop ∧ decode 0x00000001 = .ok .expand ∧ decode 0x00000003 = .ok .decb
  ∧ decode 0x00000004 = .ok .encm ∧ decode 0x00000006 = .ok .pad ∧ decode 0x00000008 = .ok .b64d
  ∧ decode 0x0000000A = .ok .genk ∧ decode 0x0000000B = .ok .u8ck ∧ decode 0x0000000C = .ok .xfer
  ∧ decode 0x0000000D = .error .unassignedOpcode ∧ decode 0x00000102 = .error .reservedBits

/-! ## The step -/

/-- 20_memory.md §4, 60_exceptions.md §2: on the engine's turn, a pending word that decodes to `i` is completed as `i`; and the
same of a word placed by `withFetchWord`, which is the model's own (log entry 2). -/
def Obligations.StepRunsTheDecodedCommand : Prop :=
  (∀ (s : State) (cw : Word) (i : Instr), s.pending = some cw → decode cw = .ok i → i.wf = true →
    (s.inputs = [] → step s = exec i s)
    ∧ ∀ rest, s.inputs = .engine :: rest → step s = exec i { s with inputs := rest })
  ∧ ∀ (s : State) (nbits w : Nat) (i : Instr), decodeTableWord nbits w = some i →
      step (s.withFetchWord nbits w) = exec i { s with pending := some (BitVec.ofNat 32 (w % 2 ^ nbits)) }

/-- 20_memory.md §4, 70_reset_and_hazards.md §1: the inputs, the model's form of the free schedule (log entry 1), are taken in
order, one a step; the engine without a pending command is idle. -/
def Obligations.StepTakesInputsInOrder : Prop :=
  (∀ (s : State) (t : Txn) (rest : List Input), s.inputs = .host t :: rest →
    step s = transact t { s with inputs := rest })
  ∧ (∀ (s : State) (rest : List Input), s.inputs = .resetPin :: rest →
    step s = .next ({ s with inputs := rest } : State).resetAction)
  ∧ (∀ s : State, s.pending = none → s.inputs = [] → step s = .next s)
  ∧ ∀ (s : State) (rest : List Input), s.pending = none → s.inputs = .engine :: rest →
      step s = .next { s with inputs := rest }

/-! ## NOP -/

/-- R152: NOP completes with OK and writes nothing else; with IE = 1 it raises irq; STATUS 0x506 becomes 0x002. -/
def Obligations.NopCompletes : Prop :=
  encode .nop = 0x00000000
  ∧ (∀ s : State, exec .nop s = .next { s with errcode := .ok, pending := none, done := true })
  ∧ ∀ s t : State, exec .nop s = .next t →
      t.irq = s.ie ∧ (s.statusWord = 0x00000506 → t.statusWord = 0x00000002)

/-! ## Key schedule -/

/-- R101: EXPAND writes all 26 table words from the current key, sets TV, leaves the key, never fails, and is idempotent. -/
def Obligations.ExpandCompletes : Prop :=
  encode .expand = 0x00000001
  ∧ ∀ s : State, ∃ t : State,
    exec .expand s = .next t
    ∧ t = { s with subkey := expand (keyBytes s.key), tv := true, errcode := .ok, pending := none, done := true }
    ∧ exec .expand t = .next t
    ∧ (s.key = Vector.replicate 4 0 →
        t.subkey[0] = 0x9BBBD8C8 ∧ t.subkey[1] = 0x1A37F7FB ∧ t.subkey[25] = 0x65046380)

/-- R97: the seed table, in both of the rule's forms. -/
def Obligations.SeedTableIsArithmetic : Prop :=
  ∀ k : Vector Byte 16,
    (mixStart k).s[0] = 0xB7E15163
    ∧ (∀ (i : Nat) (h : i + 1 < 26), (mixStart k).s[i + 1] = (mixStart k).s[i] + 0x9E3779B9)
    ∧ ∀ (i : Nat) (h : i < 26), (mixStart k).s[i] = 0xB7E15163 + BitVec.ofNat 32 i * 0x9E3779B9

/-- R99: 78 passes, whatever the key; the visits of each index, and where the indices end. -/
def Obligations.MixingScheduleIsFixed : Prop :=
  (∀ k : Vector Byte 16, expand k = (mixPasses 78 (mixStart k)).s)
  ∧ (∀ (k : Vector Byte 16) (x : Fin 26),
      ((List.range 78).filter fun n => (mixPasses n (mixStart k)).i == x).length = 3)
  ∧ (∀ (k : Vector Byte 16) (x : Fin 4),
      ((List.range 78).filter fun n => (mixPasses n (mixStart k)).j == x).length = if x.val < 2 then 20 else 19)
  ∧ ∀ k : Vector Byte 16, (mixPasses 78 (mixStart k)).i = 0 ∧ (mixPasses 78 (mixStart k)).j = 2

/-- 10_state.md §3, 41_key_schedule.md §1: the key's byte view and its words are inverse to each other. -/
def Obligations.KeyBytesAndWordsAgree : Prop :=
  (∀ key : Vector Word 4, keyWords (keyBytes key) = key)
  ∧ (∀ k : Vector Byte 16, keyBytes (keyWords k) = k)
  ∧ ∀ (key : Vector Word 4) (j k : Nat) (hj : j < 4) (hk : k < 4),
      (keyBytes key)[4 * j + k] = key[j].extractLsb' (8 * k) 8

/-! ## Block transform -/

/-- R114: encryptBlock and decryptBlock are inverse to each other, in both orders, for every table. -/
def Obligations.BlockTransformRoundTrips : Prop :=
  ∀ (S : Vector Word 26) (a b : Word),
    decryptBlock S (encryptBlock S a b).1 (encryptBlock S a b).2 = (a, b)
    ∧ encryptBlock S (decryptBlock S a b).1 (decryptBlock S a b).2 = (a, b)

/-- R115, R116: with TV = 1, ENCB and DECB replace the block register pair and nothing else, and DECB after ENCB restores the
pair; with TV = 0 they report NO_TABLE. -/
def Obligations.BlockCommandsComplete : Prop :=
  encode .encb = 0x00000002 ∧ encode .decb = 0x00000003
  ∧ (∀ s : State, s.tv = true →
    exec .encb s = .next { s with
      blkA := (encryptBlock s.subkey s.blkA s.blkB).1, blkB := (encryptBlock s.subkey s.blkA s.blkB).2,
      errcode := .ok, pending := none, done := true })
  ∧ (∀ s : State, s.tv = true →
    exec .decb s = .next { s with
      blkA := (decryptBlock s.subkey s.blkA s.blkB).1, blkB := (decryptBlock s.subkey s.blkA s.blkB).2,
      errcode := .ok, pending := none, done := true })
  ∧ (∀ s : State, s.tv = false → failsWith .encb .noTable s ∧ failsWith .decb .noTable s)
  ∧ (∀ s t : State, s.tv = true → exec .encb s = .next t →
      exec .decb t = .next { s with errcode := .ok, pending := none, done := true })
  ∧ encryptBlock zeroTable 0 0 = (0xEEDBA521, 0x6D8F4B15)
  ∧ decryptBlock zeroTable 0xEEDBA521 0x6D8F4B15 = (0, 0)
  ∧ decryptBlock zeroTable 0 0 = (0x48E56C13, 0x9616F90F)

/-! ## Codec -/

/-- R86, R90: word k of a message is the little-endian word of its bytes 4k to 4k + 3, bytes beyond the end counting as zero;
and the four laws of the codec. -/
def Obligations.CodecLaws : Prop :=
  (∀ (d : List Byte) (k : Nat), k < 2 * ((d.length + 7) / 8) → (bytesToWords d)[k]? = some (wordAt d (4 * k)))
  ∧ (∀ d : List Byte, wordsToBytes (bytesToWords d) = d ++ List.replicate (8 * ((d.length + 7) / 8) - d.length) 0)
  ∧ (∀ ws : List Word, ws.length % 2 = 0 → bytesToWords (wordsToBytes ws) = ws)
  ∧ (∀ d : List Byte, (bytesToWords d).length = 2 * ((d.length + 7) / 8))
  ∧ bytesToWords [0x61] = [0x00000061, 0x00000000]
  ∧ bytesToWords [0x61, 0x00] = [0x00000061, 0x00000000]

/-- R91: PAD writes the message padded with zeros to whole blocks; a message longer than BUF_BYTES is LENGTH, and an unwritten
byte in it the model fault. -/
def Obligations.PadCompletes : Prop :=
  encode .pad = 0x00000006
  ∧ (∀ (s : State) (d : List Byte), s.inCount ≤ Config.bufBytes → s.inBuf.readBytes 0 s.inCount = some d →
    exec .pad s = .next { s with
      outBuf := s.outBuf.writeBytes 0 (d ++ List.replicate (8 * ((s.inCount + 7) / 8) - s.inCount) 0),
      outLen := BitVec.ofNat 32 (8 * ((s.inCount + 7) / 8)),
      errcode := .ok, pending := none, done := true })
  ∧ (∀ s : State, Config.bufBytes < s.inCount → failsWith .pad .length s)
  ∧ ∀ s : State, s.inCount ≤ Config.bufBytes → s.inBuf.readBytes 0 s.inCount = none → stopsAt .pad .inBuf s

/-! ## Messages -/

/-- R127: ENCM writes the encrypted message of the padded length; a message longer than BUF_BYTES is LENGTH, then TV = 0 is
NO_TABLE, and an unwritten byte in the message the model fault. -/
def Obligations.EncmCompletes : Prop :=
  encode .encm = 0x00000004
  ∧ (∀ (s : State) (d : List Byte), s.inCount ≤ Config.bufBytes → s.tv = true →
    s.inBuf.readBytes 0 s.inCount = some d →
    exec .encm s = .next { s with
      outBuf := s.outBuf.writeBytes 0 (encm d s.subkey),
      outLen := BitVec.ofNat 32 (8 * ((s.inCount + 7) / 8)),
      errcode := .ok, pending := none, done := true })
  ∧ (∀ s : State, Config.bufBytes < s.inCount → failsWith .encm .length s)
  ∧ (∀ s : State, s.inCount ≤ Config.bufBytes → s.tv = false → failsWith .encm .noTable s)
  ∧ (∀ s : State, s.inCount ≤ Config.bufBytes → s.tv = true → s.inBuf.readBytes 0 s.inCount = none →
      stopsAt .encm .inBuf s)
  ∧ encm [0x54, 0x45, 0x53, 0x54, 0x42, 0x4C, 0x4F, 0x4B] zeroTable
      = [0x01, 0xCD, 0x56, 0x57, 0x19, 0x2C, 0x49, 0x7A]
  ∧ ∀ (d : List Byte) (S : Vector Word 26) (j k : Nat), 8 * (j + 1) ≤ d.length → 8 * (k + 1) ≤ d.length →
      blockAt d j = blockAt d k → blockAt (encm d S) j = blockAt (encm d S) k

/-- R126: block k of the encrypted message is the transform of block k of the padded message, so equal blocks, in any
message and at any position, give equal blocks. -/
def Obligations.EncmWorksBlockByBlock : Prop :=
  (∀ (d : List Byte) (S : Vector Word 26), (encm d S).length = 8 * ((d.length + 7) / 8)
    ∧ ∀ k : Nat, k < (d.length + 7) / 8 →
      blockAt (encm d S) k =
        bytesLe (encryptBlock S (wordAt d (8 * k)) (wordAt d (8 * k + 4))).1
          ++ bytesLe (encryptBlock S (wordAt d (8 * k)) (wordAt d (8 * k + 4))).2)
  ∧ ∀ (d d' : List Byte) (S : Vector Word 26) (j k : Nat),
      j < (d.length + 7) / 8 → k < (d'.length + 7) / 8 →
      blockAt (padBlocks d) j = blockAt (padBlocks d') k → blockAt (encm d S) j = blockAt (encm d' S) k

/-- R129: DECM writes the decrypted message of the same length; it reports LENGTH, then NO_TABLE, then DECODE, reading no byte,
for a length that is no multiple of 8; an unwritten byte in the message is the model fault. -/
def Obligations.DecmCompletes : Prop :=
  encode .decm = 0x00000005
  ∧ (∀ (s : State) (d : List Byte), s.inCount ≤ Config.bufBytes → s.tv = true → s.inCount % 8 = 0 →
    s.inBuf.readBytes 0 s.inCount = some d →
    exec .decm s = .next { s with
      outBuf := s.outBuf.writeBytes 0 (decm d s.subkey), outLen := s.inLen,
      errcode := .ok, pending := none, done := true })
  ∧ (∀ s : State, Config.bufBytes < s.inCount → failsWith .decm .length s)
  ∧ (∀ s : State, s.inCount ≤ Config.bufBytes → s.tv = false → failsWith .decm .noTable s)
  ∧ (∀ s : State, s.inCount ≤ Config.bufBytes → s.tv = true → s.inCount % 8 ≠ 0 → failsWith .decm .decode s)
  ∧ (∀ s : State, s.inCount ≤ Config.bufBytes → s.tv = true → s.inCount % 8 = 0 →
      s.inBuf.readBytes 0 s.inCount = none → stopsAt .decm .inBuf s)
  ∧ decm [0x01, 0xCD, 0x56, 0x57, 0x19, 0x2C, 0x49, 0x7A] zeroTable
      = [0x54, 0x45, 0x53, 0x54, 0x42, 0x4C, 0x4F, 0x4B]

/-- R130: decrypting an encrypted message gives the message padded with zeros to whole blocks, so a message of whole blocks
comes back as it was. -/
def Obligations.MessageRoundTrip : Prop :=
  (∀ (d : List Byte) (S : Vector Word 26),
    decm (encm d S) S = d ++ List.replicate (8 * ((d.length + 7) / 8) - d.length) 0)
  ∧ (∀ (d : List Byte) (S : Vector Word 26), d.length % 8 = 0 → decm (encm d S) S = d)
  ∧ ∀ (d : List Byte) (S : Vector Word 26), d.length % 8 ≠ 0 →
      decm (encm d S) S = d ++ List.replicate (8 - d.length % 8) 0

/-! ## Transport encoding -/

/-- R136: the decoder accepts exactly the encoder's texts, and inverts it. -/
def Obligations.TransportRoundTrip : Prop :=
  (∀ d : List Byte, b64dec (b64enc d) = some d)
  ∧ ∀ t d : List Byte, b64dec t = some d → b64enc d = t

/-- R134: B64E writes the text of `4 * ceil(n / 3)` characters; it reports LENGTH if the message is longer than BUF_BYTES or
the text would not fit; an unwritten byte in the message is the model fault. -/
def Obligations.B64eCompletes : Prop :=
  encode .b64e = 0x00000007
  ∧ (∀ (s : State) (d : List Byte), s.inCount ≤ Config.bufBytes → 4 * ((s.inCount + 2) / 3) ≤ Config.bufBytes →
    s.inBuf.readBytes 0 s.inCount = some d →
    exec .b64e s = .next { s with
      outBuf := s.outBuf.writeBytes 0 (b64enc d), outLen := BitVec.ofNat 32 (4 * ((s.inCount + 2) / 3)),
      errcode := .ok, pending := none, done := true })
  ∧ (∀ s : State, Config.bufBytes < s.inCount → failsWith .b64e .length s)
  ∧ (∀ s : State, s.inCount ≤ Config.bufBytes → Config.bufBytes < 4 * ((s.inCount + 2) / 3) →
      failsWith .b64e .length s)
  ∧ (∀ s : State, s.inCount ≤ Config.bufBytes → 4 * ((s.inCount + 2) / 3) ≤ Config.bufBytes →
      s.inBuf.readBytes 0 s.inCount = none → stopsAt .b64e .inBuf s)
  ∧ (∀ d : List Byte, (∀ c ∈ b64enc d, c.toNat < 128)
      ∧ (d.length % 3 = 1 → (b64enc d).drop ((b64enc d).length - 2) = [0x3D, 0x3D])
      ∧ (d.length % 3 = 2 → (b64enc d).drop ((b64enc d).length - 1) = [0x3D]))
  ∧ b64enc [0x4B, 0x34, 0xB4, 0x18, 0x6F, 0x5B, 0x83, 0x6D]
      = [0x53, 0x7A, 0x53, 0x30, 0x47, 0x47, 0x39, 0x62, 0x67, 0x32, 0x30, 0x3D]

/-- R135: B64D writes the bytes of a valid text, which fit, and reports DECODE for any other; a text longer than BUF_BYTES is
LENGTH, and an unwritten byte in it the model fault. -/
def Obligations.B64dCompletes : Prop :=
  encode .b64d = 0x00000008
  ∧ (∀ (s : State) (t o : List Byte), s.inCount ≤ Config.bufBytes → s.inBuf.readBytes 0 s.inCount = some t →
    b64dec t = some o →
    4 * o.length ≤ 3 * s.inCount
    ∧ exec .b64d s = .next { s with
        outBuf := s.outBuf.writeBytes 0 o, outLen := BitVec.ofNat 32 o.length,
        errcode := .ok, pending := none, done := true })
  ∧ (∀ (s : State) (t : List Byte), s.inCount ≤ Config.bufBytes → s.inBuf.readBytes 0 s.inCount = some t →
      b64dec t = none → failsWith .b64d .decode s)
  ∧ (∀ s : State, Config.bufBytes < s.inCount → failsWith .b64d .length s)
  ∧ (∀ s : State, s.inCount ≤ Config.bufBytes → s.inBuf.readBytes 0 s.inCount = none → stopsAt .b64d .inBuf s)
  ∧ b64dec [0x53, 0x7A, 0x53, 0x30, 0x47, 0x47, 0x39, 0x62, 0x67, 0x32, 0x30, 0x3D]
      = some [0x4B, 0x34, 0xB4, 0x18, 0x6F, 0x5B, 0x83, 0x6D]
  ∧ b64dec [0x5A, 0x68, 0x3D, 0x3D] = none

/-! ## Keys as text -/

/-- R141: KEYD loads the 16 bytes of a valid key text and clears TV; any other text is KEY_FORMAT and leaves key and TV; a text
longer than BUF_BYTES is LENGTH, and an unwritten byte in it the model fault. -/
def Obligations.KeydCompletes : Prop :=
  encode .keyd = 0x00000009
  ∧ (∀ (s : State) (t o : List Byte), s.inCount ≤ Config.bufBytes → s.inBuf.readBytes 0 s.inCount = some t →
    b64dec t = some o → o.length = 16 →
    ∃ key : Vector Word 4, (keyBytes key).toList = o
      ∧ exec .keyd s = .next { s with key := key, tv := false, errcode := .ok, pending := none, done := true })
  ∧ (∀ (s : State) (t : List Byte), s.inCount ≤ Config.bufBytes → s.inBuf.readBytes 0 s.inCount = some t →
      (∀ o, b64dec t = some o → o.length ≠ 16) → failsWith .keyd .keyFormat s)
  ∧ (∀ s : State, Config.bufBytes < s.inCount → failsWith .keyd .length s)
  ∧ (∀ s : State, s.inCount ≤ Config.bufBytes → s.inBuf.readBytes 0 s.inCount = none → stopsAt .keyd .inBuf s)
  ∧ b64dec (List.replicate 22 0x41 ++ [0x3D, 0x3D]) = some (List.replicate 16 0)
  ∧ b64dec [0x73, 0x68, 0x6F, 0x72, 0x74] = none ∧ b64dec (List.replicate 4 0x41) = some [0, 0, 0]
  ∧ b64dec [] = some []

/-- 43_facade.md §4: GENK writes the 24 characters of the drawn bytes, a key text ending in `==`, or reports ENTROPY; the draw is
used up, and key and TV stay. The draw is an input, or past the inputs a free value (the model's choice, log entry 4). -/
def Obligations.GenkCompletes : Prop :=
  encode .genk = 0x0000000A
  ∧ (∀ (s : State) (r : Vector Byte 16), s.drawnEntropy = some r →
    (b64enc r.toList).length = 24 ∧ (b64enc r.toList).drop 22 = [0x3D, 0x3D] ∧ keydec (b64enc r.toList) = some r
    ∧ exec .genk s = .next { s with
        outBuf := s.outBuf.writeBytes 0 (b64enc r.toList), outLen := 24,
        entropy := s.afterEntropy.entropy, draws := s.afterEntropy.draws,
        errcode := .ok, pending := none, done := true })
  ∧ ∀ s : State, s.drawnEntropy = none →
      exec .genk s = .next { s with
        entropy := s.afterEntropy.entropy, draws := s.afterEntropy.draws,
        errcode := .entropy, pending := none, done := true }

/-- 43_facade.md §3, §4 and §6, 95_test_vectors.md §7: XFER then KEYD after a successful GENK succeeds and loads the drawn
bytes. -/
def Obligations.GenkThenXferThenKeydLoadsTheDraw : Prop :=
  ∀ (s : State) (r : Vector Byte 16), s.drawnEntropy = some r →
    ∃ t u v : State, exec .genk s = .next t ∧ exec .xfer t = .next u ∧ exec .keyd u = .next v
      ∧ v.errcode = .ok ∧ keyBytes v.key = r ∧ v.tv = false

/-! ## Text -/

/-- R148: a byte sequence is valid exactly when it is a concatenation of the table's sequences. -/
def Obligations.Utf8ValidIsTheTable : Prop :=
  ∀ d : List Byte, utf8Valid d = true ↔
    ∃ qs : List (List Byte), (∀ q ∈ qs, Utf8Sequence q) ∧ d = qs.flatten

/-- 43_facade.md §5: padding with zero bytes neither makes a text valid nor makes it invalid. -/
def Obligations.NulPaddingKeepsUtf8Validity : Prop :=
  ∀ (d : List Byte) (n : Nat), utf8Valid (d ++ List.replicate n 0) = utf8Valid d

/-- R149: U8CK reports OK for valid UTF-8 and ENCODING otherwise, and writes nothing else; an unwritten byte among those it
checks is the model fault. -/
def Obligations.U8ckCompletes : Prop :=
  encode .u8ck = 0x0000000B
  ∧ (∀ (s : State) (d : List Byte), s.outBuf.readBytes 0 s.outCount = some d → utf8Valid d = true →
    exec .u8ck s = .next { s with errcode := .ok, pending := none, done := true })
  ∧ (∀ (s : State) (d : List Byte), s.outBuf.readBytes 0 s.outCount = some d → utf8Valid d = false →
      failsWith .u8ck .encoding s)
  ∧ (∀ s : State, s.outBuf.readBytes 0 s.outCount = none → stopsAt .u8ck .outBuf s)
  ∧ utf8Valid [] = true ∧ utf8Valid [0x68, 0x65, 0x6C, 0x6C, 0x6F, 0, 0, 0] = true
  ∧ utf8Valid [0xC3, 0xA9, 0, 0, 0, 0, 0, 0] = true
  ∧ utf8Valid [0x13, 0x6C, 0xE5, 0x48, 0x0F, 0xF9, 0x16, 0x96] = false

/-! ## XFER -/

/-- R151: XFER copies the output to the input and the length with it; bytes of IN_BUF beyond it stay. Where the buffers are as
every step leaves them, it never fails. -/
def Obligations.XferCompletes : Prop :=
  encode .xfer = 0x0000000C
  ∧ (∀ (s : State) (d : List Byte), s.outBuf.readBytes 0 s.outCount = some d →
    exec .xfer s = .next { s with
      inBuf := s.inBuf.writeBytes 0 d, inLen := s.outLen, errcode := .ok, pending := none, done := true }
    ∧ ∀ a : Nat, (s.inBuf.writeBytes 0 d).read a = if a < s.outCount then s.outBuf.read a else s.inBuf.read a)
  ∧ ∀ s : State, s.BufInv → ∃ t : State, exec .xfer s = .next t ∧ t.errcode = .ok

/-! ## All commands -/

/-- 60_exceptions.md §2: the length of the input is checked first; then TV, which reports NO_TABLE where it is 0. Neither check
reads a byte, and neither command writes anything else. -/
def Obligations.LengthThenTableAreCheckedFirst : Prop :=
  (∀ (i : Instr) (s : State), i ∈ inputCommands → Config.bufBytes < s.inCount →
    failsWith i .length s)
  ∧ ∀ (i : Instr) (s : State), i ∈ [Instr.encb, .decb, .encm, .decm] → s.tv = false →
      (i = .encm ∨ i = .decm → s.inCount ≤ Config.bufBytes) → failsWith i .noTable s

/-- 60_exceptions.md §2: a command that completes with an error writes nothing but ERRCODE, DONE and BUSY (GENK's draw is an
input and is used up), and the next CMD write is issued as usual. -/
def Obligations.FailingCommandWritesNothing : Prop :=
  ∀ (i : Instr) (s t : State), exec i s = .next t → t.errcode ≠ .ok →
    t = { s with errcode := t.errcode, pending := none, done := true, entropy := t.entropy, draws := t.draws }
    ∧ (i ≠ .genk → t.entropy = s.entropy ∧ t.draws = s.draws)
    ∧ ∀ cw : Word, transact ⟨.write, 0x00C, .word, cw⟩ t =
        .next { t with pending := some cw, done := false, resp := some ⟨.ok, none⟩ }

/-- 60_exceptions.md §1: the codes a command completes with are those of the table, and none is above 7. -/
def Obligations.ErrorCodesAreTheTables : Prop :=
  ∀ (i : Instr) (s t : State), exec i s = .next t →
    t.errcode ∈ possibleCodes i ∧ t.errcode.code.toNat ≤ 7

/-- 60_exceptions.md §2: a completion empties PENDING, sets DONE, and writes neither OVR nor CTRL; the irq output is then
CTRL.IE. -/
def Obligations.CompletionSetsDone : Prop :=
  ∀ (i : Instr) (s t : State), exec i s = .next t →
    t.pending = none ∧ t.busy = false ∧ t.done = true ∧ t.ovr = s.ovr ∧ t.ie = s.ie ∧ t.irq = s.ie
    ∧ t.inputs = s.inputs ∧ t.resp = s.resp ∧ t.fault = s.fault

/-- 10_state.md §3 (unwritten bytes): a command answers, or stops at an unwritten byte of the message it reads. -/
def Obligations.CommandsAnswerOrReadUnwritten : Prop :=
  ∀ (i : Instr) (s : State),
    (∃ t, exec i s = .next t)
    ∨ (i ∈ inputCommands ∧ s.inBuf.readBytes 0 s.inCount = none
        ∧ exec i s = .fault (.unwrittenBufferRead .inBuf))
    ∨ (i ∈ [Instr.u8ck, .xfer] ∧ s.outBuf.readBytes 0 s.outCount = none
        ∧ exec i s = .fault (.unwrittenBufferRead .outBuf))

/-- 30_encoding.md §1 (the table of operands): a command writes only the state listed for it, besides STATUS. -/
def Obligations.CommandsWriteOnlyTheirOperands : Prop :=
  ∀ (i : Instr) (s t : State), exec i s = .next t →
    (i ∉ [Instr.encb, .decb] → t.blkA = s.blkA ∧ t.blkB = s.blkB)
    ∧ (i ≠ .keyd → t.key = s.key)
    ∧ (i ≠ .expand → t.subkey = s.subkey)
    ∧ (i ∉ [Instr.expand, .keyd] → t.tv = s.tv)
    ∧ (i ≠ .xfer → t.inLen = s.inLen ∧ ∀ a, t.inBuf.read a = s.inBuf.read a)
    ∧ (i ∉ outputCommands → t.outLen = s.outLen ∧ ∀ a, t.outBuf.read a = s.outBuf.read a)
    ∧ (i ≠ .genk → t.entropy = s.entropy ∧ t.draws = s.draws)

/-- 10_state.md §2 and §3, 40_codec.md §2, 43_facade.md §1, §2 and §4, 60_exceptions.md §2: a command that writes n bytes of
output writes OUT_BUF[0..n) and sets OUT_LEN to n, with n as its rule says; the
bytes from n on stay, and all of OUT_BUF stays when the command fails. -/
def Obligations.OutputLeavesTheRestOfOutBuf : Prop :=
  ∀ (i : Instr) (s t : State), i ∈ outputCommands → exec i s = .next t →
    (t.errcode ≠ .ok → t.outLen = s.outLen ∧ ∀ a, t.outBuf.read a = s.outBuf.read a)
    ∧ (t.errcode = .ok →
        (∃ d, t.outBuf.readBytes 0 t.outCount = some d)
        ∧ (∀ a, t.outCount ≤ a → t.outBuf.read a = s.outBuf.read a)
        ∧ (i = .encm ∨ i = .pad → t.outCount = 8 * ((s.inCount + 7) / 8))
        ∧ (i = .decm → t.outCount = s.inCount)
        ∧ (i = .b64e → t.outCount = 4 * ((s.inCount + 2) / 3))
        ∧ (i = .b64d → 4 * t.outCount ≤ 3 * s.inCount)
        ∧ (i = .genk → t.outCount = 24))

/-- 30_encoding.md §1 (the table of operands): only EXPAND reads the key; whatever the key, every other command does the
same. KEYD, which writes the key, gives one state whatever the old key where it succeeds, and keeps the old key where it
fails. -/
def Obligations.OnlyExpandReadsTheKey : Prop :=
  (∀ (i : Instr) (s : State) (k : Vector Word 4), i ≠ .expand → i ≠ .keyd →
    exec i { s with key := k } = mapNext (fun t => { t with key := k }) (exec i s))
  ∧ ∀ (s : State) (k : Vector Word 4),
      exec .keyd { s with key := k } =
        mapNext (fun t => if t.errcode = .ok then t else { t with key := k }) (exec .keyd s)

/-- 10_state.md §3: bytes of IN_BUF at or beyond IN_LEN are never read by a command. XFER, which writes IN_BUF, is left out. -/
def Obligations.InputBeyondInLenIsNotRead : Prop :=
  ∀ (i : Instr) (s : State) (m : Memory), i ≠ .xfer →
    (∀ a, a < s.inCount → m.read a = s.inBuf.read a) →
    exec i { s with inBuf := m } = mapNext (fun t => { t with inBuf := m }) (exec i s)

/-! ## Reset -/

/-- R37: the value of every item of state after the first reset, the reset input and a soft reset. The buffers after a reset with
a command in flight are the next statement's. -/
def Obligations.ResetValues : Prop :=
  (∀ s t : State,
    t = State.reset ∨ takeInput .resetPin s = .next t
      ∨ (∃ w : Word, w.getLsbD 1 = true ∧ transact ⟨.write, 0x004, .word, w⟩ s = .next t) →
    t.ie = false ∧ t.ctrlWord = 0 ∧ t.statusWord = 0 ∧ t.busy = false ∧ t.done = false ∧ t.err = false ∧ t.tv = false
    ∧ t.ovr = false ∧ t.errcode = .ok ∧ t.inLen = 0 ∧ t.outLen = 0 ∧ t.blkA = 0 ∧ t.blkB = 0
    ∧ (∀ j : Fin 4, t.key[j] = 0) ∧ (∀ i : Fin 26, t.subkey[i] = 0) ∧ t.pending = none ∧ t.irq = false
    ∧ transact ⟨.read, 0x000, .word, 0⟩ t = .next { t with resp := some ⟨.ok, some 0x0720100C⟩ })
  ∧ (∀ a : Nat, State.reset.inBuf.read a = none ∧ State.reset.outBuf.read a = none)
  ∧ ∀ s t : State, s.pending = none →
      takeInput .resetPin s = .next t
        ∨ (∃ w : Word, w.getLsbD 1 = true ∧ transact ⟨.write, 0x004, .word, w⟩ s = .next t) →
      t.inBuf = s.inBuf ∧ t.outBuf = s.outBuf

/-- 70_reset_and_hazards.md §1: a CTRL write with SRST = 1, busy or not, has the effects of the reset input; of a command in
flight the output buffer becomes unwritten, by the latched opcode, and nothing is reported. -/
def Obligations.SoftResetAbortsTheCommandInFlight : Prop :=
  (∀ (s : State) (w : Word), w.getLsbD 1 = true →
    transact ⟨.write, 0x004, .word, w⟩ s = .next { s.resetAction with resp := some ⟨.ok, none⟩ }
    ∧ takeInput .resetPin s = .next s.resetAction)
  ∧ (∀ s : State, s.resetAction.pending = none ∧ s.resetAction.done = false ∧ s.resetAction.errcode = .ok
      ∧ s.resetAction.irq = false)
  ∧ (∀ (s : State) (cw : Word) (i : Instr), s.pending = some cw → decode cw = .ok i →
    (i ∈ outputCommands →
      (∀ a, s.resetAction.outBuf.read a = none) ∧ s.resetAction.inBuf = s.inBuf)
    ∧ (i = .xfer → (∀ a, s.resetAction.inBuf.read a = none) ∧ s.resetAction.outBuf = s.outBuf)
    ∧ (i ∈ [Instr.nop, .expand, .encb, .decb, .keyd, .u8ck] →
      s.resetAction.inBuf = s.inBuf ∧ s.resetAction.outBuf = s.outBuf))
  ∧ ∀ (s : State) (cw : Word) (e : DecodeError), s.pending = some cw → decode cw = .error e →
      s.resetAction.inBuf = s.inBuf ∧ s.resetAction.outBuf = s.outBuf

/-! ## Invariants of the step -/

/-- The state after reset meets the invariants, and no fault is recorded in it. -/
def Obligations.ResetMeetsTheInvariants : Prop := State.reset.Inv ∧ State.reset.Clean

/-- 10_state.md §2 and §3, 43_facade.md §6: every step keeps the buffers in their canonical form and below BUF_BYTES, OUT_LEN ≤
BUF_BYTES, and the bytes below OUT_LEN written. -/
def Obligations.StepKeepsTheBuffersSound : Prop :=
  ∀ s t : State, s.BufInv → step s = .next t → t.BufInv

/-- 10_state.md §2 (the invariant of TV): every step keeps "TV = 1 implies S = expand(K)". -/
def Obligations.StepKeepsTheTableValid : Prop :=
  ∀ s t : State, s.TableInv → step s = .next t → t.TableInv

/-- 10_state.md §2 (DONE): every step keeps DONE at 0 while a command is pending. -/
def Obligations.StepKeepsDoneClearWhileBusy : Prop :=
  ∀ s t : State, s.BusyInv → step s = .next t → t.BusyInv

/-- R102: a step that changes the table, or sets TV, is the engine's turn that completes EXPAND on the current key, or takes
the reset input or a CTRL write with SRST = 1. -/
def Obligations.TableIsWrittenOnlyByExpandAndReset : Prop :=
  ∀ s t : State, step s = .next t →
    (t.subkey = s.subkey ∧ (t.tv = true → s.tv = true))
    ∨ ((s.inputs = [] ∨ ∃ rest, s.inputs = .engine :: rest) ∧ s.pending = some 0x00000001
        ∧ t.subkey = expand (keyBytes s.key) ∧ t.key = s.key ∧ t.tv = true ∧ t.errcode = .ok)
    ∨ (((∃ rest, s.inputs = .resetPin :: rest)
          ∨ ∃ w rest, s.inputs = .host ⟨.write, 0x004, .word, w⟩ :: rest ∧ w.getLsbD 1 = true)
        ∧ t.subkey = Vector.replicate 26 0 ∧ t.tv = false ∧ t.key = Vector.replicate 4 0)

/-! ## The host bus -/

/-- 20_memory.md §1: a misaligned or wrong-size access is answered ERR and has no effect on the engine. That the model records
BusError beside it, and that a recorded fault stays, is the spec's recommended reading (log entry 7). -/
def Obligations.BusErrorHasNoEffect : Prop :=
  (∀ (s : State) (t : Txn),
    (t.addr.toNat % t.size.bytes ≠ 0 ∨ (t.addr.toNat < 0x10000 ∧ t.size ≠ .word)) →
    transact t s = .next { s with
      resp := some ⟨.err, match t.kind with | .read => some 0 | .write => none⟩,
      fault := if s.fault = none then some .busError else s.fault })
  ∧ ∀ s t : State, step s = .next t → s.fault ≠ none → t.fault = s.fault

/-- R61: while busy, an aligned write of a fitting size to any offset but CTRL and STATUS is dropped and sets OVR; writes to
those two are accepted; a misaligned or wrong-size access does not set OVR. -/
def Obligations.BusyWritesAreDropped : Prop :=
  ∀ (s : State) (a : Addr) (z : BusSize) (w : Word), s.busy = true →
    ((⟨.write, a, z, w⟩ : Txn).wf = true → a ≠ 0x004 → a ≠ 0x008 →
      transact ⟨.write, a, z, w⟩ s = .next { s with ovr := true, resp := some ⟨.ok, none⟩ })
    ∧ (w.getLsbD 1 = false →
      transact ⟨.write, 0x004, .word, w⟩ s = .next { s with ie := w.getLsbD 0, resp := some ⟨.ok, none⟩ })
    ∧ (w.getLsbD 1 = true →
      transact ⟨.write, 0x004, .word, w⟩ s = .next { s.resetAction with resp := some ⟨.ok, none⟩ })
    ∧ transact ⟨.write, 0x008, .word, w⟩ s =
        .next { s with done := s.done && !w.getLsbD 1, ovr := s.ovr && !w.getLsbD 4, resp := some ⟨.ok, none⟩ }
    ∧ ((⟨.write, a, z, w⟩ : Txn).wf = false → ∃ t, transact ⟨.write, a, z, w⟩ s = .next t ∧ t.ovr = s.ovr)

/-- 20_memory.md §4 (reads while busy): while busy, ID, CTRL, STATUS, CMD, reserved offsets and window offsets from BUF_BYTES on
read as always; a read of any other register, or of a buffer byte, is a free value of the access size, written or not, and no
fault. That the free value is `Config.busyRead` at the count `draws`, which it moves on, is the model's choice (log entries 5
and 6). -/
def Obligations.BusyReadsAreDraws : Prop :=
  ∀ (s : State) (a : Addr) (z : BusSize) (w : Word), s.busy = true → (⟨.read, a, z, w⟩ : Txn).wf = true →
    (a = 0x000 → transact ⟨.read, a, z, w⟩ s = .next { s with resp := some ⟨.ok, some 0x0720100C⟩ })
    ∧ (a = 0x004 → transact ⟨.read, a, z, w⟩ s = .next { s with resp := some ⟨.ok, some s.ctrlWord⟩ })
    ∧ (a = 0x008 → transact ⟨.read, a, z, w⟩ s = .next { s with resp := some ⟨.ok, some s.statusWord⟩ })
    ∧ ((a = 0x00C ∨ (0x030 ≤ a.toNat ∧ a.toNat < 0x040) ∨ (0x0A8 ≤ a.toNat ∧ a.toNat < 0x10000)
        ∨ (0x10000 + Config.bufBytes ≤ a.toNat ∧ a.toNat < 0x20000) ∨ 0x20000 + Config.bufBytes ≤ a.toNat) →
      transact ⟨.read, a, z, w⟩ s = .next { s with resp := some ⟨.ok, some 0⟩ })
    ∧ (((0x010 ≤ a.toNat ∧ a.toNat < 0x030) ∨ (0x040 ≤ a.toNat ∧ a.toNat < 0x0A8)
        ∨ (0x10000 ≤ a.toNat ∧ a.toNat < 0x10000 + Config.bufBytes)
        ∨ (0x20000 ≤ a.toNat ∧ a.toNat < 0x20000 + Config.bufBytes)) →
      transact ⟨.read, a, z, w⟩ s = .next { s with
        draws := s.draws + 1, resp := some ⟨.ok, some (zextBytes z.bytes (Config.busyRead s.draws))⟩ })

/-- 20_memory.md §1 and §3, 10_state.md §2 and §3: what a read returns when the engine is not busy, at each offset that is no
buffer byte: the register there, with IE alone in CTRL, and 0 at reserved offsets, in the windows from BUF_BYTES on and above
them. -/
def Obligations.RegisterReadsReturnTheRegister : Prop :=
  (∀ s : State, s.ctrlWord.getLsbD 0 = s.ie ∧ s.ctrlWord.extractLsb' 1 31 = 0)
  ∧ (∀ (s : State) (a : Addr) (z : BusSize) (w : Word), s.busy = false → (⟨.read, a, z, w⟩ : Txn).wf = true →
      ((0x10000 + Config.bufBytes ≤ a.toNat ∧ a.toNat < 0x20000) ∨ 0x20000 + Config.bufBytes ≤ a.toNat) →
      transact ⟨.read, a, z, w⟩ s = .next { s with resp := some ⟨.ok, some 0⟩ })
  ∧ ∀ s : State, s.busy = false → ∀ (a : Addr) (v w : Word),
    ((a = 0x000 ∧ v = 0x0720100C) ∨ (a = 0x004 ∧ v = s.ctrlWord) ∨ (a = 0x008 ∧ v = s.statusWord)
      ∨ (a = 0x00C ∧ v = 0) ∨ (a = 0x010 ∧ v = s.inLen) ∨ (a = 0x014 ∧ v = s.outLen)
      ∨ (a = 0x018 ∧ v = s.blkA) ∨ (a = 0x01C ∧ v = s.blkB)
      ∨ (∃ j : Fin 4, a.toNat = 0x020 + 4 * j.val ∧ v = s.key[j])
      ∨ (∃ i : Fin 26, a.toNat = 0x040 + 4 * i.val ∧ v = s.subkey[i])
      ∨ (a.toNat % 4 = 0 ∧ 0x030 ≤ a.toNat ∧ a.toNat < 0x040 ∧ v = 0)
      ∨ (a.toNat % 4 = 0 ∧ 0x0A8 ≤ a.toNat ∧ a.toNat < 0x10000 ∧ v = 0)) →
    transact ⟨.read, a, .word, w⟩ s = .next { s with resp := some ⟨.ok, some v⟩ }

/-- 20_memory.md §3: no read has a side effect; only the answer, and while busy the count of free values, change. -/
def Obligations.ReadsHaveNoSideEffect : Prop :=
  ∀ (s t : State) (x : Txn), x.kind = .read → x.wf = true → transact x s = .next t →
    t = { s with resp := t.resp, draws := t.draws } ∧ (s.busy = false → t.draws = s.draws)

/-- 20_memory.md §3, 10_state.md §2 and §3: what a write does when the engine is not busy: IN_LEN, BLK_A and BLK_B take the
data, CTRL with SRST = 0 takes bit 0 as IE, KEYj takes the data and clears TV, and ID, OUT_LEN, SUBKEYi, reserved offsets, the
OUT_BUF window and offsets beyond the buffers ignore it. -/
def Obligations.RegisterWritesWhenIdle : Prop :=
  ∀ (s : State) (w : Word), s.busy = false →
    transact ⟨.write, 0x010, .word, w⟩ s = .next { s with inLen := w, resp := some ⟨.ok, none⟩ }
    ∧ transact ⟨.write, 0x018, .word, w⟩ s = .next { s with blkA := w, resp := some ⟨.ok, none⟩ }
    ∧ transact ⟨.write, 0x01C, .word, w⟩ s = .next { s with blkB := w, resp := some ⟨.ok, none⟩ }
    ∧ (w.getLsbD 1 = false →
        transact ⟨.write, 0x004, .word, w⟩ s = .next { s with ie := w.getLsbD 0, resp := some ⟨.ok, none⟩ })
    ∧ (∀ (a : Addr) (j : Fin 4), a.toNat = 0x020 + 4 * j.val →
        transact ⟨.write, a, .word, w⟩ s =
          .next { s with key := s.key.set j.val w, tv := false, resp := some ⟨.ok, none⟩ })
    ∧ ∀ (a : Addr) (z : BusSize), (⟨.write, a, z, w⟩ : Txn).wf = true →
        (a = 0x000 ∨ a = 0x014 ∨ (0x030 ≤ a.toNat ∧ a.toNat < 0x10000)
          ∨ (0x10000 + Config.bufBytes ≤ a.toNat ∧ a.toNat < 0x20000) ∨ 0x20000 ≤ a.toNat) →
        transact ⟨.write, a, z, w⟩ s = .next { s with resp := some ⟨.ok, none⟩ }

/-- R26: an accepted write to KEYj sets the register and clears TV, even where the value is the old one; a dropped one changes
neither. -/
def Obligations.KeyWriteClearsTableValid : Prop :=
  ∀ (s : State) (a : Addr) (j : Fin 4) (w : Word), a.toNat = 0x020 + 4 * j.val →
    ∃ t : State, transact ⟨.write, a, .word, w⟩ s = .next t
      ∧ (s.busy = false → t.key = s.key.set j.val w ∧ t.tv = false)
      ∧ (s.busy = true → t.key = s.key ∧ t.tv = s.tv)

/-- R76: an accepted CMD write latches the word and clears DONE, and leaves ERRCODE, TV and OVR; while busy it is lost and sets
OVR; and no host transaction but a soft reset takes an issued command back. -/
def Obligations.CmdWriteIssues : Prop :=
  (∀ (s t : State) (x : Txn), s.busy = true → transact x s = .next t →
    t.pending = s.pending ∨ (x.kind = .write ∧ x.addr = 0x004 ∧ x.wdata.getLsbD 1 = true))
  ∧ ∀ (s : State) (cw : Word),
    (s.busy = false → ∃ t : State, transact ⟨.write, 0x00C, .word, cw⟩ s = .next t
      ∧ t = { s with pending := some cw, done := false, resp := some ⟨.ok, none⟩ }
      ∧ t.busy = true ∧ t.irq = false ∧ t.errcode = s.errcode ∧ t.err = s.err ∧ t.tv = s.tv ∧ t.ovr = s.ovr)
    ∧ (s.busy = true →
      transact ⟨.write, 0x00C, .word, cw⟩ s = .next { s with ovr := true, resp := some ⟨.ok, none⟩ })

/-- 10_state.md §2: the fields of STATUS as read, and what a STATUS write clears, busy or not. -/
def Obligations.StatusFields : Prop :=
  (∀ s : State,
    s.statusWord.getLsbD 0 = s.busy ∧ s.statusWord.getLsbD 1 = s.done ∧ s.statusWord.getLsbD 2 = s.err
    ∧ s.statusWord.getLsbD 3 = s.tv ∧ s.statusWord.getLsbD 4 = s.ovr
    ∧ s.statusWord.extractLsb' 5 3 = 0 ∧ s.statusWord.extractLsb' 8 4 = s.errcode.code
    ∧ s.statusWord.extractLsb' 12 20 = 0
    ∧ (s.err = true ↔ s.errcode.code ≠ 0) ∧ (s.busy = true ↔ s.pending ≠ none)
    ∧ s.errcode.code.toNat ≤ 7
    ∧ transact ⟨.read, 0x008, .word, 0⟩ s = .next { s with resp := some ⟨.ok, some s.statusWord⟩ })
  ∧ ∀ (s : State) (w : Word),
      transact ⟨.write, 0x008, .word, w⟩ s = .next { s with
        done := if w.getLsbD 1 then false else s.done,
        ovr := if w.getLsbD 4 then false else s.ovr,
        resp := some ⟨.ok, none⟩ }

/-- R52, R55: when the engine is not busy, a window write stores its bytes little-endian and a window read assembles them, so a
4-byte read gives the same bits as four 1-byte reads; an unwritten byte is the model fault. -/
def Obligations.WindowAccessIsLittleEndian : Prop :=
  (∀ (s : State) (a : Addr) (z : BusSize) (w : Word) (o : Nat), s.busy = false → a.toNat = 0x10000 + o →
    o < Config.bufBytes → o % z.bytes = 0 →
    ∃ m : Memory, transact ⟨.write, a, z, w⟩ s = .next { s with inBuf := m, resp := some ⟨.ok, none⟩ }
      ∧ ∀ k : Nat, m.read k =
          if o ≤ k ∧ k < o + z.bytes then some (w.extractLsb' (8 * (k - o)) 8) else s.inBuf.read k)
  ∧ (∀ (s : State) (a : Addr) (z : BusSize) (o : Nat) (bs : List Byte), s.busy = false → a.toNat = 0x10000 + o →
    o < Config.bufBytes → o % z.bytes = 0 → s.inBuf.readBytes o z.bytes = some bs →
    ∃ v : Word, transact ⟨.read, a, z, 0⟩ s = .next { s with resp := some ⟨.ok, some v⟩ }
      ∧ ∀ k : Nat, k < 4 → v.extractLsb' (8 * k) 8 = bs.getD k 0)
  ∧ (∀ (s : State) (a : Addr) (z : BusSize) (o : Nat) (bs : List Byte), s.busy = false → a.toNat = 0x20000 + o →
    o < Config.bufBytes → o % z.bytes = 0 → s.outBuf.readBytes o z.bytes = some bs →
    ∃ v : Word, transact ⟨.read, a, z, 0⟩ s = .next { s with resp := some ⟨.ok, some v⟩ }
      ∧ ∀ k : Nat, k < 4 → v.extractLsb' (8 * k) 8 = bs.getD k 0)
  ∧ ∀ (s : State) (a : Addr) (z : BusSize) (o : Nat), s.busy = false → o < Config.bufBytes → o % z.bytes = 0 →
      (a.toNat = 0x10000 + o → s.inBuf.readBytes o z.bytes = none →
        transact ⟨.read, a, z, 0⟩ s = .fault (.unwrittenBufferRead .inBuf))
      ∧ (a.toNat = 0x20000 + o → s.outBuf.readBytes o z.bytes = none →
        transact ⟨.read, a, z, 0⟩ s = .fault (.unwrittenBufferRead .outBuf))

/-- R167: the irq output is DONE and IE. It rises only at a completion with IE = 1, or when a CTRL write sets IE while DONE = 1;
it falls only by a STATUS write with bit 1, a CMD write, a CTRL write, or the reset input. -/
def Obligations.IrqRisesAndFallsByTheRule : Prop :=
  (∀ s : State, s.irq = true ↔ s.done = true ∧ s.ie = true)
  ∧ (∀ s t : State, engineTurn s = .next t → s.pending ≠ none → t.irq = s.ie)
  ∧ (∀ s t : State, step s = .next t → s.irq = false → t.irq = true →
    ((s.inputs = [] ∨ ∃ rest, s.inputs = .engine :: rest) ∧ s.pending ≠ none ∧ s.ie = true)
    ∨ ∃ z w rest, s.inputs = .host ⟨.write, 0x004, z, w⟩ :: rest ∧ w.getLsbD 0 = true ∧ s.done = true)
  ∧ ∀ s t : State, step s = .next t → s.irq = true → t.irq = false →
      (∃ z w rest, s.inputs = .host ⟨.write, 0x008, z, w⟩ :: rest ∧ w.getLsbD 1 = true)
      ∨ (∃ z w rest, s.inputs = .host ⟨.write, 0x00C, z, w⟩ :: rest ∧ t.pending = some w)
      ∨ (∃ z w rest, s.inputs = .host ⟨.write, 0x004, z, w⟩ :: rest
          ∧ (w.getLsbD 0 = false ∨ w.getLsbD 1 = true))
      ∨ ∃ rest, s.inputs = .resetPin :: rest

/-- 20_memory.md §3 and §4: while a command is pending, no host transaction but a soft reset changes the command or anything it
reads. -/
def Obligations.OperandsAreFixedWhilePending : Prop :=
  ∀ (s t : State) (x : Txn), s.busy = true → transact x s = .next t →
    (t.pending = s.pending ∧ t.key = s.key ∧ t.subkey = s.subkey ∧ t.tv = s.tv ∧ t.blkA = s.blkA ∧ t.blkB = s.blkB
      ∧ t.inLen = s.inLen ∧ t.outLen = s.outLen ∧ t.inBuf = s.inBuf ∧ t.outBuf = s.outBuf)
    ∨ (x.kind = .write ∧ x.addr = 0x004 ∧ x.wdata.getLsbD 1 = true)

/-- 70_reset_and_hazards.md §3, 20_memory.md §1, §3 and §4: a host that keeps its duties is never stopped, is answered OK, sets
no OVR and records no fault. Which duties count is the model's choice (log entry 26). -/
def Obligations.DutifulHostIsSafe : Prop :=
  ∀ (s : State) (x : Txn), dutiful x s = true →
    ∃ t v, transact x s = .next t ∧ t.resp = some ⟨.ok, v⟩ ∧ (s.ovr = false → t.ovr = false) ∧ t.fault = s.fault

/-- 20_memory.md §4 (weak fairness): once the inputs are used up and one more step taken, no command is pending. -/
def Obligations.PendingCommandCompletes : Prop :=
  ∀ s t : State, Host.Core.run Sys2Proof.core (s.inputs.length + 1) s = .next t → t.pending = none ∧ t.inputs = []

/-- 43_facade.md §1, §2, §3, §5 and §7: what `encrypt` returns, `decrypt` turns back into the text padded with zeros to whole
blocks; a text that is no key text is KEY_FORMAT in both. Both functions are for texts that fit the buffers and leave LENGTH out
(the model's choice, log entry 20): of a key text longer than BUF_BYTES the engine's KEYD reports LENGTH. -/
def Obligations.EncryptThenDecryptReturnsThePaddedText : Prop :=
  (∀ keyText plain c : List Byte, utf8Valid plain = true → encryptText keyText plain = .ok c →
    decryptText keyText c = .ok (plain ++ List.replicate (8 * ((plain.length + 7) / 8) - plain.length) 0))
  ∧ ∀ keyText x : List Byte, keydec keyText = none →
      encryptText keyText x = .error .keyFormat ∧ decryptText keyText x = .error .keyFormat
end

