-- ==== Sys2Proof/Laws/Bits.lean ====
section
/-! SUPPORT. Rotations, byte order and bit fields: one law per helper. -/

namespace Sys2Proof.Machine

/-- A byte has no bit at or above 8. -/
theorem byte_bit_ge {b : Byte} {k : Nat} (h : 8 ≤ k) : b.getLsbD k = false := BitVec.getLsbD_of_ge b k h

/-- The bits of `le32`: eight of each byte, the first byte lowest (R11). -/
theorem le32_bit (b0 b1 b2 b3 : Byte) (k : Nat) :
    (le32 b0 b1 b2 b3).getLsbD k =
      if k < 8 then b0.getLsbD k else if k < 16 then b1.getLsbD (k - 8)
      else if k < 24 then b2.getLsbD (k - 16) else b3.getLsbD (k - 24) := by
  simp only [le32, BitVec.getLsbD_or, BitVec.getLsbD_shiftLeft, BitVec.getLsbD_setWidth]
  by_cases h8 : k < 8
  · simp [h8, show k < 16 by omega, show k < 24 by omega, show k < 32 by omega]
  · rw [byte_bit_ge (b := b0) (k := k) (by omega)]
    by_cases h16 : k < 16
    · simp [h8, h16, show k < 24 by omega, show k < 32 by omega]
      omega
    · rw [byte_bit_ge (b := b1) (k := k - 8) (by omega)]
      by_cases h24 : k < 24
      · simp [h8, h16, h24, show k < 32 by omega]
        omega
      · rw [byte_bit_ge (b := b2) (k := k - 16) (by omega)]
        by_cases h32 : k < 32
        · simp [h8, h16, h24, h32]
          omega
        · simp [h8, h16, h24, h32, byte_bit_ge (b := b3) (k := k - 24) (by omega)]

/-- `bytes_le(le32(b0, b1, b2, b3))` are the four bytes (R11). -/
@[simp] theorem bytesLe_le32 (b0 b1 b2 b3 : Byte) : bytesLe (le32 b0 b1 b2 b3) = [b0, b1, b2, b3] := by
  simp only [bytesLe, List.cons.injEq, and_true]
  refine ⟨?_, ?_, ?_, ?_⟩ <;> ext i hi <;>
    rw [BitVec.getElem_extractLsb', le32_bit, ← BitVec.getLsbD_eq_getElem]
  · rw [if_pos (by omega), Nat.zero_add]
  · simp [show ¬ 8 + i < 8 by omega, show 8 + i < 16 by omega]
  · simp [show ¬ 16 + i < 8 by omega, show ¬ 16 + i < 16 by omega, show 16 + i < 24 by omega]
  · simp [show ¬ 24 + i < 8 by omega, show ¬ 24 + i < 16 by omega, show ¬ 24 + i < 24 by omega]

/-- `le32` of a word's bytes is the word (R11). -/
@[simp] theorem le32_extract (w : Word) :
    le32 (w.extractLsb' 0 8) (w.extractLsb' 8 8) (w.extractLsb' 16 8) (w.extractLsb' 24 8) = w := by
  ext i hi
  rw [← BitVec.getLsbD_eq_getElem, ← BitVec.getLsbD_eq_getElem, le32_bit]
  simp only [BitVec.getLsbD_extractLsb']
  split
  · simp_all
  · split
    · simp [show i - 8 < 8 by omega, show 8 + (i - 8) = i by omega]
    · split
      · simp [show i - 16 < 8 by omega, show 16 + (i - 16) = i by omega]
      · simp [show i - 24 < 8 by omega, show 24 + (i - 24) = i by omega]

/-- `bytes_le` gives four bytes. -/
@[simp] theorem bytesLe_length (w : Word) : (bytesLe w).length = 4 := rfl

/-- The bytes of a 4-byte bus write are `bytes_le`. -/
theorem leBytes_four (w : Word) : leBytes 4 w = bytesLe w := rfl

@[simp] theorem leBytes_length (n : Nat) (w : Word) : (leBytes n w).length = n := by simp [leBytes]

/-- The read data of four bytes is their `le32` (R52, R53). -/
theorem leJoin_four (b0 b1 b2 b3 : Byte) : leJoin [b0, b1, b2, b3] = le32 b0 b1 b2 b3 := by
  have h0 (n : Nat) : (0 : Word) <<< n = 0 := BitVec.zero_shiftLeft n
  simp only [leJoin, le32, BitVec.shiftLeft_or_distrib, ← BitVec.shiftLeft_add, h0, BitVec.or_assoc]
  simp

/-- Rotation depends on the amount modulo 32 alone (R10). -/
theorem rotl_mod (x : Word) (n : Nat) : rotl x (n % 32) = rotl x n := by simp [rotl]

theorem rotr_mod (x : Word) (n : Nat) : rotr x (n % 32) = rotr x n := by simp [rotr]

/-- `rotl` is the rotation of bits to the left (R10). -/
theorem rotl_eq_rotateLeft (x : Word) (n : Nat) : rotl x n = x.rotateLeft n := by
  unfold rotl BitVec.rotateLeft BitVec.rotateLeftAux
  split
  case isTrue h => simp [h, BitVec.ushiftRight_eq_zero]
  case isFalse h => rfl

/-- `rotr` is the rotation of bits to the right (R10). -/
theorem rotr_eq_rotateRight (x : Word) (n : Nat) : rotr x n = x.rotateRight n := by
  unfold rotr BitVec.rotateRight BitVec.rotateRightAux
  split
  case isTrue h => simp [h, BitVec.shiftLeft_eq_zero]
  case isFalse h => rfl

/-- `rotr(rotl(x, n), n) = x` (R10). -/
@[simp] theorem rotr_rotl (x : Word) (n : Nat) : rotr (rotl x n) n = x := by
  rw [rotl_eq_rotateLeft, rotr_eq_rotateRight]
  have hn : n % 32 < 32 := Nat.mod_lt _ (by decide)
  ext i hi
  rw [BitVec.getElem_rotateRight]
  split
  case isTrue h =>
    rw [BitVec.getElem_rotateLeft, dif_neg (by omega)]
    congr 1
    omega
  case isFalse h =>
    rw [BitVec.getElem_rotateLeft, dif_pos (by omega)]
    congr 1
    omega

/-- `rotl(rotr(x, n), n) = x` (R10). -/
@[simp] theorem rotl_rotr (x : Word) (n : Nat) : rotl (rotr x n) n = x := by
  rw [rotl_eq_rotateLeft, rotr_eq_rotateRight]
  have hn : n % 32 < 32 := Nat.mod_lt _ (by decide)
  ext i hi
  rw [BitVec.getElem_rotateLeft]
  split
  case isTrue h =>
    rw [BitVec.getElem_rotateRight, dif_neg (by omega)]
    congr 1
    omega
  case isFalse h =>
    rw [BitVec.getElem_rotateRight, dif_pos (by omega)]
    congr 1
    omega

end Sys2Proof.Machine
end

