-- ==== Sys2Proof/Laws/Memory.lean ====
section
/-! SUPPORT. The laws of the buffers: read after write, ranges, and the canonical form that every operation keeps. -/

namespace Sys2Proof.Machine

/-- A read after a write: the byte written at its own offset, the old one elsewhere. -/
theorem Memory.read_write (m : Memory) (a k : Nat) (v : Byte) :
    (m.write a v).read k = if a = k then some v else m.read k := by
  induction m with
  | nil => simp [Memory.write, Memory.read]
  | cons c m ih =>
    obtain ⟨x, b⟩ := c
    unfold Memory.write
    split
    · rfl
    · split
      · subst x; by_cases h : a = k <;> simp [Memory.read, h]
      · by_cases hx : x = k
        · subst hx
          have : a ≠ x := by omega
          simp [Memory.read, this]
        · simp [Memory.read, hx, ih]

/-- The offsets listed after a write are the old ones and the one written. -/
theorem Memory.mem_write {m : Memory} {a : Nat} {v : Byte} {c : Host.Cell} (h : c ∈ m.write a v) :
    c.1 = a ∨ c ∈ m := by
  induction m with
  | nil => simp_all [Memory.write]
  | cons x m ih =>
    obtain ⟨k, b⟩ := x
    unfold Memory.write at h
    split at h
    · rcases List.mem_cons.1 h with rfl | h
      · exact .inl rfl
      · exact .inr h
    · split at h
      · rcases List.mem_cons.1 h with rfl | h
        · exact .inl rfl
        · exact .inr (List.mem_cons_of_mem _ h)
      · rcases List.mem_cons.1 h with rfl | h
        · exact .inr (List.mem_cons_self)
        · exact (ih h).imp_right (List.mem_cons_of_mem _)

/-- A write keeps the canonical form. -/
theorem Memory.write_wf {m : Memory} (h : m.wf) (a : Nat) (v : Byte) : (m.write a v).wf := by
  induction m with
  | nil => simp [Memory.write, Memory.wf]
  | cons c m ih =>
    obtain ⟨k, b⟩ := c
    rw [Memory.wf, List.pairwise_cons] at h
    unfold Memory.write Memory.wf
    split
    case isTrue hlt =>
      refine List.pairwise_cons.2 ⟨?_, List.pairwise_cons.2 h⟩
      intro c hc
      rcases List.mem_cons.1 hc with rfl | hc
      · exact hlt
      · exact Nat.lt_trans hlt (h.1 c hc)
    case isFalse hge =>
      split
      case isTrue heq => subst heq; exact List.pairwise_cons.2 ⟨h.1, h.2⟩
      case isFalse hne =>
        refine List.pairwise_cons.2 ⟨?_, ih h.2⟩
        intro c hc
        rcases Memory.mem_write hc with hc | hc
        · simp only [hc]; omega
        · exact h.1 c hc

/-- A write of bytes, read back: the new bytes in its range, the old ones outside it. -/
theorem Memory.read_writeBytes (d : List Byte) (m : Memory) (off k : Nat) :
    (m.writeBytes off d).read k = if off ≤ k ∧ k < off + d.length then d[k - off]? else m.read k := by
  induction d generalizing m off with
  | nil => simp only [Memory.writeBytes, List.length_nil]; split <;> first | omega | rfl
  | cons b d ih =>
    rw [Memory.writeBytes, ih, Memory.read_write]
    by_cases h0 : off = k
    · subst h0; simp
    · by_cases h1 : off + 1 ≤ k ∧ k < off + 1 + d.length
      · have h2 : off ≤ k ∧ k < off + (b :: d).length := by simp only [List.length_cons]; omega
        have h3 : k - off = (k - (off + 1)) + 1 := by omega
        rw [if_pos h1, if_pos h2, h3, List.getElem?_cons_succ]
      · have h2 : ¬ (off ≤ k ∧ k < off + (b :: d).length) := by simp only [List.length_cons]; omega
        rw [if_neg h1, if_neg h2, if_neg h0]

/-- A write of bytes keeps the canonical form. -/
theorem Memory.writeBytes_wf (d : List Byte) {m : Memory} (h : m.wf) (off : Nat) : (m.writeBytes off d).wf := by
  induction d generalizing m off with
  | nil => exact h
  | cons b d ih => exact ih (Memory.write_wf h off b) (off + 1)

/-- The offsets listed after a write of bytes are the old ones and those of its range. -/
theorem Memory.mem_writeBytes {d : List Byte} {m : Memory} {off : Nat} {c : Host.Cell}
    (h : c ∈ m.writeBytes off d) : (off ≤ c.1 ∧ c.1 < off + d.length) ∨ c ∈ m := by
  induction d generalizing m off with
  | nil => exact .inr h
  | cons b d ih =>
    simp only [List.length_cons]
    rcases ih (m := m.write off b) h with h | h
    · exact .inl (by omega)
    · rcases Memory.mem_write h with h | h
      · exact .inl (by omega)
      · exact .inr h

/-- A write of bytes below BUF_BYTES keeps a buffer sound. -/
theorem Memory.writeBytes_sound {m : Memory} (h : m.Sound) {off : Nat} {d : List Byte}
    (hd : off + d.length ≤ Config.bufBytes) : (m.writeBytes off d).Sound := by
  refine ⟨Memory.writeBytes_wf d h.1 off, fun c hc => ?_⟩
  rcases Memory.mem_writeBytes hc with hc | hc
  · omega
  · exact h.2 c hc

/-- The empty buffer is sound. -/
theorem Memory.nil_sound : Memory.Sound [] := ⟨List.Pairwise.nil, by simp⟩

/-- A range read answers just the bytes of the range, in order. -/
theorem Memory.readBytes_eq_some {m : Memory} {off n : Nat} {d : List Byte} :
    m.readBytes off n = some d ↔ d.length = n ∧ ∀ k, k < n → m.read (off + k) = d[k]? := by
  induction n generalizing off d with
  | zero =>
    constructor
    · rintro h
      obtain rfl : [] = d := by simpa [Memory.readBytes] using h
      simp
    · rintro ⟨h, -⟩
      obtain rfl := List.length_eq_zero_iff.1 h
      rfl
  | succ n ih =>
    unfold Memory.readBytes
    constructor
    · intro h
      split at h
      case h_1 b bs hb hbs =>
        obtain rfl : b :: bs = d := by simpa using h
        obtain ⟨hl, hr⟩ := ih.1 hbs
        refine ⟨by simp [hl], fun k hk => ?_⟩
        cases k with
        | zero => simpa using hb
        | succ k =>
          rw [List.getElem?_cons_succ, ← hr k (by omega)]
          congr 1
          omega
      case h_2 => cases h
    · rintro ⟨hl, hr⟩
      match d, hl with
      | b :: bs, hl =>
        have hb : m.read off = some b := by simpa using hr 0 (by omega)
        have hbs : m.readBytes (off + 1) n = some bs := by
          refine ih.2 ⟨by simpa using hl, fun k hk => ?_⟩
          have := hr (k + 1) (by omega)
          rw [List.getElem?_cons_succ] at this
          rw [← this]
          congr 1
          omega
        simp [hb, hbs]

/-- The length of what a range read answers. -/
theorem Memory.readBytes_length {m : Memory} {off n : Nat} {d : List Byte} (h : m.readBytes off n = some d) :
    d.length = n := (Memory.readBytes_eq_some.1 h).1

/-- A range read depends on the bytes of the range alone. -/
theorem Memory.readBytes_congr {m m' : Memory} {off n : Nat}
    (h : ∀ k, k < n → m.read (off + k) = m'.read (off + k)) : m.readBytes off n = m'.readBytes off n := by
  induction n generalizing off with
  | zero => rfl
  | succ n ih =>
    have h0 : m.read off = m'.read off := by simpa using h 0 (by omega)
    have hr : m.readBytes (off + 1) n = m'.readBytes (off + 1) n := by
      refine ih fun k hk => ?_
      have := h (k + 1) (by omega)
      have he : off + (k + 1) = off + 1 + k := by omega
      rwa [he] at this
    simp only [Memory.readBytes, h0, hr]

/-- A range read answers when every byte of the range holds a value. -/
theorem Memory.readBytes_isSome {m : Memory} {off n : Nat} (h : ∀ k, k < n → (m.read (off + k)).isSome) :
    (m.readBytes off n).isSome := by
  induction n generalizing off with
  | zero => rfl
  | succ n ih =>
    have h0 := h 0 (by omega)
    have hr : (m.readBytes (off + 1) n).isSome := by
      refine ih fun k hk => ?_
      have := h (k + 1) (by omega)
      have he : off + (k + 1) = off + 1 + k := by omega
      rwa [he] at this
    obtain ⟨b, hb⟩ := Option.isSome_iff_exists.1 h0
    obtain ⟨bs, hbs⟩ := Option.isSome_iff_exists.1 hr
    have hb' : m.read off = some b := by simpa using hb
    simp [Memory.readBytes, hb', hbs]

/-- What a write of bytes stored is read back whole. -/
theorem Memory.readBytes_writeBytes (m : Memory) (off : Nat) (d : List Byte) :
    (m.writeBytes off d).readBytes off d.length = some d := by
  refine Memory.readBytes_eq_some.2 ⟨rfl, fun k hk => ?_⟩
  rw [Memory.read_writeBytes, if_pos (by omega)]
  congr 1
  omega

end Sys2Proof.Machine
end

