-- ==== Sys2Proof/Laws/State.lean ====
section
/-! SUPPORT. For each named update of the state, what every field is after it. -/

namespace Sys2Proof.Machine

section FieldsAfterUpdates
variable (s : State)

@[simp] theorem complete_ie (c : ErrCode) : (s.complete c).ie = s.ie := rfl
@[simp] theorem complete_done (c : ErrCode) : (s.complete c).done = true := rfl
@[simp] theorem complete_tv (c : ErrCode) : (s.complete c).tv = s.tv := rfl
@[simp] theorem complete_ovr (c : ErrCode) : (s.complete c).ovr = s.ovr := rfl
@[simp] theorem complete_errcode (c : ErrCode) : (s.complete c).errcode = c := rfl
@[simp] theorem complete_pending (c : ErrCode) : (s.complete c).pending = none := rfl
@[simp] theorem complete_inLen (c : ErrCode) : (s.complete c).inLen = s.inLen := rfl
@[simp] theorem complete_outLen (c : ErrCode) : (s.complete c).outLen = s.outLen := rfl
@[simp] theorem complete_blkA (c : ErrCode) : (s.complete c).blkA = s.blkA := rfl
@[simp] theorem complete_blkB (c : ErrCode) : (s.complete c).blkB = s.blkB := rfl
@[simp] theorem complete_key (c : ErrCode) : (s.complete c).key = s.key := rfl
@[simp] theorem complete_subkey (c : ErrCode) : (s.complete c).subkey = s.subkey := rfl
@[simp] theorem complete_inBuf (c : ErrCode) : (s.complete c).inBuf = s.inBuf := rfl
@[simp] theorem complete_outBuf (c : ErrCode) : (s.complete c).outBuf = s.outBuf := rfl
@[simp] theorem complete_fault (c : ErrCode) : (s.complete c).fault = s.fault := rfl
@[simp] theorem complete_resp (c : ErrCode) : (s.complete c).resp = s.resp := rfl
@[simp] theorem complete_inputs (c : ErrCode) : (s.complete c).inputs = s.inputs := rfl
@[simp] theorem complete_entropy (c : ErrCode) : (s.complete c).entropy = s.entropy := rfl
@[simp] theorem complete_draws (c : ErrCode) : (s.complete c).draws = s.draws := rfl

@[simp] theorem issue_ie (cw : Word) : (s.issue cw).ie = s.ie := rfl
@[simp] theorem issue_done (cw : Word) : (s.issue cw).done = false := rfl
@[simp] theorem issue_tv (cw : Word) : (s.issue cw).tv = s.tv := rfl
@[simp] theorem issue_ovr (cw : Word) : (s.issue cw).ovr = s.ovr := rfl
@[simp] theorem issue_errcode (cw : Word) : (s.issue cw).errcode = s.errcode := rfl
@[simp] theorem issue_pending (cw : Word) : (s.issue cw).pending = some cw := rfl
@[simp] theorem issue_inLen (cw : Word) : (s.issue cw).inLen = s.inLen := rfl
@[simp] theorem issue_outLen (cw : Word) : (s.issue cw).outLen = s.outLen := rfl
@[simp] theorem issue_blkA (cw : Word) : (s.issue cw).blkA = s.blkA := rfl
@[simp] theorem issue_blkB (cw : Word) : (s.issue cw).blkB = s.blkB := rfl
@[simp] theorem issue_key (cw : Word) : (s.issue cw).key = s.key := rfl
@[simp] theorem issue_subkey (cw : Word) : (s.issue cw).subkey = s.subkey := rfl
@[simp] theorem issue_inBuf (cw : Word) : (s.issue cw).inBuf = s.inBuf := rfl
@[simp] theorem issue_outBuf (cw : Word) : (s.issue cw).outBuf = s.outBuf := rfl
@[simp] theorem issue_fault (cw : Word) : (s.issue cw).fault = s.fault := rfl
@[simp] theorem issue_resp (cw : Word) : (s.issue cw).resp = s.resp := rfl
@[simp] theorem issue_inputs (cw : Word) : (s.issue cw).inputs = s.inputs := rfl
@[simp] theorem issue_entropy (cw : Word) : (s.issue cw).entropy = s.entropy := rfl
@[simp] theorem issue_draws (cw : Word) : (s.issue cw).draws = s.draws := rfl

@[simp] theorem clearFlags_ie (w : Word) : (s.clearFlags w).ie = s.ie := rfl
@[simp] theorem clearFlags_done (w : Word) : (s.clearFlags w).done = (s.done && !w.getLsbD 1) := rfl
@[simp] theorem clearFlags_tv (w : Word) : (s.clearFlags w).tv = s.tv := rfl
@[simp] theorem clearFlags_ovr (w : Word) : (s.clearFlags w).ovr = (s.ovr && !w.getLsbD 4) := rfl
@[simp] theorem clearFlags_errcode (w : Word) : (s.clearFlags w).errcode = s.errcode := rfl
@[simp] theorem clearFlags_pending (w : Word) : (s.clearFlags w).pending = s.pending := rfl
@[simp] theorem clearFlags_inLen (w : Word) : (s.clearFlags w).inLen = s.inLen := rfl
@[simp] theorem clearFlags_outLen (w : Word) : (s.clearFlags w).outLen = s.outLen := rfl
@[simp] theorem clearFlags_blkA (w : Word) : (s.clearFlags w).blkA = s.blkA := rfl
@[simp] theorem clearFlags_blkB (w : Word) : (s.clearFlags w).blkB = s.blkB := rfl
@[simp] theorem clearFlags_key (w : Word) : (s.clearFlags w).key = s.key := rfl
@[simp] theorem clearFlags_subkey (w : Word) : (s.clearFlags w).subkey = s.subkey := rfl
@[simp] theorem clearFlags_inBuf (w : Word) : (s.clearFlags w).inBuf = s.inBuf := rfl
@[simp] theorem clearFlags_outBuf (w : Word) : (s.clearFlags w).outBuf = s.outBuf := rfl
@[simp] theorem clearFlags_fault (w : Word) : (s.clearFlags w).fault = s.fault := rfl
@[simp] theorem clearFlags_resp (w : Word) : (s.clearFlags w).resp = s.resp := rfl
@[simp] theorem clearFlags_inputs (w : Word) : (s.clearFlags w).inputs = s.inputs := rfl
@[simp] theorem clearFlags_entropy (w : Word) : (s.clearFlags w).entropy = s.entropy := rfl
@[simp] theorem clearFlags_draws (w : Word) : (s.clearFlags w).draws = s.draws := rfl

@[simp] theorem putOutput_ie (d : List Byte) : (s.putOutput d).ie = s.ie := rfl
@[simp] theorem putOutput_done (d : List Byte) : (s.putOutput d).done = s.done := rfl
@[simp] theorem putOutput_tv (d : List Byte) : (s.putOutput d).tv = s.tv := rfl
@[simp] theorem putOutput_ovr (d : List Byte) : (s.putOutput d).ovr = s.ovr := rfl
@[simp] theorem putOutput_errcode (d : List Byte) : (s.putOutput d).errcode = s.errcode := rfl
@[simp] theorem putOutput_pending (d : List Byte) : (s.putOutput d).pending = s.pending := rfl
@[simp] theorem putOutput_inLen (d : List Byte) : (s.putOutput d).inLen = s.inLen := rfl
@[simp] theorem putOutput_outLen (d : List Byte) : (s.putOutput d).outLen = BitVec.ofNat 32 d.length := rfl
@[simp] theorem putOutput_blkA (d : List Byte) : (s.putOutput d).blkA = s.blkA := rfl
@[simp] theorem putOutput_blkB (d : List Byte) : (s.putOutput d).blkB = s.blkB := rfl
@[simp] theorem putOutput_key (d : List Byte) : (s.putOutput d).key = s.key := rfl
@[simp] theorem putOutput_subkey (d : List Byte) : (s.putOutput d).subkey = s.subkey := rfl
@[simp] theorem putOutput_inBuf (d : List Byte) : (s.putOutput d).inBuf = s.inBuf := rfl
@[simp] theorem putOutput_outBuf (d : List Byte) : (s.putOutput d).outBuf = s.outBuf.writeBytes 0 d := rfl
@[simp] theorem putOutput_fault (d : List Byte) : (s.putOutput d).fault = s.fault := rfl
@[simp] theorem putOutput_resp (d : List Byte) : (s.putOutput d).resp = s.resp := rfl
@[simp] theorem putOutput_inputs (d : List Byte) : (s.putOutput d).inputs = s.inputs := rfl
@[simp] theorem putOutput_entropy (d : List Byte) : (s.putOutput d).entropy = s.entropy := rfl
@[simp] theorem putOutput_draws (d : List Byte) : (s.putOutput d).draws = s.draws := rfl

@[simp] theorem putInput_ie (d : List Byte) : (s.putInput d).ie = s.ie := rfl
@[simp] theorem putInput_done (d : List Byte) : (s.putInput d).done = s.done := rfl
@[simp] theorem putInput_tv (d : List Byte) : (s.putInput d).tv = s.tv := rfl
@[simp] theorem putInput_ovr (d : List Byte) : (s.putInput d).ovr = s.ovr := rfl
@[simp] theorem putInput_errcode (d : List Byte) : (s.putInput d).errcode = s.errcode := rfl
@[simp] theorem putInput_pending (d : List Byte) : (s.putInput d).pending = s.pending := rfl
@[simp] theorem putInput_inLen (d : List Byte) : (s.putInput d).inLen = s.outLen := rfl
@[simp] theorem putInput_outLen (d : List Byte) : (s.putInput d).outLen = s.outLen := rfl
@[simp] theorem putInput_blkA (d : List Byte) : (s.putInput d).blkA = s.blkA := rfl
@[simp] theorem putInput_blkB (d : List Byte) : (s.putInput d).blkB = s.blkB := rfl
@[simp] theorem putInput_key (d : List Byte) : (s.putInput d).key = s.key := rfl
@[simp] theorem putInput_subkey (d : List Byte) : (s.putInput d).subkey = s.subkey := rfl
@[simp] theorem putInput_inBuf (d : List Byte) : (s.putInput d).inBuf = s.inBuf.writeBytes 0 d := rfl
@[simp] theorem putInput_outBuf (d : List Byte) : (s.putInput d).outBuf = s.outBuf := rfl
@[simp] theorem putInput_fault (d : List Byte) : (s.putInput d).fault = s.fault := rfl
@[simp] theorem putInput_resp (d : List Byte) : (s.putInput d).resp = s.resp := rfl
@[simp] theorem putInput_inputs (d : List Byte) : (s.putInput d).inputs = s.inputs := rfl
@[simp] theorem putInput_entropy (d : List Byte) : (s.putInput d).entropy = s.entropy := rfl
@[simp] theorem putInput_draws (d : List Byte) : (s.putInput d).draws = s.draws := rfl

@[simp] theorem putBlock_ie (ab : Word × Word) : (s.putBlock ab).ie = s.ie := rfl
@[simp] theorem putBlock_done (ab : Word × Word) : (s.putBlock ab).done = s.done := rfl
@[simp] theorem putBlock_tv (ab : Word × Word) : (s.putBlock ab).tv = s.tv := rfl
@[simp] theorem putBlock_ovr (ab : Word × Word) : (s.putBlock ab).ovr = s.ovr := rfl
@[simp] theorem putBlock_errcode (ab : Word × Word) : (s.putBlock ab).errcode = s.errcode := rfl
@[simp] theorem putBlock_pending (ab : Word × Word) : (s.putBlock ab).pending = s.pending := rfl
@[simp] theorem putBlock_inLen (ab : Word × Word) : (s.putBlock ab).inLen = s.inLen := rfl
@[simp] theorem putBlock_outLen (ab : Word × Word) : (s.putBlock ab).outLen = s.outLen := rfl
@[simp] theorem putBlock_blkA (ab : Word × Word) : (s.putBlock ab).blkA = ab.1 := rfl
@[simp] theorem putBlock_blkB (ab : Word × Word) : (s.putBlock ab).blkB = ab.2 := rfl
@[simp] theorem putBlock_key (ab : Word × Word) : (s.putBlock ab).key = s.key := rfl
@[simp] theorem putBlock_subkey (ab : Word × Word) : (s.putBlock ab).subkey = s.subkey := rfl
@[simp] theorem putBlock_inBuf (ab : Word × Word) : (s.putBlock ab).inBuf = s.inBuf := rfl
@[simp] theorem putBlock_outBuf (ab : Word × Word) : (s.putBlock ab).outBuf = s.outBuf := rfl
@[simp] theorem putBlock_fault (ab : Word × Word) : (s.putBlock ab).fault = s.fault := rfl
@[simp] theorem putBlock_resp (ab : Word × Word) : (s.putBlock ab).resp = s.resp := rfl
@[simp] theorem putBlock_inputs (ab : Word × Word) : (s.putBlock ab).inputs = s.inputs := rfl
@[simp] theorem putBlock_entropy (ab : Word × Word) : (s.putBlock ab).entropy = s.entropy := rfl
@[simp] theorem putBlock_draws (ab : Word × Word) : (s.putBlock ab).draws = s.draws := rfl

@[simp] theorem putTable_ie (t : Vector Word 26) : (s.putTable t).ie = s.ie := rfl
@[simp] theorem putTable_done (t : Vector Word 26) : (s.putTable t).done = s.done := rfl
@[simp] theorem putTable_tv (t : Vector Word 26) : (s.putTable t).tv = true := rfl
@[simp] theorem putTable_ovr (t : Vector Word 26) : (s.putTable t).ovr = s.ovr := rfl
@[simp] theorem putTable_errcode (t : Vector Word 26) : (s.putTable t).errcode = s.errcode := rfl
@[simp] theorem putTable_pending (t : Vector Word 26) : (s.putTable t).pending = s.pending := rfl
@[simp] theorem putTable_inLen (t : Vector Word 26) : (s.putTable t).inLen = s.inLen := rfl
@[simp] theorem putTable_outLen (t : Vector Word 26) : (s.putTable t).outLen = s.outLen := rfl
@[simp] theorem putTable_blkA (t : Vector Word 26) : (s.putTable t).blkA = s.blkA := rfl
@[simp] theorem putTable_blkB (t : Vector Word 26) : (s.putTable t).blkB = s.blkB := rfl
@[simp] theorem putTable_key (t : Vector Word 26) : (s.putTable t).key = s.key := rfl
@[simp] theorem putTable_subkey (t : Vector Word 26) : (s.putTable t).subkey = t := rfl
@[simp] theorem putTable_inBuf (t : Vector Word 26) : (s.putTable t).inBuf = s.inBuf := rfl
@[simp] theorem putTable_outBuf (t : Vector Word 26) : (s.putTable t).outBuf = s.outBuf := rfl
@[simp] theorem putTable_fault (t : Vector Word 26) : (s.putTable t).fault = s.fault := rfl
@[simp] theorem putTable_resp (t : Vector Word 26) : (s.putTable t).resp = s.resp := rfl
@[simp] theorem putTable_inputs (t : Vector Word 26) : (s.putTable t).inputs = s.inputs := rfl
@[simp] theorem putTable_entropy (t : Vector Word 26) : (s.putTable t).entropy = s.entropy := rfl
@[simp] theorem putTable_draws (t : Vector Word 26) : (s.putTable t).draws = s.draws := rfl

@[simp] theorem putKey_ie (k : Vector Word 4) : (s.putKey k).ie = s.ie := rfl
@[simp] theorem putKey_done (k : Vector Word 4) : (s.putKey k).done = s.done := rfl
@[simp] theorem putKey_tv (k : Vector Word 4) : (s.putKey k).tv = false := rfl
@[simp] theorem putKey_ovr (k : Vector Word 4) : (s.putKey k).ovr = s.ovr := rfl
@[simp] theorem putKey_errcode (k : Vector Word 4) : (s.putKey k).errcode = s.errcode := rfl
@[simp] theorem putKey_pending (k : Vector Word 4) : (s.putKey k).pending = s.pending := rfl
@[simp] theorem putKey_inLen (k : Vector Word 4) : (s.putKey k).inLen = s.inLen := rfl
@[simp] theorem putKey_outLen (k : Vector Word 4) : (s.putKey k).outLen = s.outLen := rfl
@[simp] theorem putKey_blkA (k : Vector Word 4) : (s.putKey k).blkA = s.blkA := rfl
@[simp] theorem putKey_blkB (k : Vector Word 4) : (s.putKey k).blkB = s.blkB := rfl
@[simp] theorem putKey_key (k : Vector Word 4) : (s.putKey k).key = k := rfl
@[simp] theorem putKey_subkey (k : Vector Word 4) : (s.putKey k).subkey = s.subkey := rfl
@[simp] theorem putKey_inBuf (k : Vector Word 4) : (s.putKey k).inBuf = s.inBuf := rfl
@[simp] theorem putKey_outBuf (k : Vector Word 4) : (s.putKey k).outBuf = s.outBuf := rfl
@[simp] theorem putKey_fault (k : Vector Word 4) : (s.putKey k).fault = s.fault := rfl
@[simp] theorem putKey_resp (k : Vector Word 4) : (s.putKey k).resp = s.resp := rfl
@[simp] theorem putKey_inputs (k : Vector Word 4) : (s.putKey k).inputs = s.inputs := rfl
@[simp] theorem putKey_entropy (k : Vector Word 4) : (s.putKey k).entropy = s.entropy := rfl
@[simp] theorem putKey_draws (k : Vector Word 4) : (s.putKey k).draws = s.draws := rfl

@[simp] theorem respond_ie (r : Response) : (s.respond r).ie = s.ie := rfl
@[simp] theorem respond_done (r : Response) : (s.respond r).done = s.done := rfl
@[simp] theorem respond_tv (r : Response) : (s.respond r).tv = s.tv := rfl
@[simp] theorem respond_ovr (r : Response) : (s.respond r).ovr = s.ovr := rfl
@[simp] theorem respond_errcode (r : Response) : (s.respond r).errcode = s.errcode := rfl
@[simp] theorem respond_pending (r : Response) : (s.respond r).pending = s.pending := rfl
@[simp] theorem respond_inLen (r : Response) : (s.respond r).inLen = s.inLen := rfl
@[simp] theorem respond_outLen (r : Response) : (s.respond r).outLen = s.outLen := rfl
@[simp] theorem respond_blkA (r : Response) : (s.respond r).blkA = s.blkA := rfl
@[simp] theorem respond_blkB (r : Response) : (s.respond r).blkB = s.blkB := rfl
@[simp] theorem respond_key (r : Response) : (s.respond r).key = s.key := rfl
@[simp] theorem respond_subkey (r : Response) : (s.respond r).subkey = s.subkey := rfl
@[simp] theorem respond_inBuf (r : Response) : (s.respond r).inBuf = s.inBuf := rfl
@[simp] theorem respond_outBuf (r : Response) : (s.respond r).outBuf = s.outBuf := rfl
@[simp] theorem respond_fault (r : Response) : (s.respond r).fault = s.fault := rfl
@[simp] theorem respond_resp (r : Response) : (s.respond r).resp = some r := rfl
@[simp] theorem respond_inputs (r : Response) : (s.respond r).inputs = s.inputs := rfl
@[simp] theorem respond_entropy (r : Response) : (s.respond r).entropy = s.entropy := rfl
@[simp] theorem respond_draws (r : Response) : (s.respond r).draws = s.draws := rfl

@[simp] theorem afterBusyRead_ie : (s.afterBusyRead).ie = s.ie := rfl
@[simp] theorem afterBusyRead_done : (s.afterBusyRead).done = s.done := rfl
@[simp] theorem afterBusyRead_tv : (s.afterBusyRead).tv = s.tv := rfl
@[simp] theorem afterBusyRead_ovr : (s.afterBusyRead).ovr = s.ovr := rfl
@[simp] theorem afterBusyRead_errcode : (s.afterBusyRead).errcode = s.errcode := rfl
@[simp] theorem afterBusyRead_pending : (s.afterBusyRead).pending = s.pending := rfl
@[simp] theorem afterBusyRead_inLen : (s.afterBusyRead).inLen = s.inLen := rfl
@[simp] theorem afterBusyRead_outLen : (s.afterBusyRead).outLen = s.outLen := rfl
@[simp] theorem afterBusyRead_blkA : (s.afterBusyRead).blkA = s.blkA := rfl
@[simp] theorem afterBusyRead_blkB : (s.afterBusyRead).blkB = s.blkB := rfl
@[simp] theorem afterBusyRead_key : (s.afterBusyRead).key = s.key := rfl
@[simp] theorem afterBusyRead_subkey : (s.afterBusyRead).subkey = s.subkey := rfl
@[simp] theorem afterBusyRead_inBuf : (s.afterBusyRead).inBuf = s.inBuf := rfl
@[simp] theorem afterBusyRead_outBuf : (s.afterBusyRead).outBuf = s.outBuf := rfl
@[simp] theorem afterBusyRead_fault : (s.afterBusyRead).fault = s.fault := rfl
@[simp] theorem afterBusyRead_resp : (s.afterBusyRead).resp = s.resp := rfl
@[simp] theorem afterBusyRead_inputs : (s.afterBusyRead).inputs = s.inputs := rfl
@[simp] theorem afterBusyRead_entropy : (s.afterBusyRead).entropy = s.entropy := rfl
@[simp] theorem afterBusyRead_draws : (s.afterBusyRead).draws = s.draws + 1 := rfl

@[simp] theorem busError_ie (k : BusKind) : (s.busError k).ie = s.ie := rfl
@[simp] theorem busError_done (k : BusKind) : (s.busError k).done = s.done := rfl
@[simp] theorem busError_tv (k : BusKind) : (s.busError k).tv = s.tv := rfl
@[simp] theorem busError_ovr (k : BusKind) : (s.busError k).ovr = s.ovr := rfl
@[simp] theorem busError_errcode (k : BusKind) : (s.busError k).errcode = s.errcode := rfl
@[simp] theorem busError_pending (k : BusKind) : (s.busError k).pending = s.pending := rfl
@[simp] theorem busError_inLen (k : BusKind) : (s.busError k).inLen = s.inLen := rfl
@[simp] theorem busError_outLen (k : BusKind) : (s.busError k).outLen = s.outLen := rfl
@[simp] theorem busError_blkA (k : BusKind) : (s.busError k).blkA = s.blkA := rfl
@[simp] theorem busError_blkB (k : BusKind) : (s.busError k).blkB = s.blkB := rfl
@[simp] theorem busError_key (k : BusKind) : (s.busError k).key = s.key := rfl
@[simp] theorem busError_subkey (k : BusKind) : (s.busError k).subkey = s.subkey := rfl
@[simp] theorem busError_inBuf (k : BusKind) : (s.busError k).inBuf = s.inBuf := rfl
@[simp] theorem busError_outBuf (k : BusKind) : (s.busError k).outBuf = s.outBuf := rfl
@[simp] theorem busError_fault (k : BusKind) : (s.busError k).fault = (if s.fault = none then some .busError else s.fault) := rfl
@[simp] theorem busError_resp (k : BusKind) : (s.busError k).resp = some ⟨.err, match k with | .read => some 0 | .write => none⟩ := rfl
@[simp] theorem busError_inputs (k : BusKind) : (s.busError k).inputs = s.inputs := rfl
@[simp] theorem busError_entropy (k : BusKind) : (s.busError k).entropy = s.entropy := rfl
@[simp] theorem busError_draws (k : BusKind) : (s.busError k).draws = s.draws := rfl

@[simp] theorem resetAction_ie : (s.resetAction).ie = false := rfl
@[simp] theorem resetAction_done : (s.resetAction).done = false := rfl
@[simp] theorem resetAction_tv : (s.resetAction).tv = false := rfl
@[simp] theorem resetAction_ovr : (s.resetAction).ovr = false := rfl
@[simp] theorem resetAction_errcode : (s.resetAction).errcode = .ok := rfl
@[simp] theorem resetAction_pending : (s.resetAction).pending = none := rfl
@[simp] theorem resetAction_inLen : (s.resetAction).inLen = 0 := rfl
@[simp] theorem resetAction_outLen : (s.resetAction).outLen = 0 := rfl
@[simp] theorem resetAction_blkA : (s.resetAction).blkA = 0 := rfl
@[simp] theorem resetAction_blkB : (s.resetAction).blkB = 0 := rfl
@[simp] theorem resetAction_key : (s.resetAction).key = Vector.replicate 4 0 := rfl
@[simp] theorem resetAction_subkey : (s.resetAction).subkey = Vector.replicate 26 0 := rfl
@[simp] theorem resetAction_inBuf : (s.resetAction).inBuf = (if s.abortTarget = some .inBuf then [] else s.inBuf) := rfl
@[simp] theorem resetAction_outBuf : (s.resetAction).outBuf = (if s.abortTarget = some .outBuf then [] else s.outBuf) := rfl
@[simp] theorem resetAction_fault : (s.resetAction).fault = s.fault := rfl
@[simp] theorem resetAction_resp : (s.resetAction).resp = s.resp := rfl
@[simp] theorem resetAction_inputs : (s.resetAction).inputs = s.inputs := rfl
@[simp] theorem resetAction_entropy : (s.resetAction).entropy = s.entropy := rfl
@[simp] theorem resetAction_draws : (s.resetAction).draws = s.draws := rfl

@[simp] theorem afterEntropy_ie : s.afterEntropy.ie = s.ie := by unfold State.afterEntropy; split <;> rfl
@[simp] theorem afterEntropy_done : s.afterEntropy.done = s.done := by unfold State.afterEntropy; split <;> rfl
@[simp] theorem afterEntropy_tv : s.afterEntropy.tv = s.tv := by unfold State.afterEntropy; split <;> rfl
@[simp] theorem afterEntropy_ovr : s.afterEntropy.ovr = s.ovr := by unfold State.afterEntropy; split <;> rfl
@[simp] theorem afterEntropy_errcode : s.afterEntropy.errcode = s.errcode := by unfold State.afterEntropy; split <;> rfl
@[simp] theorem afterEntropy_pending : s.afterEntropy.pending = s.pending := by unfold State.afterEntropy; split <;> rfl
@[simp] theorem afterEntropy_inLen : s.afterEntropy.inLen = s.inLen := by unfold State.afterEntropy; split <;> rfl
@[simp] theorem afterEntropy_outLen : s.afterEntropy.outLen = s.outLen := by unfold State.afterEntropy; split <;> rfl
@[simp] theorem afterEntropy_blkA : s.afterEntropy.blkA = s.blkA := by unfold State.afterEntropy; split <;> rfl
@[simp] theorem afterEntropy_blkB : s.afterEntropy.blkB = s.blkB := by unfold State.afterEntropy; split <;> rfl
@[simp] theorem afterEntropy_key : s.afterEntropy.key = s.key := by unfold State.afterEntropy; split <;> rfl
@[simp] theorem afterEntropy_subkey : s.afterEntropy.subkey = s.subkey := by unfold State.afterEntropy; split <;> rfl
@[simp] theorem afterEntropy_inBuf : s.afterEntropy.inBuf = s.inBuf := by unfold State.afterEntropy; split <;> rfl
@[simp] theorem afterEntropy_outBuf : s.afterEntropy.outBuf = s.outBuf := by unfold State.afterEntropy; split <;> rfl
@[simp] theorem afterEntropy_fault : s.afterEntropy.fault = s.fault := by unfold State.afterEntropy; split <;> rfl
@[simp] theorem afterEntropy_resp : s.afterEntropy.resp = s.resp := by unfold State.afterEntropy; split <;> rfl
@[simp] theorem afterEntropy_inputs : s.afterEntropy.inputs = s.inputs := by unfold State.afterEntropy; split <;> rfl

end FieldsAfterUpdates

section Completions
variable (s : State) (c : ErrCode)

/-- BUSY is 0 after a completion (R163). -/
@[simp] theorem complete_busy : (s.complete c).busy = false := rfl

/-- The interrupt line after a completion is CTRL.IE (R167). -/
@[simp] theorem complete_irq : (s.complete c).irq = s.ie := by simp [State.irq]

/-- BUSY is 1 after an issue (R76). -/
@[simp] theorem issue_busy (cw : Word) : (s.issue cw).busy = true := rfl

/-- The interrupt line drops at an issue (R76). -/
@[simp] theorem issue_irq (cw : Word) : (s.issue cw).irq = false := by simp [State.irq]

theorem raise_eq : raise c s = .next (s.complete c) := rfl
theorem succeed_eq : succeed s = .next (s.complete .ok) := rfl

end Completions

end Sys2Proof.Machine
end

