-- ==== Sys2Proof/Laws/Ops.lean ====
section
/-! SUPPORT. What each shared operation of the commands can answer, said once. -/

namespace Sys2Proof.Machine

/-- BUF_BYTES is a multiple of 8 between 24 and 65536 (R7). -/
theorem bufBytes_bounds : 24 ≤ Config.bufBytes ∧ Config.bufBytes ≤ 65536 ∧ Config.bufBytes % 8 = 0 := by
  have := Config.bufUnits.isLt
  unfold Config.bufBytes
  omega

/-- A length up to BUF_BYTES is its own 32-bit register value. -/
theorem ofNat_toNat_of_le {n : Nat} (h : n ≤ Config.bufBytes) : (BitVec.ofNat 32 n).toNat = n := by
  have := bufBytes_bounds
  rw [BitVec.toNat_ofNat]
  omega

/-- `checkInLen` answers LENGTH for an input longer than BUF_BYTES, and runs on otherwise. -/
theorem checkInLen_cases (s : State) (k : Result) :
    (Config.bufBytes < s.inCount ∧ checkInLen s k = .next (s.complete .length))
      ∨ (s.inCount ≤ Config.bufBytes ∧ checkInLen s k = k) := by
  unfold checkInLen
  by_cases h : Config.bufBytes < s.inCount
  · exact .inl ⟨h, if_pos h⟩
  · exact .inr ⟨by omega, if_neg h⟩

/-- `checkTable` answers NO_TABLE without a valid table, and runs on otherwise. -/
theorem checkTable_cases (s : State) (k : Result) :
    (s.tv = false ∧ checkTable s k = .next (s.complete .noTable)) ∨ (s.tv = true ∧ checkTable s k = k) := by
  unfold checkTable
  cases h : s.tv
  · exact .inl ⟨rfl, rfl⟩
  · exact .inr ⟨rfl, rfl⟩

/-- `withInput` runs on with the message in IN_BUF, or stops at an unwritten byte of it. -/
theorem withInput_cases (s : State) (k : List Byte → Result) :
    (s.input = none ∧ withInput s k = .fault (.unwrittenBufferRead .inBuf))
      ∨ ∃ d, s.input = some d ∧ d.length = s.inCount ∧ withInput s k = k d := by
  unfold withInput
  cases h : s.input with
  | none => exact .inl ⟨rfl, rfl⟩
  | some d => exact .inr ⟨d, rfl, Memory.readBytes_length h, rfl⟩

/-- `withOutput` runs on with the message in OUT_BUF, or stops at an unwritten byte of it. -/
theorem withOutput_cases (s : State) (k : List Byte → Result) :
    (s.output = none ∧ withOutput s k = .fault (.unwrittenBufferRead .outBuf))
      ∨ ∃ d, s.output = some d ∧ d.length = s.outCount ∧ withOutput s k = k d := by
  unfold withOutput
  cases h : s.output with
  | none => exact .inl ⟨rfl, rfl⟩
  | some d => exact .inr ⟨d, rfl, Memory.readBytes_length h, rfl⟩

/-- The buffer and the length after an output, when it fits: the bytes are there, the rest of OUT_BUF is as it was
(R30). -/
theorem putOutput_spec (s : State) {d : List Byte} (h : d.length ≤ Config.bufBytes) :
    (s.putOutput d).outCount = d.length ∧ (s.putOutput d).output = some d
      ∧ ∀ a, d.length ≤ a → (s.putOutput d).outBuf.read a = s.outBuf.read a := by
  have hc : (s.putOutput d).outCount = d.length := ofNat_toNat_of_le h
  refine ⟨hc, ?_, fun a ha => ?_⟩
  · unfold State.output
    rw [hc]
    exact Memory.readBytes_writeBytes s.outBuf 0 d
  · rw [putOutput_outBuf, Memory.read_writeBytes, if_neg (by omega)]

/-- XFER's writes: the bytes are in IN_BUF, the rest of it is as it was (R151). -/
theorem putInput_spec (s : State) {d : List Byte} (h : d.length = s.outCount) :
    (s.putInput d).inCount = s.outCount ∧ (s.putInput d).input = some d
      ∧ ∀ a, s.outCount ≤ a → (s.putInput d).inBuf.read a = s.inBuf.read a := by
  refine ⟨rfl, ?_, fun a ha => ?_⟩
  · show (s.inBuf.writeBytes 0 d).readBytes 0 s.outCount = some d
    rw [← h]
    exact Memory.readBytes_writeBytes s.inBuf 0 d
  · rw [putInput_inBuf, Memory.read_writeBytes, if_neg (by omega)]

/-- An entropy draw uses up an input and touches nothing else. -/
theorem afterEntropy_eq (s : State) :
    s.afterEntropy = { s with entropy := s.afterEntropy.entropy, draws := s.afterEntropy.draws } := by
  unfold State.afterEntropy
  split <;> rfl

/-- The reset values do not depend on what was in the registers (R37). -/
theorem resetAction_buffers_of_idle (s : State) (h : s.pending = none) :
    s.resetAction.inBuf = s.inBuf ∧ s.resetAction.outBuf = s.outBuf := by
  simp [State.abortTarget, h]

/-- A reset leaves a buffer as it was or wholly unwritten (R189). -/
theorem resetAction_inBuf_cases (s : State) : s.resetAction.inBuf = s.inBuf ∨ s.resetAction.inBuf = [] := by
  simp only [resetAction_inBuf]
  split <;> simp

theorem resetAction_outBuf_cases (s : State) : s.resetAction.outBuf = s.outBuf ∨ s.resetAction.outBuf = [] := by
  simp only [resetAction_outBuf]
  split <;> simp

end Sys2Proof.Machine
end

