-- ==== Sys2Proof/Laws/Bus.lean ====
section
/-! SUPPORT. Everything a host transaction, an input and a step can answer. -/

namespace Sys2Proof.Machine

/-- A host write answers OK and is dropped, or does what its target takes (R56, R61). -/
theorem hostWrite_cases (t : Txn) (s : State) :
    (s.busy = true ∧ (target t.addr).acceptedWhileBusy = false
        ∧ hostWrite t s = ({ s with ovr := true } : State).respond ⟨.ok, none⟩)
      ∨ ((s.busy = true → (target t.addr).acceptedWhileBusy = true)
        ∧ hostWrite t s = (s.writeTarget t.size.bytes t.wdata (target t.addr)).respond ⟨.ok, none⟩) := by
  unfold hostWrite
  cases hb : s.busy <;> cases ha : (target t.addr).acceptedWhileBusy <;> simp

/-- A host read that answers changes nothing but the answer and the draws (R58). -/
theorem hostRead_cases (t : Txn) (s : State) :
    (s.busy = true ∧ (target t.addr).drawnWhileBusy = true ∧ hostRead t s =
        .next (s.afterBusyRead.respond ⟨.ok, some (zextBytes t.size.bytes (Config.busyRead s.draws))⟩))
      ∨ ((s.busy = true → (target t.addr).drawnWhileBusy = false)
        ∧ ((∃ v, s.readTarget t.size.bytes (target t.addr) = .ok v ∧ hostRead t s = .next (s.respond ⟨.ok, some v⟩))
          ∨ ∃ f, s.readTarget t.size.bytes (target t.addr) = .error f ∧ hostRead t s = .fault f)) := by
  unfold hostRead
  cases hb : s.busy <;> cases ha : (target t.addr).drawnWhileBusy <;>
    cases hr : s.readTarget t.size.bytes (target t.addr) <;> simp

/-- A transaction is answered ERR, or read, or written (R46, R51). -/
theorem transact_cases (t : Txn) (s : State) :
    (t.wf = false ∧ transact t s = .next (s.busError t.kind))
      ∨ (t.wf = true ∧ t.kind = .read ∧ transact t s = hostRead t s)
      ∨ (t.wf = true ∧ t.kind = .write ∧ transact t s = .next (hostWrite t s)) := by
  unfold transact
  cases hw : t.wf <;> cases hk : t.kind <;> simp

/-- The engine's turn completes what is pending, and is idle otherwise (R59, R163). -/
theorem engineTurn_cases (s : State) :
    (s.pending = none ∧ engineTurn s = .next s)
      ∨ (∃ cw e, s.pending = some cw ∧ decode cw = .error e ∧ engineTurn s = .next (s.complete .illegalCmd))
      ∨ ∃ cw i, s.pending = some cw ∧ decode cw = .ok i ∧ engineTurn s = exec i s := by
  unfold engineTurn completeWord
  cases hp : s.pending with
  | none => exact .inl ⟨rfl, rfl⟩
  | some cw =>
    cases hd : decode cw with
    | error e => exact .inr (.inl ⟨cw, e, rfl, hd, by simp only [hd]; rfl⟩)
    | ok i => exact .inr (.inr ⟨cw, i, rfl, hd, by simp only [hd]⟩)

/-- A step takes the next input, or is the engine's turn (R59). -/
theorem step_cases (s : State) :
    (s.inputs = [] ∧ step s = engineTurn s)
      ∨ ∃ i rest, s.inputs = i :: rest ∧ step s = takeInput i { s with inputs := rest } := by
  unfold step advance
  cases h : s.inputs with
  | nil => exact .inl ⟨rfl, rfl⟩
  | cons i rest => exact .inr ⟨i, rest, rfl, rfl⟩

/-- A write below BUF_BYTES that is aligned ends below BUF_BYTES (R48). -/
theorem window_fits {o n : Nat} (ho : o < Config.bufBytes) (hn : n = 1 ∨ n = 2 ∨ n = 4) (ha : o % n = 0) :
    o + n ≤ Config.bufBytes := by
  have := bufBytes_bounds
  rcases hn with rfl | rfl | rfl <;> omega

/-- The sizes of an access (R46). -/
theorem bytes_cases (z : BusSize) : z.bytes = 1 ∨ z.bytes = 2 ∨ z.bytes = 4 := by
  cases z <;> simp [BusSize.bytes]

/-- What an IN_BUF target says of its address (R48). -/
theorem target_inBuf {a : Addr} {o : Nat} (h : target a = .inBuf o) :
    a.toNat = 0x10000 + o ∧ o < 0x10000 ∧ o < Config.bufBytes := by
  unfold target at h
  simp only at h
  split at h
  · unfold regTarget at h
    repeat' split at h
    all_goals cases h
  · split at h
    · split at h
      · have ho := Target.inBuf.inj h
        omega
      · cases h
    · split at h
      · split at h <;> cases h
      · cases h

/-- An aligned access of a word is one the engine performs, anywhere (R50, R51). -/
theorem word_wf {k : BusKind} {a : Addr} {w : Word} (h : a.toNat % 4 = 0) : (⟨k, a, .word, w⟩ : Txn).wf = true := by
  simp [Txn.wf, Txn.aligned, Txn.sizeOk, BusSize.bytes, h]

/-- An aligned access to a window is one the engine performs, in any size (R50, R51). -/
theorem window_wf {k : BusKind} {a : Addr} {z : BusSize} {w : Word} (ha : 0x10000 ≤ a.toNat)
    (h : a.toNat % z.bytes = 0) : (⟨k, a, z, w⟩ : Txn).wf = true := by
  simp [Txn.wf, Txn.aligned, Txn.sizeOk, h, ha]

/-- An accepted write does what its target takes (R56). -/
theorem transact_write {s : State} {a : Addr} {z : BusSize} {w : Word} (hw : (⟨.write, a, z, w⟩ : Txn).wf = true)
    (hb : s.busy = true → (target a).acceptedWhileBusy = true) :
    transact ⟨.write, a, z, w⟩ s = .next ((s.writeTarget z.bytes w (target a)).respond ⟨.ok, none⟩) := by
  rcases transact_cases ⟨.write, a, z, w⟩ s with ⟨h, _⟩ | ⟨_, h, _⟩ | ⟨_, _, h⟩
  · rw [h] at hw; cases hw
  · cases h
  · rcases hostWrite_cases ⟨.write, a, z, w⟩ s with ⟨h1, h2, _⟩ | ⟨_, h1⟩
    · rw [hb h1] at h2; cases h2
    · rw [h, h1]

/-- A dropped write sets OVR and nothing else (R61). -/
theorem transact_write_dropped {s : State} {a : Addr} {z : BusSize} {w : Word}
    (hw : (⟨.write, a, z, w⟩ : Txn).wf = true) (hb : s.busy = true) (ha : (target a).acceptedWhileBusy = false) :
    transact ⟨.write, a, z, w⟩ s = .next { s with ovr := true, resp := some ⟨.ok, none⟩ } := by
  rcases transact_cases ⟨.write, a, z, w⟩ s with ⟨h, _⟩ | ⟨_, h, _⟩ | ⟨_, _, h⟩
  · rw [h] at hw; cases hw
  · cases h
  · rcases hostWrite_cases ⟨.write, a, z, w⟩ s with ⟨_, _, h1⟩ | ⟨h1, _⟩
    · rw [h, h1]; rfl
    · rw [h1 hb] at ha; cases ha

/-- A read that is no draw answers what its target holds (R55, R56). -/
theorem transact_read {s : State} {a : Addr} {z : BusSize} {w v : Word} (hw : (⟨.read, a, z, w⟩ : Txn).wf = true)
    (hb : s.busy = true → (target a).drawnWhileBusy = false) (hv : s.readTarget z.bytes (target a) = .ok v) :
    transact ⟨.read, a, z, w⟩ s = .next { s with resp := some ⟨.ok, some v⟩ } := by
  rcases transact_cases ⟨.read, a, z, w⟩ s with ⟨h, _⟩ | ⟨_, _, h⟩ | ⟨_, h, _⟩
  · rw [h] at hw; cases hw
  · rcases hostRead_cases ⟨.read, a, z, w⟩ s with ⟨h1, h2, _⟩ | ⟨_, ⟨v', h1, h2⟩ | ⟨f, h1, _⟩⟩
    · rw [hb h1] at h2; cases h2
    · rw [hv] at h1; cases h1; rw [h, h2]; rfl
    · rw [hv] at h1; cases h1
  · cases h

/-- A read of result-bearing state while busy answers a free value (R62). -/
theorem transact_read_drawn {s : State} {a : Addr} {z : BusSize} {w : Word}
    (hw : (⟨.read, a, z, w⟩ : Txn).wf = true) (hb : s.busy = true) (ha : (target a).drawnWhileBusy = true) :
    transact ⟨.read, a, z, w⟩ s = .next { s with
      draws := s.draws + 1, resp := some ⟨.ok, some (zextBytes z.bytes (Config.busyRead s.draws))⟩ } := by
  rcases transact_cases ⟨.read, a, z, w⟩ s with ⟨h, _⟩ | ⟨_, _, h⟩ | ⟨_, h, _⟩
  · rw [h] at hw; cases hw
  · rcases hostRead_cases ⟨.read, a, z, w⟩ s with ⟨_, _, h1⟩ | ⟨h1, _⟩
    · rw [h, h1]; rfl
    · rw [h1 hb] at ha; cases ha
  · cases h

/-- What an address below the windows selects (R47, R49). -/
theorem target_reg {a : Addr} (h : a.toNat < 0x10000) : target a = regTarget a.toNat := if_pos h

/-- Only the offset 0x004 selects CTRL (R18). -/
theorem target_ctrl {a : Addr} (h : target a = .ctrl) : a = 0x004 := by
  unfold target at h
  simp only at h
  split at h
  · unfold regTarget at h
    repeat' split at h
    all_goals first | (cases h; done) | exact BitVec.eq_of_toNat_eq (by assumption)
  · repeat' split at h
    all_goals cases h

/-- The offset of KEYj (R25). -/
theorem target_key {a : Addr} {j : Fin 4} (h : a.toNat = 0x020 + 4 * j.val) : target a = .key j := by
  rw [target_reg (by omega), regTarget]
  repeat' rw [if_neg (by omega)]
  rw [dif_pos (by omega)]
  congr 1
  apply Fin.ext
  simp only
  omega

/-- The offset of SUBKEYi (R27). -/
theorem target_subkey {a : Addr} {i : Fin 26} (h : a.toNat = 0x040 + 4 * i.val) : target a = .subkey i := by
  rw [target_reg (by omega), regTarget]
  repeat' rw [if_neg (by omega)]
  rw [dif_neg (by omega), dif_pos (by omega)]
  congr 1
  apply Fin.ext
  simp only
  omega

/-- The reserved register offsets (R49). -/
theorem target_reserved {a : Addr}
    (h : (0x030 ≤ a.toNat ∧ a.toNat < 0x040) ∨ (0x0A8 ≤ a.toNat ∧ a.toNat < 0x10000)) : target a = .reserved := by
  rw [target_reg (by omega), regTarget]
  repeat' rw [if_neg (by omega)]
  repeat' rw [dif_neg (by omega)]

/-- What an address in the IN_BUF window selects (R48). -/
theorem target_inWindow {a : Addr} {o : Nat} (ha : a.toNat = 0x10000 + o) (ho : o < Config.bufBytes) :
    target a = .inBuf o := by
  have := bufBytes_bounds
  unfold target
  simp only
  rw [if_neg (by omega), if_pos (by omega), if_pos (by omega), show a.toNat - 0x10000 = o by omega]

/-- What an address in the OUT_BUF window selects (R48). -/
theorem target_outWindow {a : Addr} {o : Nat} (ha : a.toNat = 0x20000 + o) (ho : o < Config.bufBytes) :
    target a = .outBuf o := by
  have := bufBytes_bounds
  unfold target
  simp only
  rw [if_neg (by omega), if_neg (by omega), if_pos (by omega), if_pos (by omega),
    show a.toNat - 0x20000 = o by omega]

/-- An address beyond both buffers selects nothing (R47, R48). -/
theorem target_raz {a : Addr} (h : (0x10000 + Config.bufBytes ≤ a.toNat ∧ a.toNat < 0x20000)
    ∨ 0x20000 + Config.bufBytes ≤ a.toNat) : target a = .raz := by
  have := bufBytes_bounds
  unfold target
  simp only
  rw [if_neg (by omega)]
  split
  · rw [if_neg (by omega)]
  · split
    · rw [if_neg (by omega)]
    · rfl

/-- A run of one more step is that step and then the run from where it leads. -/
theorem run_next {s t : State} (n : Nat) (h : step s = .next t) :
    Host.Core.run Sys2Proof.core (n + 1) s = Host.Core.run Sys2Proof.core n t := by
  have h : Sys2Proof.core.step s = .next t := h
  simp [Host.Core.run, h]

/-- A run that answers a next state took a first step that did. -/
theorem run_first {s t : State} {n : Nat} (h : Host.Core.run Sys2Proof.core (n + 1) s = .next t) :
    ∃ s' : State, step s = .next s' ∧ Host.Core.run Sys2Proof.core n s' = .next t := by
  cases hs : step s with
  | next s' => exact ⟨s', rfl, run_next n hs ▸ h⟩
  | fault r =>
    have hs : Sys2Proof.core.step s = .fault r := hs
    simp [Host.Core.run, hs] at h
  | refused r =>
    have hs : Sys2Proof.core.step s = .refused r := hs
    simp [Host.Core.run, hs] at h

end Sys2Proof.Machine
end

