-- ==== Sys2Proof/Laws/Codec.lean ====
section
/-! SUPPORT. Lengths and list shapes of the codec and of the block-wise transforms. -/

namespace Sys2Proof.Machine

/-- `padlen` rounds up to whole blocks (R87). -/
theorem padlen_bounds (n : Nat) : n ≤ padlen n ∧ padlen n < n + 8 ∧ padlen n % 8 = 0 := by
  unfold padlen
  omega

/-- A padded message fits wherever the message does, since BUF_BYTES is a multiple of 8 (R91). -/
theorem padlen_le_bufBytes {n : Nat} (h : n ≤ Config.bufBytes) : padlen n ≤ Config.bufBytes := by
  have := bufBytes_bounds
  unfold padlen
  omega

/-- The padded message has `padlen` bytes (R86). -/
@[simp] theorem padBlocks_length (d : List Byte) : (padBlocks d).length = padlen d.length := by
  have := padlen_bounds d.length
  simp [padBlocks]
  omega

/-- Grouping takes a word of every four bytes. -/
@[simp] theorem groupWords_length : (d : List Byte) → (groupWords d).length = d.length / 4
  | [] => rfl
  | [_] => by simp [groupWords]
  | [_, _] => by simp [groupWords]
  | [_, _, _] => by simp [groupWords]
  | _ :: _ :: _ :: _ :: rest => by
    simp only [groupWords, List.length_cons, groupWords_length rest]
    omega

/-- Four bytes a word (R88). -/
@[simp] theorem wordsToBytes_length (ws : List Word) : (wordsToBytes ws).length = 4 * ws.length := by
  induction ws with
  | nil => rfl
  | cons w ws ih =>
    simp only [wordsToBytes, List.flatMap_cons, List.length_append, bytesLe_length, List.length_cons] at ih ⊢
    omega

/-- `wordsToBytes` word by word. -/
@[simp] theorem wordsToBytes_nil : wordsToBytes [] = [] := rfl

@[simp] theorem wordsToBytes_cons (w : Word) (ws : List Word) :
    wordsToBytes (w :: ws) = bytesLe w ++ wordsToBytes ws := rfl

/-- The block-wise transform keeps an even number of words. -/
theorem mapBlocks_length (f : Word → Word → Word × Word) :
    (ws : List Word) → ws.length % 2 = 0 → (mapBlocks f ws).length = ws.length
  | [], _ => rfl
  | [_], h => by simp at h
  | _ :: _ :: rest, h => by
    simp only [mapBlocks, List.length_cons]
    rw [mapBlocks_length f rest (by simp only [List.length_cons] at h; omega)]

/-- The words of a message: two a block (R90). -/
theorem bytesToWords_length (d : List Byte) : (bytesToWords d).length = 2 * ((d.length + 7) / 8) := by
  simp only [bytesToWords, groupWords_length, padBlocks_length, padlen]
  omega

/-- The encrypted message has the padded length (R126). -/
theorem encm_length (d : List Byte) (S : Vector Word 26) : (encm d S).length = padlen d.length := by
  rw [encm, wordsToBytes_length, mapBlocks_length _ _ (by rw [bytesToWords_length]; omega), bytesToWords_length]
  unfold padlen
  omega

/-- The decrypted message has the padded length, which is its own for whole blocks (R128). -/
theorem decm_length (d : List Byte) (S : Vector Word 26) : (decm d S).length = padlen d.length := by
  rw [decm, wordsToBytes_length, mapBlocks_length _ _ (by rw [bytesToWords_length]; omega), bytesToWords_length]
  unfold padlen
  omega

/-- The round-tripped codec has the padded length (R91). -/
theorem codec_length (d : List Byte) : (wordsToBytes (bytesToWords d)).length = padlen d.length := by
  rw [wordsToBytes_length, bytesToWords_length]
  unfold padlen
  omega

end Sys2Proof.Machine
end

