-- ==== Sys2Proof/Laws/Transport.lean ====
section
/-! SUPPORT. Lengths of the transport encoding and the shape of an accepted group. -/

namespace Sys2Proof.Machine

/-- The alphabet's inverse finds each of its 64 characters (R132). -/
@[simp] theorem alphInv_alph (v : BitVec 6) : alphInv (alph v) = some v := by
  revert v
  decide

/-- `=` is not a character of the alphabet (R132). -/
theorem alph_ne_pad (v : BitVec 6) : alph v ≠ padChar := by
  revert v
  decide

/-- The encoding of n bytes has `4 * ceil(n / 3)` characters (R132). -/
theorem b64enc_length : (d : List Byte) → (b64enc d).length = b64len d.length
  | [] => rfl
  | [_] => by simp [b64enc, b64len]
  | [_, _] => by simp [b64enc, b64len]
  | _ :: _ :: _ :: rest => by
    simp only [b64enc, List.length_cons, b64enc_length rest, b64len]
    omega

/-- An unpadded group gives three bytes. -/
theorem decodeQuad_length {c0 c1 c2 c3 : Byte} {o : List Byte} (h : decodeQuad c0 c1 c2 c3 = some o) :
    o.length = 3 := by
  unfold decodeQuad at h
  split at h
  · cases h; rfl
  · cases h

/-- The last group gives at most three bytes. -/
theorem decodeLast_length {c0 c1 c2 c3 : Byte} {o : List Byte} (h : decodeLast c0 c1 c2 c3 = some o) :
    o.length ≤ 3 := by
  unfold decodeLast at h
  split at h
  · split at h
    · simp only at h; split at h
      · cases h; simp
      · cases h
    · cases h
  · split at h
    · split at h
      · simp only at h; split at h
        · cases h; simp
        · cases h
      · cases h
    · exact Nat.le_of_eq (decodeQuad_length h)

/-- What is decoded is no longer than three quarters of the text (R135). -/
theorem b64dec_length : (t o : List Byte) → b64dec t = some o → 4 * o.length ≤ 3 * t.length
  | [], o, h => by cases h; simp
  | [_], _, h => by simp [b64dec] at h
  | [_, _], _, h => by simp [b64dec] at h
  | [_, _, _], _, h => by simp [b64dec] at h
  | [c0, c1, c2, c3], o, h => by
    have := decodeLast_length (o := o) (by simpa [b64dec] using h)
    simp
    omega
  | c0 :: c1 :: c2 :: c3 :: x :: rest, o, h => by
    rw [b64dec] at h
    · split at h
      case h_1 q bs hq hbs =>
        cases h
        have h1 := decodeQuad_length hq
        have h2 := b64dec_length (x :: rest) bs hbs
        simp only [List.length_append, List.length_cons] at *
        omega
      case h_2 => cases h
    · simp

/-- The bits of `join24`: eight of each byte, the last byte lowest. -/
theorem join24_bit (b0 b1 b2 : Byte) (k : Nat) :
    (join24 b0 b1 b2).getLsbD k =
      if k < 8 then b2.getLsbD k else if k < 16 then b1.getLsbD (k - 8) else b0.getLsbD (k - 16) := by
  have ge (b : Byte) {n : Nat} (h : 8 ≤ n) : b.getLsbD n = false := BitVec.getLsbD_of_ge b n h
  simp only [join24, BitVec.getLsbD_or, BitVec.getLsbD_shiftLeft, BitVec.getLsbD_setWidth]
  by_cases h8 : k < 8
  · simp [h8, show k < 16 by omega, show k < 24 by omega]
  · rw [ge b2 (n := k) (by omega)]
    by_cases h16 : k < 16
    · simp [h8, h16, show k < 24 by omega]
      omega
    · rw [ge b1 (n := k - 8) (by omega)]
      by_cases h24 : k < 24
      · simp [h8, h16, h24]
        omega
      · simp [h8, h16, h24, ge b0 (n := k - 16) (by omega)]

/-- The bits of `joinSextets`: six of each value, the last lowest. -/
theorem joinSextets_bit (v0 v1 v2 v3 : BitVec 6) (k : Nat) :
    (joinSextets v0 v1 v2 v3).getLsbD k =
      if k < 6 then v3.getLsbD k else if k < 12 then v2.getLsbD (k - 6)
      else if k < 18 then v1.getLsbD (k - 12) else v0.getLsbD (k - 18) := by
  have ge (b : BitVec 6) {n : Nat} (h : 6 ≤ n) : b.getLsbD n = false := BitVec.getLsbD_of_ge b n h
  simp only [joinSextets, BitVec.getLsbD_or, BitVec.getLsbD_shiftLeft, BitVec.getLsbD_setWidth]
  by_cases h6 : k < 6
  · simp [h6, show k < 12 by omega, show k < 18 by omega, show k < 24 by omega]
  · rw [ge v3 (n := k) (by omega)]
    by_cases h12 : k < 12
    · simp [h6, h12, show k < 18 by omega, show k < 24 by omega]
      omega
    · rw [ge v2 (n := k - 6) (by omega)]
      by_cases h18 : k < 18
      · simp [h6, h12, h18, show k < 24 by omega]
        omega
      · rw [ge v1 (n := k - 12) (by omega)]
        by_cases h24 : k < 24
        · simp [h6, h12, h18, h24]
          omega
        · simp [h6, h12, h18, h24, ge v0 (n := k - 18) (by omega)]

/-- The four sextets of a 24-bit value make it up again. -/
@[simp] theorem joinSextets_extract (x : BitVec 24) :
    joinSextets (x.extractLsb' 18 6) (x.extractLsb' 12 6) (x.extractLsb' 6 6) (x.extractLsb' 0 6) = x := by
  ext i hi
  rw [← BitVec.getLsbD_eq_getElem, ← BitVec.getLsbD_eq_getElem, joinSextets_bit]
  simp only [BitVec.getLsbD_extractLsb']
  split
  · simp_all
  · split
    · simp [show i - 6 < 6 by omega, show 6 + (i - 6) = i by omega]
    · split
      · simp [show i - 12 < 6 by omega, show 12 + (i - 12) = i by omega]
      · simp [show i - 18 < 6 by omega, show 18 + (i - 18) = i by omega]

/-- The three bytes of a 24-bit value make it up again. -/
@[simp] theorem join24_extract (x : BitVec 24) :
    join24 (x.extractLsb' 16 8) (x.extractLsb' 8 8) (x.extractLsb' 0 8) = x := by
  ext i hi
  rw [← BitVec.getLsbD_eq_getElem, ← BitVec.getLsbD_eq_getElem, join24_bit]
  simp only [BitVec.getLsbD_extractLsb']
  split
  · simp_all
  · split
    · simp [show i - 8 < 8 by omega, show 8 + (i - 8) = i by omega]
    · simp [show i - 16 < 8 by omega, show 16 + (i - 16) = i by omega]

/-- The bytes joined are the bytes read out. -/
theorem join24_bytes (b0 b1 b2 : Byte) :
    (join24 b0 b1 b2).extractLsb' 16 8 = b0 ∧ (join24 b0 b1 b2).extractLsb' 8 8 = b1
      ∧ (join24 b0 b1 b2).extractLsb' 0 8 = b2 := by
  refine ⟨?_, ?_, ?_⟩ <;> ext i hi <;>
    rw [BitVec.getElem_extractLsb', join24_bit, ← BitVec.getLsbD_eq_getElem]
  · simp [show ¬ 16 + i < 8 by omega, show ¬ 16 + i < 16 by omega]
  · simp [show ¬ 8 + i < 8 by omega, show 8 + i < 16 by omega]
  · rw [if_pos (by omega), Nat.zero_add]

/-- The sextets joined are the sextets read out. -/
theorem joinSextets_sextets (v0 v1 v2 v3 : BitVec 6) :
    (joinSextets v0 v1 v2 v3).extractLsb' 18 6 = v0 ∧ (joinSextets v0 v1 v2 v3).extractLsb' 12 6 = v1
      ∧ (joinSextets v0 v1 v2 v3).extractLsb' 6 6 = v2 ∧ (joinSextets v0 v1 v2 v3).extractLsb' 0 6 = v3 := by
  refine ⟨?_, ?_, ?_, ?_⟩ <;> ext i hi <;>
    rw [BitVec.getElem_extractLsb', joinSextets_bit, ← BitVec.getLsbD_eq_getElem]
  · simp [show ¬ 18 + i < 6 by omega, show ¬ 18 + i < 12 by omega]
  · simp [show ¬ 12 + i < 6 by omega, show ¬ 12 + i < 12 by omega, show 12 + i < 18 by omega]
  · simp [show ¬ 6 + i < 6 by omega, show 6 + i < 12 by omega]
  · rw [if_pos (by omega), Nat.zero_add]

/-- A group's absent last bytes leave its last sextets zero. -/
theorem join24_zero_low (b0 b1 : Byte) : (join24 b0 b1 0).extractLsb' 0 6 = 0 := by
  ext i hi
  rw [BitVec.getElem_extractLsb', join24_bit, if_pos (by omega)]
  simp

theorem join24_zero_mid (b0 : Byte) : (join24 b0 0 0).extractLsb' 6 6 = 0 := by
  ext i hi
  rw [BitVec.getElem_extractLsb', join24_bit]
  split
  · simp
  · rw [if_pos (by omega)]; simp

/-- `alph` is what `alphInv` accepts (R132). -/
theorem alph_of_alphInv {c : Byte} {v : BitVec 6} (h : alphInv c = some v) : alph v = c := by
  revert h
  revert v
  revert c
  decide +kernel

end Sys2Proof.Machine
end

