-- ==== Sys2Proof/Laws/Exec.lean ====
section
/-! SUPPORT. Everything each command can answer, with the conditions it answers it on; proofs cite these instead of
unfolding the meanings. -/

namespace Sys2Proof.Machine

section CommandAnswers
variable (s : State)

theorem execNop_eq : exec .nop s = .next (s.complete .ok) := rfl

theorem execExpand_eq : exec .expand s = .next ((s.putTable (expand (keyBytes s.key))).complete .ok) := rfl

theorem execEncb_cases :
    (s.tv = false ∧ exec .encb s = .next (s.complete .noTable))
      ∨ (s.tv = true ∧ exec .encb s = .next ((s.putBlock (encryptBlock s.subkey s.blkA s.blkB)).complete .ok)) :=
  checkTable_cases s _

theorem execDecb_cases :
    (s.tv = false ∧ exec .decb s = .next (s.complete .noTable))
      ∨ (s.tv = true ∧ exec .decb s = .next ((s.putBlock (decryptBlock s.subkey s.blkA s.blkB)).complete .ok)) :=
  checkTable_cases s _

theorem execPad_cases :
    (Config.bufBytes < s.inCount ∧ exec .pad s = .next (s.complete .length))
      ∨ (s.inCount ≤ Config.bufBytes ∧ s.input = none ∧ exec .pad s = .fault (.unwrittenBufferRead .inBuf))
      ∨ (s.inCount ≤ Config.bufBytes ∧ ∃ d, s.input = some d ∧ d.length = s.inCount
          ∧ exec .pad s = .next ((s.putOutput (wordsToBytes (bytesToWords d))).complete .ok)) := by
  rcases checkInLen_cases s _ with ⟨h, he⟩ | ⟨h, he⟩
  · exact .inl ⟨h, he⟩
  · rcases withInput_cases s fun d => succeed (s.putOutput (wordsToBytes (bytesToWords d))) with
      ⟨hi, hw⟩ | ⟨d, hi, hl, hw⟩
    · exact .inr (.inl ⟨h, hi, he.trans hw⟩)
    · exact .inr (.inr ⟨h, d, hi, hl, he.trans hw⟩)

theorem execEncm_cases :
    (Config.bufBytes < s.inCount ∧ exec .encm s = .next (s.complete .length))
      ∨ (s.inCount ≤ Config.bufBytes ∧ s.tv = false ∧ exec .encm s = .next (s.complete .noTable))
      ∨ (s.inCount ≤ Config.bufBytes ∧ s.tv = true ∧ s.input = none
          ∧ exec .encm s = .fault (.unwrittenBufferRead .inBuf))
      ∨ (s.inCount ≤ Config.bufBytes ∧ s.tv = true ∧ ∃ d, s.input = some d ∧ d.length = s.inCount
          ∧ exec .encm s = .next ((s.putOutput (encm d s.subkey)).complete .ok)) := by
  rcases checkInLen_cases s _ with ⟨h, he⟩ | ⟨h, he⟩
  · exact .inl ⟨h, he⟩
  · rcases checkTable_cases s _ with ⟨ht, hk⟩ | ⟨ht, hk⟩
    · exact .inr (.inl ⟨h, ht, he.trans hk⟩)
    · rcases withInput_cases s fun d => succeed (s.putOutput (encm d s.subkey)) with
        ⟨hi, hw⟩ | ⟨d, hi, hl, hw⟩
      · exact .inr (.inr (.inl ⟨h, ht, hi, (he.trans hk).trans hw⟩))
      · exact .inr (.inr (.inr ⟨h, ht, d, hi, hl, (he.trans hk).trans hw⟩))

theorem execDecm_cases :
    (Config.bufBytes < s.inCount ∧ exec .decm s = .next (s.complete .length))
      ∨ (s.inCount ≤ Config.bufBytes ∧ s.tv = false ∧ exec .decm s = .next (s.complete .noTable))
      ∨ (s.inCount ≤ Config.bufBytes ∧ s.tv = true ∧ s.inCount % 8 ≠ 0
          ∧ exec .decm s = .next (s.complete .decode))
      ∨ (s.inCount ≤ Config.bufBytes ∧ s.tv = true ∧ s.inCount % 8 = 0 ∧ s.input = none
          ∧ exec .decm s = .fault (.unwrittenBufferRead .inBuf))
      ∨ (s.inCount ≤ Config.bufBytes ∧ s.tv = true ∧ s.inCount % 8 = 0 ∧ ∃ d, s.input = some d
          ∧ d.length = s.inCount ∧ exec .decm s = .next ((s.putOutput (decm d s.subkey)).complete .ok)) := by
  rcases checkInLen_cases s _ with ⟨h, he⟩ | ⟨h, he⟩
  · exact .inl ⟨h, he⟩
  · rcases checkTable_cases s _ with ⟨ht, hk⟩ | ⟨ht, hk⟩
    · exact .inr (.inl ⟨h, ht, he.trans hk⟩)
    · by_cases h8 : s.inCount % 8 = 0
      · have hd := (he.trans hk).trans (if_neg (by simpa using h8))
        rcases withInput_cases s fun d => succeed (s.putOutput (decm d s.subkey)) with
          ⟨hi, hw⟩ | ⟨d, hi, hl, hw⟩
        · exact .inr (.inr (.inr (.inl ⟨h, ht, h8, hi, hd.trans hw⟩)))
        · exact .inr (.inr (.inr (.inr ⟨h, ht, h8, d, hi, hl, hd.trans hw⟩)))
      · exact .inr (.inr (.inl ⟨h, ht, h8, (he.trans hk).trans (if_pos h8)⟩))

theorem execB64e_cases :
    (Config.bufBytes < s.inCount ∧ exec .b64e s = .next (s.complete .length))
      ∨ (s.inCount ≤ Config.bufBytes ∧ Config.bufBytes < b64len s.inCount
          ∧ exec .b64e s = .next (s.complete .length))
      ∨ (s.inCount ≤ Config.bufBytes ∧ b64len s.inCount ≤ Config.bufBytes ∧ s.input = none
          ∧ exec .b64e s = .fault (.unwrittenBufferRead .inBuf))
      ∨ (s.inCount ≤ Config.bufBytes ∧ b64len s.inCount ≤ Config.bufBytes ∧ ∃ d, s.input = some d
          ∧ d.length = s.inCount ∧ exec .b64e s = .next ((s.putOutput (b64enc d)).complete .ok)) := by
  rcases checkInLen_cases s _ with ⟨h, he⟩ | ⟨h, he⟩
  · exact .inl ⟨h, he⟩
  · by_cases ho : Config.bufBytes < b64len s.inCount
    · exact .inr (.inl ⟨h, ho, he.trans (if_pos ho)⟩)
    · have hd := he.trans (if_neg ho)
      rcases withInput_cases s fun d => succeed (s.putOutput (b64enc d)) with ⟨hi, hw⟩ | ⟨d, hi, hl, hw⟩
      · exact .inr (.inr (.inl ⟨h, by omega, hi, hd.trans hw⟩))
      · exact .inr (.inr (.inr ⟨h, by omega, d, hi, hl, hd.trans hw⟩))

theorem execB64d_cases :
    (Config.bufBytes < s.inCount ∧ exec .b64d s = .next (s.complete .length))
      ∨ (s.inCount ≤ Config.bufBytes ∧ s.input = none ∧ exec .b64d s = .fault (.unwrittenBufferRead .inBuf))
      ∨ (s.inCount ≤ Config.bufBytes ∧ ∃ t, s.input = some t ∧ t.length = s.inCount ∧ b64dec t = none
          ∧ exec .b64d s = .next (s.complete .decode))
      ∨ (s.inCount ≤ Config.bufBytes ∧ ∃ t o, s.input = some t ∧ t.length = s.inCount ∧ b64dec t = some o
          ∧ exec .b64d s = .next ((s.putOutput o).complete .ok)) := by
  rcases checkInLen_cases s _ with ⟨h, he⟩ | ⟨h, he⟩
  · exact .inl ⟨h, he⟩
  · rcases withInput_cases s _ with ⟨hi, hw⟩ | ⟨t, hi, hl, hw⟩
    · exact .inr (.inl ⟨h, hi, he.trans hw⟩)
    · cases ht : b64dec t with
      | none => exact .inr (.inr (.inl ⟨h, t, hi, hl, ht, (he.trans hw).trans (by simp only [ht]; rfl)⟩))
      | some o => exact .inr (.inr (.inr ⟨h, t, o, hi, hl, ht, (he.trans hw).trans (by simp only [ht]; rfl)⟩))

theorem execKeyd_cases :
    (Config.bufBytes < s.inCount ∧ exec .keyd s = .next (s.complete .length))
      ∨ (s.inCount ≤ Config.bufBytes ∧ s.input = none ∧ exec .keyd s = .fault (.unwrittenBufferRead .inBuf))
      ∨ (s.inCount ≤ Config.bufBytes ∧ ∃ t, s.input = some t ∧ t.length = s.inCount ∧ keydec t = none
          ∧ exec .keyd s = .next (s.complete .keyFormat))
      ∨ (s.inCount ≤ Config.bufBytes ∧ ∃ t k, s.input = some t ∧ t.length = s.inCount ∧ keydec t = some k
          ∧ exec .keyd s = .next ((s.putKey (keyWords k)).complete .ok)) := by
  rcases checkInLen_cases s _ with ⟨h, he⟩ | ⟨h, he⟩
  · exact .inl ⟨h, he⟩
  · rcases withInput_cases s _ with ⟨hi, hw⟩ | ⟨t, hi, hl, hw⟩
    · exact .inr (.inl ⟨h, hi, he.trans hw⟩)
    · cases ht : keydec t with
      | none => exact .inr (.inr (.inl ⟨h, t, hi, hl, ht, (he.trans hw).trans (by simp only [ht]; rfl)⟩))
      | some k => exact .inr (.inr (.inr ⟨h, t, k, hi, hl, ht, (he.trans hw).trans (by simp only [ht]; rfl)⟩))

theorem execGenk_cases :
    (s.drawnEntropy = none ∧ exec .genk s = .next (s.afterEntropy.complete .entropy))
      ∨ ∃ r, s.drawnEntropy = some r
          ∧ exec .genk s = .next ((s.afterEntropy.putOutput (b64enc r.toList)).complete .ok) := by
  have he : exec .genk s = .next (genkWith s.afterEntropy s.drawnEntropy) := rfl
  cases h : s.drawnEntropy with
  | none => exact .inl ⟨rfl, by rw [he, h]; rfl⟩
  | some r => exact .inr ⟨r, rfl, by rw [he, h]; rfl⟩

theorem execU8ck_cases :
    (s.output = none ∧ exec .u8ck s = .fault (.unwrittenBufferRead .outBuf))
      ∨ (∃ d, s.output = some d ∧ d.length = s.outCount ∧ utf8Valid d = true
          ∧ exec .u8ck s = .next (s.complete .ok))
      ∨ (∃ d, s.output = some d ∧ d.length = s.outCount ∧ utf8Valid d = false
          ∧ exec .u8ck s = .next (s.complete .encoding)) := by
  rcases withOutput_cases s fun d => if utf8Valid d then succeed s else raise .encoding s with
    ⟨hi, hw⟩ | ⟨d, hi, hl, hw⟩
  · exact .inl ⟨hi, hw⟩
  · cases hu : utf8Valid d with
    | true => exact .inr (.inl ⟨d, hi, hl, hu, hw.trans (by rw [hu]; rfl)⟩)
    | false => exact .inr (.inr ⟨d, hi, hl, hu, hw.trans (by rw [hu]; rfl)⟩)

theorem execXfer_cases :
    (s.output = none ∧ exec .xfer s = .fault (.unwrittenBufferRead .outBuf))
      ∨ ∃ d, s.output = some d ∧ d.length = s.outCount ∧ exec .xfer s = .next ((s.putInput d).complete .ok) :=
  withOutput_cases s fun d => succeed (s.putInput d)

end CommandAnswers

/-- One statement over all commands: each completes with a code of its own and at most one update of the state, or stops at an
unwritten byte of the message it reads. -/
theorem exec_shape (i : Instr) (s : State) :
    (∃ c ∈ possibleCodes i, exec i s = .next (s.complete c) ∧ (c = .ok → i = .nop ∨ i = .u8ck))
      ∨ (i = .genk ∧ exec i s = .next (s.afterEntropy.complete .entropy))
      ∨ (i = .genk ∧ ∃ d, d.length = 24 ∧ exec i s = .next ((s.afterEntropy.putOutput d).complete .ok))
      ∨ ((i = .encm ∨ i = .decm ∨ i = .pad ∨ i = .b64e ∨ i = .b64d) ∧ ∃ d, d.length ≤ Config.bufBytes
          ∧ (i = .encm ∨ i = .pad → d.length = padlen s.inCount) ∧ (i = .decm → d.length = s.inCount)
          ∧ (i = .b64e → d.length = b64len s.inCount) ∧ (i = .b64d → 4 * d.length ≤ 3 * s.inCount)
          ∧ exec i s = .next ((s.putOutput d).complete .ok))
      ∨ (i = .expand ∧ exec i s = .next ((s.putTable (expand (keyBytes s.key))).complete .ok))
      ∨ ((i = .encb ∨ i = .decb) ∧ ∃ ab, exec i s = .next ((s.putBlock ab).complete .ok))
      ∨ (i = .keyd ∧ ∃ k, exec i s = .next ((s.putKey k).complete .ok))
      ∨ (i = .xfer ∧ ∃ d, s.output = some d ∧ d.length = s.outCount
          ∧ exec i s = .next ((s.putInput d).complete .ok))
      ∨ ((i = .encm ∨ i = .decm ∨ i = .pad ∨ i = .b64e ∨ i = .b64d ∨ i = .keyd) ∧ s.input = none
          ∧ exec i s = .fault (.unwrittenBufferRead .inBuf))
      ∨ ((i = .u8ck ∨ i = .xfer) ∧ s.output = none ∧ exec i s = .fault (.unwrittenBufferRead .outBuf)) := by
  have error {i : Instr} {c : ErrCode} (hc : c ∈ possibleCodes i) (h0 : c ≠ .ok)
      (h : exec i s = .next (s.complete c)) :
      ∃ c ∈ possibleCodes i, exec i s = .next (s.complete c) ∧ (c = .ok → i = .nop ∨ i = .u8ck) :=
    ⟨c, hc, h, fun h => absurd h h0⟩
  cases i with
  | nop => exact .inl ⟨.ok, by decide, rfl, fun _ => .inl rfl⟩
  | expand => exact .inr (.inr (.inr (.inr (.inl ⟨rfl, rfl⟩))))
  | encb =>
    rcases execEncb_cases s with ⟨_, h⟩ | ⟨_, h⟩
    · exact .inl (error (by decide) (by decide) h)
    · exact .inr (.inr (.inr (.inr (.inr (.inl ⟨.inl rfl, _, h⟩)))))
  | decb =>
    rcases execDecb_cases s with ⟨_, h⟩ | ⟨_, h⟩
    · exact .inl (error (by decide) (by decide) h)
    · exact .inr (.inr (.inr (.inr (.inr (.inl ⟨.inr rfl, _, h⟩)))))
  | encm =>
    rcases execEncm_cases s with ⟨_, h⟩ | ⟨_, _, h⟩ | ⟨_, _, hi, h⟩ | ⟨hl, _, d, _, hd, h⟩
    · exact .inl (error (by decide) (by decide) h)
    · exact .inl (error (by decide) (by decide) h)
    · simp_all
    · have he := encm_length d s.subkey
      have := padlen_le_bufBytes hl
      rw [hd] at he
      exact .inr (.inr (.inr (.inl ⟨by simp, _, by omega, fun _ => he, by simp, by simp, by simp, h⟩)))
  | decm =>
    rcases execDecm_cases s with ⟨_, h⟩ | ⟨_, _, h⟩ | ⟨_, _, _, h⟩ | ⟨_, _, _, hi, h⟩ | ⟨hl, _, h8, d, _, hd, h⟩
    · exact .inl (error (by decide) (by decide) h)
    · exact .inl (error (by decide) (by decide) h)
    · exact .inl (error (by decide) (by decide) h)
    · simp_all
    · have he := decm_length d s.subkey
      rw [hd, padlen] at he
      exact .inr (.inr (.inr (.inl ⟨by simp, _, by omega, by simp, fun _ => by omega, by simp, by simp, h⟩)))
  | pad =>
    rcases execPad_cases s with ⟨_, h⟩ | ⟨_, hi, h⟩ | ⟨hl, d, _, hd, h⟩
    · exact .inl (error (by decide) (by decide) h)
    · simp_all
    · have he := codec_length d
      have := padlen_le_bufBytes hl
      rw [hd] at he
      exact .inr (.inr (.inr (.inl ⟨by simp, _, by omega, fun _ => he, by simp, by simp, by simp, h⟩)))
  | b64e =>
    rcases execB64e_cases s with ⟨_, h⟩ | ⟨_, _, h⟩ | ⟨_, _, hi, h⟩ | ⟨_, hl, d, _, hd, h⟩
    · exact .inl (error (by decide) (by decide) h)
    · exact .inl (error (by decide) (by decide) h)
    · simp_all
    · have he := b64enc_length d
      rw [hd] at he
      exact .inr (.inr (.inr (.inl ⟨by simp, _, by omega, by simp, by simp, fun _ => he, by simp, h⟩)))
  | b64d =>
    rcases execB64d_cases s with ⟨_, h⟩ | ⟨_, hi, h⟩ | ⟨_, _, _, _, _, h⟩ | ⟨hl, t, o, _, ht, ho, h⟩
    · exact .inl (error (by decide) (by decide) h)
    · simp_all
    · exact .inl (error (by decide) (by decide) h)
    · have he := b64dec_length t o ho
      rw [ht] at he
      exact .inr (.inr (.inr (.inl ⟨by simp, _, by omega, by simp, by simp, by simp, fun _ => he, h⟩)))
  | keyd =>
    rcases execKeyd_cases s with ⟨_, h⟩ | ⟨_, hi, h⟩ | ⟨_, _, _, _, _, h⟩ | ⟨_, _, _, _, _, _, h⟩
    · exact .inl (error (by decide) (by decide) h)
    · simp_all
    · exact .inl (error (by decide) (by decide) h)
    · exact .inr (.inr (.inr (.inr (.inr (.inr (.inl ⟨rfl, _, h⟩))))))
  | genk =>
    rcases execGenk_cases s with ⟨_, h⟩ | ⟨r, _, h⟩
    · exact .inr (.inl ⟨rfl, h⟩)
    · exact .inr (.inr (.inl ⟨rfl, _, by simp [b64enc_length, b64len], h⟩))
  | u8ck =>
    rcases execU8ck_cases s with ⟨hi, h⟩ | ⟨_, _, _, _, h⟩ | ⟨_, _, _, _, h⟩
    · simp_all
    · exact .inl ⟨.ok, by decide, h, fun _ => .inr rfl⟩
    · exact .inl (error (by decide) (by decide) h)
  | xfer =>
    rcases execXfer_cases s with ⟨hi, h⟩ | ⟨d, hd, hl, h⟩
    · simp_all
    · exact .inr (.inr (.inr (.inr (.inr (.inr (.inr (.inl ⟨rfl, d, hd, hl, h⟩)))))))

end Sys2Proof.Machine
end

