-- ==== Sys2Proof/Laws/PerInstr.lean ====
section
/-! SUPPORT. For every command as syntax: its word has the format CMD32 (30_encoding.md R71, R73), and the disassembler and the
`CMD` pseudo-instruction name it by that word (R78, R79). -/

namespace Sys2Proof.Laws

/-- The word of `i` has RSV = 0 and an opcode of the map, which is `i`'s; the disassembler prints its mnemonic; and `CMD i` is the
one write of that word to CMD. -/
def Encoding.Statement (i : Instr) : Prop :=
  rsvOk (encode i) = true ∧ opcOk (encode i) = true
    ∧ opcodeMap ((encode i).extractLsb' 0 8).toNat = some i
    ∧ disassemble (encode i) = "CMD " ++ mnemonic i
    ∧ Machine.pseudoCmd i = [.wr .word 0x00C (encode i)]

theorem Encoding.nop : Encoding.Statement .nop := ⟨rfl, rfl, rfl, rfl, rfl⟩
theorem Encoding.expand : Encoding.Statement .expand := ⟨rfl, rfl, rfl, rfl, rfl⟩
theorem Encoding.encb : Encoding.Statement .encb := ⟨rfl, rfl, rfl, rfl, rfl⟩
theorem Encoding.decb : Encoding.Statement .decb := ⟨rfl, rfl, rfl, rfl, rfl⟩
theorem Encoding.encm : Encoding.Statement .encm := ⟨rfl, rfl, rfl, rfl, rfl⟩
theorem Encoding.decm : Encoding.Statement .decm := ⟨rfl, rfl, rfl, rfl, rfl⟩
theorem Encoding.pad : Encoding.Statement .pad := ⟨rfl, rfl, rfl, rfl, rfl⟩
theorem Encoding.b64e : Encoding.Statement .b64e := ⟨rfl, rfl, rfl, rfl, rfl⟩
theorem Encoding.b64d : Encoding.Statement .b64d := ⟨rfl, rfl, rfl, rfl, rfl⟩
theorem Encoding.keyd : Encoding.Statement .keyd := ⟨rfl, rfl, rfl, rfl, rfl⟩
theorem Encoding.genk : Encoding.Statement .genk := ⟨rfl, rfl, rfl, rfl, rfl⟩
theorem Encoding.u8ck : Encoding.Statement .u8ck := ⟨rfl, rfl, rfl, rfl, rfl⟩
theorem Encoding.xfer : Encoding.Statement .xfer := ⟨rfl, rfl, rfl, rfl, rfl⟩

end Sys2Proof.Laws
end

