-- ==== Sys2Proof/Tests/Slice0.lean ====
section
/-! SUPPORT. Tests. Every expected value is one the spec writes out: the opcode map of 30_encoding.md R73, the values of
95_test_vectors.md, or the examples of the command rules. At the end, for every statement with hypotheses, a theorem
`test_meets_<its name>` with states and operands that meet them. -/

namespace Sys2Proof.Tests
open Sys2Proof.Machine

set_option Elab.async false

/-! ## States to test in -/

/-- A buffer whose first bytes are `bs`. -/
def buffer (bs : List Byte) : Memory := Memory.writeBytes [] 0 bs

/-- After reset, with the message `bs` in IN_BUF. -/
def withMessage (bs : List Byte) : State :=
  { State.reset with inBuf := buffer bs, inLen := BitVec.ofNat 32 bs.length }

/-- After reset, with the output `bs` in OUT_BUF. -/
def withResult (bs : List Byte) : State :=
  { State.reset with outBuf := buffer bs, outLen := BitVec.ofNat 32 bs.length }

/-- The table of the zero key (95_test_vectors.md §3.3). -/
def zeroTable : Vector Word 26 :=
  #v[0x9BBBD8C8, 0x1A37F7FB, 0x46F8E8C5, 0x460C6085, 0x70F83B8A, 0x284B8303, 0x513E1454, 0xF621ED22, 0x3125065D,
     0x11A83A5D, 0xD427686B, 0x713AD82D, 0x4B792F99, 0x2799A4DD, 0xA7901C49, 0xDEDE871A, 0x36C03196, 0xA7EFC249,
     0x61A78BB8, 0x3B0A1D2B, 0x4DBFCA76, 0xAE162167, 0x30D76B0A, 0x43192304, 0xF6CC1431, 0x65046380]

/-- `s` with the zero key expanded. -/
def expanded (s : State) : State := { s with subkey := zeroTable, tv := true }

/-- After reset, with the command word `cw` in flight. -/
def inFlight (cw : Word) : State := { State.reset with pending := some cw }

/-- The outcome is a next state with the property `p`. -/
def leadsTo (r : Result) (p : State → Bool) : Bool :=
  match r with
  | .next t => p t
  | .fault _ => false
  | .refused _ => false

/-- The outcome is this fault. -/
def stopsWith (r : Result) (f : Fault) : Bool :=
  match r with
  | .next _ => false
  | .fault g => f == g
  | .refused _ => false

/-- The key bytes 00 01 … 0F. -/
def countKey : Vector Byte 16 := #v[0, 1, 2, 3, 4, 5, 6, 7, 8, 9, 10, 11, 12, 13, 14, 15]

/-! ## Well-formedness: each check accepts, and refuses an ill-formed term -/

theorem test_wf_word : rsvOk 0x00000002 = true ∧ rsvOk 0x00000102 = false ∧ rsvOk 0x80000000 = false
    ∧ opcOk 0x0000000C = true ∧ opcOk 0x0000000D = false ∧ opcOk 0x000000FF = false := by decide

theorem test_wf_access :
    (⟨.read, 0x10002, .word, 0⟩ : Txn).aligned = false ∧ (⟨.read, 0x10002, .half, 0⟩ : Txn).aligned = true
    ∧ (⟨.read, 0x008, .half, 0⟩ : Txn).sizeOk = false ∧ (⟨.read, 0x10001, .byte, 0⟩ : Txn).sizeOk = true
    ∧ (⟨.write, 0x20001, .half, 0⟩ : Txn).wf = false ∧ (⟨.write, 0x0FFFC, .word, 0⟩ : Txn).wf = true := by decide

theorem test_wf_command : Instr.wf .xfer = true ∧ decodeTableWord 32 0x0D = none := by decide

/-! ## Decoding: words written out as RSV ++ OPC -/

theorem test_decode_chaining : decode (0#24 ++ 0x00#8) = .ok .nop ∧ decode (0#24 ++ 0x0C#8) = .ok .xfer := by decide
theorem test_decode_schedule : decode (0#24 ++ 0x01#8) = .ok .expand := by decide
theorem test_decode_block : decode (0#24 ++ 0x02#8) = .ok .encb ∧ decode (0#24 ++ 0x03#8) = .ok .decb := by decide
theorem test_decode_message : decode (0#24 ++ 0x04#8) = .ok .encm ∧ decode (0#24 ++ 0x05#8) = .ok .decm := by decide
theorem test_decode_codec : decode (0#24 ++ 0x06#8) = .ok .pad := by decide
theorem test_decode_transport : decode (0#24 ++ 0x07#8) = .ok .b64e ∧ decode (0#24 ++ 0x08#8) = .ok .b64d := by decide
theorem test_decode_key_text : decode (0#24 ++ 0x09#8) = .ok .keyd ∧ decode (0#24 ++ 0x0A#8) = .ok .genk := by decide
theorem test_decode_text_check : decode (0#24 ++ 0x0B#8) = .ok .u8ck := by decide

theorem test_decode_illegal : decode (0#24 ++ 0xFF#8) = .error .unassignedOpcode
    ∧ decode (1#24 ++ 0x02#8) = .error .reservedBits ∧ decode 0x80000000 = .error .reservedBits := by decide

theorem test_decode_table_word : decodeTableWord 32 0x0A = some .genk ∧ decodeTableWord 8 0x0A = some .genk
    ∧ decodeTableWord 32 0x102 = none := by decide

/-- R78. -/
theorem test_disassemble : disassemble 0x00000001 = "CMD EXPAND" ∧ disassemble 0x0000ABCD = "CMD .word 0x0000ABCD" := by
  decide

/-! ## Functions -/

/-- 95_test_vectors.md §2.1. -/
theorem test_rotation : rotl 0x80000001 1 = 0x00000003 ∧ rotl 0x12345678 4 = 0x23456781 ∧ rotr 0x12345678 4 = 0x81234567
    ∧ rotl 0x12345678 36 = 0x23456781 ∧ rotl 0x12345678 31 = 0x091A2B3C ∧ rotr 0x12345678 0 = 0x12345678
    ∧ rotr 0x00000001 1 = 0x80000000 := by decide

/-- 95_test_vectors.md §3.2. -/
theorem test_seed_table : seedTable[1] = 0x5618CB1C ∧ seedTable[8] = 0xA99D1F2B ∧ seedTable[25] = 0x2B4C3474 := by
  decide +kernel

/-- 95_test_vectors.md §3.1. -/
theorem test_key_words : keyWords countKey = #v[0x03020100, 0x07060504, 0x0B0A0908, 0x0F0E0D0C] := by decide +kernel

/-- 95_test_vectors.md §3.4, passes 0, 1 and 2. -/
theorem test_mixing_trace :
    (mixPasses 1 (mixStart (Vector.replicate 16 0))).a = 0xBF0A8B1D
    ∧ (mixPasses 1 (mixStart (Vector.replicate 16 0))).b = 0xB7E15163
    ∧ (mixPasses 3 (mixStart (Vector.replicate 16 0))).a = 0x4C909FDB
    ∧ (mixPasses 3 (mixStart (Vector.replicate 16 0))).b = 0xDACD6990 := by decide +kernel

/-- 95_test_vectors.md §3.3. -/
theorem test_expand_zero : expand (Vector.replicate 16 0) = zeroTable := by decide +kernel

/-- 95_test_vectors.md §3.5, the key 00 01 … 0F: the byte order of the key words. -/
theorem test_expand_count : (expand countKey)[0] = 0xD447E233 ∧ (expand countKey)[25] = 0x15E8E206
    ∧ encryptBlock (expand countKey) 0 0 = (0xED675FB0, 0xA2B51309) := by decide +kernel

/-- 95_test_vectors.md §2.2. -/
theorem test_block : encryptBlock zeroTable 0 0 = (0xEEDBA521, 0x6D8F4B15)
    ∧ encryptBlock zeroTable 0xFFFFFFFF 0xFFFFFFFF = (0x4C719ECA, 0x593EFF1F)
    ∧ encryptBlock zeroTable 0x12345678 0x9ABCDEF0 = (0x0DF7098B, 0xFBAC0057)
    ∧ decryptBlock zeroTable 0 0 = (0x48E56C13, 0x9616F90F) := by decide +kernel

/-- 95_test_vectors.md §2.3, the second published vector. -/
theorem test_block_published :
    encryptBlock (expand #v[0x91, 0x5F, 0x46, 0x19, 0xBE, 0x41, 0xB2, 0x51, 0x63, 0x55, 0xA5, 0x01, 0x10, 0xA9, 0xCE, 0x91])
      0xEEDBA521 0x6D8F4B15 = (0xAC13C0F7, 0x52892B5B) := by decide +kernel

/-- 95_test_vectors.md §4. -/
theorem test_codec : bytesToWords [0x68, 0x65, 0x6C, 0x6C, 0x6F] = [0x6C6C6568, 0x0000006F]
    ∧ bytesToWords [0x31, 0x32, 0x33, 0x34, 0x35, 0x36, 0x37, 0x38, 0x39]
      = [0x34333231, 0x38373635, 0x00000039, 0x00000000] := by decide +kernel

/-- 95_test_vectors.md §6: "f", "fo", "foo" and the empty text; and texts the decoder refuses. -/
theorem test_transport : b64enc [0x66] = [0x5A, 0x67, 0x3D, 0x3D] ∧ b64enc [0x66, 0x6F] = [0x5A, 0x6D, 0x38, 0x3D]
    ∧ b64enc [0x66, 0x6F, 0x6F] = [0x5A, 0x6D, 0x39, 0x76] ∧ b64enc [] = []
    ∧ b64dec [0x5A, 0x68, 0x3D, 0x3D] = none ∧ b64dec [0x3D, 0x3D, 0x3D, 0x3D] = none
    ∧ b64dec [0x5A, 0x67, 0x3D, 0x3D, 0x5A, 0x67, 0x3D, 0x3D] = none ∧ b64dec [0x5A, 0x67, 0x3D] = none := by
  decide +kernel

/-- 95_test_vectors.md §8, the valid texts. -/
theorem test_utf8_valid : utf8Valid [0x7F] ∧ utf8Valid [0xC2, 0x80] ∧ utf8Valid [0xDF, 0xBF] ∧ utf8Valid [0xE0, 0xA0, 0x80]
    ∧ utf8Valid [0xED, 0x9F, 0xBF] ∧ utf8Valid [0xEF, 0xBF, 0xBF] ∧ utf8Valid [0xF0, 0x90, 0x80, 0x80]
    ∧ utf8Valid [0xF4, 0x8F, 0xBF, 0xBF] := by decide +kernel

/-- 95_test_vectors.md §8, the invalid texts. -/
theorem test_utf8_invalid : ¬ utf8Valid [0x80] ∧ ¬ utf8Valid [0xC0, 0x80] ∧ ¬ utf8Valid [0xC1, 0xBF]
    ∧ ¬ utf8Valid [0xE0, 0x80, 0x80] ∧ ¬ utf8Valid [0xED, 0xA0, 0x80] ∧ ¬ utf8Valid [0xF0, 0x80, 0x80, 0x80]
    ∧ ¬ utf8Valid [0xF4, 0x90, 0x80, 0x80] ∧ ¬ utf8Valid [0xF5, 0x80, 0x80, 0x80] ∧ ¬ utf8Valid [0xC3]
    ∧ ¬ utf8Valid [0xE2, 0x82] ∧ ¬ utf8Valid [0x13, 0x6C, 0xE5, 0x48, 0x0F, 0xF9, 0x16, 0x96] := by decide +kernel

/-! ## Commands -/

/-- R152's example. -/
theorem test_nop : ({ State.reset with done := true, errcode := .noTable } : State).statusWord = 0x00000506
    ∧ leadsTo (exec .nop { State.reset with done := true, errcode := .noTable }) (·.statusWord = 0x00000002) := by
  decide +kernel

/-- R101's example. -/
theorem test_expand : leadsTo (exec .expand State.reset) fun t =>
    t.subkey = zeroTable ∧ t.key = Vector.replicate 4 0 ∧ t.statusWord = 0x0000000A := by decide +kernel

/-- 95_test_vectors.md §10, P2: "TESTBLOK". -/
theorem test_encb : leadsTo (exec .encb (expanded { State.reset with blkA := 0x54534554, blkB := 0x4B4F4C42 })) fun t =>
    t.blkA = 0x5756CD01 ∧ t.blkB = 0x7A492C19 ∧ t.statusWord = 0x0000000A := by decide +kernel

/-- 95_test_vectors.md §10, P5 step 2. -/
theorem test_encb_no_table : leadsTo (exec .encb { State.reset with blkA := 7 }) fun t =>
    t.blkA = 7 ∧ t.statusWord = 0x00000506 := by decide +kernel

/-- R116's corner case. -/
theorem test_decb : leadsTo (exec .decb (expanded State.reset)) fun t =>
    t.blkA = 0x48E56C13 ∧ t.blkB = 0x9616F90F := by decide +kernel

/-- 95_test_vectors.md §5: "hello". -/
theorem test_encm : leadsTo (exec .encm (expanded (withMessage [0x68, 0x65, 0x6C, 0x6C, 0x6F]))) fun t =>
    t.output = some [0x4B, 0x34, 0xB4, 0x18, 0x6F, 0x5B, 0x83, 0x6D] ∧ t.outLen = 8 ∧ t.errcode = .ok := by decide +kernel

/-- 95_test_vectors.md §5: NO_TABLE. -/
theorem test_encm_no_table : leadsTo (exec .encm (withMessage [1, 2, 3, 4, 5])) (·.errcode = .noTable) := by decide +kernel

/-- 95_test_vectors.md §5: the ciphertext of "TESTBLOK". -/
theorem test_decm : leadsTo (exec .decm (expanded (withMessage [0x01, 0xCD, 0x56, 0x57, 0x19, 0x2C, 0x49, 0x7A]))) fun t =>
    t.output = some [0x54, 0x45, 0x53, 0x54, 0x42, 0x4C, 0x4F, 0x4B] := by decide +kernel

/-- 95_test_vectors.md §5: DECODE, with no byte read. -/
theorem test_decm_decode : leadsTo (exec .decm (expanded { State.reset with inLen := 12 })) (·.statusWord = 0x0000020E) := by
  decide +kernel

/-- R91's example. -/
theorem test_pad : leadsTo (exec .pad (withMessage [0x68, 0x65, 0x6C, 0x6C, 0x6F])) fun t =>
    t.output = some [0x68, 0x65, 0x6C, 0x6C, 0x6F, 0, 0, 0] := by decide +kernel

/-- R134's example. -/
theorem test_b64e : leadsTo (exec .b64e (withMessage [0x4B, 0x34, 0xB4, 0x18, 0x6F, 0x5B, 0x83, 0x6D])) fun t =>
    t.output = some [0x53, 0x7A, 0x53, 0x30, 0x47, 0x47, 0x39, 0x62, 0x67, 0x32, 0x30, 0x3D] := by decide +kernel

/-- R135's example. -/
theorem test_b64d : leadsTo
    (exec .b64d (withMessage [0x53, 0x7A, 0x53, 0x30, 0x47, 0x47, 0x39, 0x62, 0x67, 0x32, 0x30, 0x3D])) fun t =>
    t.output = some [0x4B, 0x34, 0xB4, 0x18, 0x6F, 0x5B, 0x83, 0x6D] := by decide +kernel

/-- R135's corner case: "Zh==". -/
theorem test_b64d_decode : leadsTo (exec .b64d (withMessage [0x5A, 0x68, 0x3D, 0x3D])) fun t =>
    t.errcode = .decode ∧ t.outBuf = [] := by decide +kernel

/-- 95_test_vectors.md §3.1 and §7: "AAECAwQFBgcICQoLDA0ODw==". -/
theorem test_keyd : leadsTo
    (exec .keyd (expanded (withMessage [0x41, 0x41, 0x45, 0x43, 0x41, 0x77, 0x51, 0x46, 0x42, 0x67, 0x63, 0x49, 0x43, 0x51,
      0x6F, 0x4C, 0x44, 0x41, 0x30, 0x4F, 0x44, 0x77, 0x3D, 0x3D]))) fun t =>
    t.key = #v[0x03020100, 0x07060504, 0x0B0A0908, 0x0F0E0D0C] ∧ t.statusWord = 0x00000002 := by decide +kernel

/-- R141's corner case: "AAAA". -/
theorem test_keyd_format : leadsTo (exec .keyd (expanded (withMessage [0x41, 0x41, 0x41, 0x41]))) fun t =>
    t.statusWord = 0x0000010E := by decide +kernel

/-- R146's example. -/
theorem test_genk : leadsTo (exec .genk { State.reset with entropy := [some countKey] }) fun t =>
    t.output = some [0x41, 0x41, 0x45, 0x43, 0x41, 0x77, 0x51, 0x46, 0x42, 0x67, 0x63, 0x49, 0x43, 0x51, 0x6F, 0x4C, 0x44,
      0x41, 0x30, 0x4F, 0x44, 0x77, 0x3D, 0x3D] ∧ t.outLen = 24 ∧ t.key = Vector.replicate 4 0 := by decide +kernel

/-- 95_test_vectors.md §7: UNAVAILABLE. -/
theorem test_genk_unavailable : leadsTo (exec .genk { State.reset with entropy := [none] }) fun t =>
    t.errcode = .entropy ∧ t.outBuf = [] ∧ t.outLen = 0 := by decide +kernel

/-- R149's corner case: "é", padded. -/
theorem test_u8ck : leadsTo (exec .u8ck (withResult [0xC3, 0xA9, 0, 0, 0, 0, 0, 0])) (·.errcode = .ok) := by decide +kernel

/-- 95_test_vectors.md §8: a surrogate. -/
theorem test_u8ck_encoding : leadsTo (exec .u8ck (withResult [0xED, 0xA0, 0x80])) (·.errcode = .encoding) := by
  decide +kernel

/-- R151's example, over a longer IN_BUF. -/
theorem test_xfer : leadsTo
    (exec .xfer { withResult [0x4B, 0x34, 0xB4, 0x18, 0x6F, 0x5B, 0x83, 0x6D] with inBuf := buffer (List.replicate 10 9) })
    fun t => t.inBuf = buffer [0x4B, 0x34, 0xB4, 0x18, 0x6F, 0x5B, 0x83, 0x6D, 9, 9] ∧ t.inLen = 8 := by decide +kernel

/-- 95_test_vectors.md §9: the word 0x00000102 is ILLEGAL_CMD, not NO_TABLE. -/
theorem test_illegal : leadsTo (step (inFlight 0x00000102)) (·.statusWord = 0x00000606) := by decide +kernel

/-- A command word placed by `withFetchWord` is the first command after reset. -/
theorem test_with_fetch_word : leadsTo (step (State.reset.withFetchWord 32 0x01)) (·.subkey = zeroTable) := by decide +kernel

/-! ## The bus, the interrupt and reset -/

/-- 95_test_vectors.md §9: RD ID, RD 0x100, RD 0x30000. -/
theorem test_reads : leadsTo (transact ⟨.read, 0x000, .word, 0⟩ State.reset) (·.resp = some ⟨.ok, some 0x0720100C⟩)
    ∧ leadsTo (transact ⟨.read, 0x100, .word, 0⟩ State.reset) (·.resp = some ⟨.ok, some 0⟩)
    ∧ leadsTo (transact ⟨.read, 0x30000, .byte, 0⟩ State.reset) (·.resp = some ⟨.ok, some 0⟩) := by decide +kernel

/-- 95_test_vectors.md §9: RDH 0x008 and RD 0x10002. -/
theorem test_bus_errors :
    leadsTo (transact ⟨.read, 0x008, .half, 0⟩ State.reset) (fun t =>
      t.resp = some ⟨.err, some 0⟩ ∧ t.fault = some .busError)
    ∧ leadsTo (transact ⟨.read, 0x10002, .word, 0⟩ State.reset) (·.resp = some ⟨.err, some 0⟩) := by decide +kernel

/-- 95_test_vectors.md §9: RDB OUT+5 after reset. -/
theorem test_unwritten : stopsWith (transact ⟨.read, 0x20005, .byte, 0⟩ State.reset) (.unwrittenBufferRead .outBuf) := by
  decide +kernel

/-- 95_test_vectors.md §10, P4 step 9: "o", then three NULs, read as a word; and bytes of it. -/
theorem test_window_read :
    leadsTo (transact ⟨.read, 0x20004, .word, 0⟩ (withResult [0x68, 0x65, 0x6C, 0x6C, 0x6F, 0, 0, 0]))
      (·.resp = some ⟨.ok, some 0x0000006F⟩)
    ∧ leadsTo (transact ⟨.read, 0x20000, .half, 0⟩ (withResult [0x68, 0x65, 0x6C, 0x6C, 0x6F, 0, 0, 0]))
      (·.resp = some ⟨.ok, some 0x6568⟩) := by decide +kernel

/-- 95_test_vectors.md §10, P3 step 1: the word of "AA==". -/
theorem test_window_write : leadsTo (transact ⟨.write, 0x10004, .word, 0x3D3D4141⟩ State.reset) fun t =>
    t.inBuf = [(4, 0x41), (5, 0x41), (6, 0x3D), (7, 0x3D)] := by decide +kernel

/-- 95_test_vectors.md §9: WR KEY2 while TV = 1. -/
theorem test_key_write : leadsTo (transact ⟨.write, 0x028, .word, 5⟩ (expanded { State.reset with done := true })) fun t =>
    t.key = #v[0, 0, 5, 0] ∧ t.statusWord = 0x00000002 := by decide +kernel

/-- 95_test_vectors.md §10, P6: the write of BLK_A lands while busy. -/
theorem test_busy_write : leadsTo (transact ⟨.write, 0x018, .word, 0⟩ { inFlight 0x00000002 with blkA := 7 }) fun t =>
    t.blkA = 7 ∧ t.statusWord = 0x00000011 := by decide +kernel

/-- 95_test_vectors.md §10, P7 step 1. -/
theorem test_irq : leadsTo (transact ⟨.write, 0x004, .word, 1⟩ { State.reset with done := true }) (·.irq)
    ∧ leadsTo (transact ⟨.write, 0x008, .word, 2⟩ { State.reset with done := true, ie := true }) (!·.irq) := by
  decide +kernel

/-- 95_test_vectors.md §10, P7 step 6: SRST while ENCM is pending. -/
theorem test_soft_reset : leadsTo
    (transact ⟨.write, 0x004, .word, 3⟩ (expanded { withMessage [1, 2] with pending := some 4, outBuf := buffer [3] }))
    fun t => t.outBuf = [] ∧ t.inBuf = buffer [1, 2] ∧ t.inLen = 0 ∧ t.ctrlWord = 0 ∧ t.statusWord = 0 := by decide +kernel

/-! ## The hypotheses of the statements are met

For each statement with hypotheses, a state and operands that meet them, clause by clause; where a clause has a range, at its
ends. -/

/-- The message `bs`, read back. -/
theorem withMessage_meets (bs : List Byte) (h : bs.length ≤ Config.bufBytes) :
    (withMessage bs).inCount = bs.length ∧ (withMessage bs).inBuf.readBytes 0 (withMessage bs).inCount = some bs := by
  have hc : (withMessage bs).inCount = bs.length := ofNat_toNat_of_le h
  exact ⟨hc, hc ▸ Memory.readBytes_writeBytes [] 0 bs⟩

/-- The output `bs`, read back. -/
theorem withResult_meets (bs : List Byte) (h : bs.length ≤ Config.bufBytes) :
    (withResult bs).outCount = bs.length ∧ (withResult bs).outBuf.readBytes 0 (withResult bs).outCount = some bs := by
  have hc : (withResult bs).outCount = bs.length := ofNat_toNat_of_le h
  exact ⟨hc, hc ▸ Memory.readBytes_writeBytes [] 0 bs⟩

/-- A message of `n` zero bytes. -/
def zeroMessage (n : Nat) : State := withMessage (List.replicate n 0)

theorem zeroMessage_tv (n : Nat) : (zeroMessage n).tv = false := rfl

/-- A message of `n ≤ BUF_BYTES` zero bytes meets the hypotheses on the message. -/
theorem zeroMessage_meets (n : Nat) (h : n ≤ Config.bufBytes) :
    (zeroMessage n).inCount = n ∧ (zeroMessage n).inCount ≤ Config.bufBytes
      ∧ (zeroMessage n).inBuf.readBytes 0 (zeroMessage n).inCount = some (List.replicate n 0) := by
  obtain ⟨hc, hr⟩ := withMessage_meets (List.replicate n 0) (by simpa using h)
  rw [List.length_replicate] at hc
  exact ⟨hc, hc.symm ▸ h, hr⟩

/-- IN_LEN is one more than BUF_BYTES. -/
def tooLong : State := { State.reset with inLen := BitVec.ofNat 32 (Config.bufBytes + 1) }

theorem tooLong_meets : Config.bufBytes < tooLong.inCount := by
  have hb := bufBytes_bounds
  show Config.bufBytes < (BitVec.ofNat 32 (Config.bufBytes + 1)).toNat
  rw [BitVec.toNat_ofNat]
  omega

/-- IN_LEN is 8, and no byte is written. -/
def unwritten : State := { State.reset with inLen := 8 }

theorem unwritten_meets : unwritten.inCount ≤ Config.bufBytes ∧ unwritten.inBuf.readBytes 0 unwritten.inCount = none := by
  decide +kernel

/-- Expanding the key leaves the message as it was. -/
theorem expanded_meets (s : State) : (expanded s).inCount = s.inCount ∧ (expanded s).tv = true
    ∧ (expanded s).inBuf = s.inBuf := ⟨rfl, rfl, rfl⟩

/-- An expanded key and a message of `n ≤ BUF_BYTES` zero bytes. -/
theorem expandedMessage_meets (n : Nat) (h : n ≤ Config.bufBytes) :
    (expanded (zeroMessage n)).inCount = n ∧ (expanded (zeroMessage n)).inCount ≤ Config.bufBytes
      ∧ (expanded (zeroMessage n)).tv = true
      ∧ (expanded (zeroMessage n)).inBuf.readBytes 0 (expanded (zeroMessage n)).inCount
        = some (List.replicate n 0) := by
  obtain ⟨h1, h2, h3⟩ := zeroMessage_meets n h
  obtain ⟨e1, e2, e3⟩ := expanded_meets (zeroMessage n)
  rw [e1, e2, e3]
  exact ⟨h1, h2, rfl, h3⟩

/-- A message of 3 * BUF_BYTES / 4 bytes is the longest whose text fits. -/
theorem longest_text : 4 * ((3 * Config.bufBytes / 4 + 2) / 3) = Config.bufBytes
    ∧ Config.bufBytes < 4 * ((3 * Config.bufBytes / 4 + 1 + 2) / 3) ∧ 3 * Config.bufBytes / 4 + 1 ≤ Config.bufBytes := by
  have hb := bufBytes_bounds
  omega

theorem test_meets_DecodeSelectsExactlyTheOpcodeMap :
    decode 0x0000000C = .ok .xfer ∧ (0x0000000C : Word) = encode .xfer := ⟨rfl, rfl⟩

theorem test_meets_IllegalWordsCompleteWithIllegalCmd :
    decode 0 = .ok .nop
    ∧ (∃ (s : State) (cw : Word), s.inputs = [.engine] ∧ s.pending = some cw ∧ cw.extractLsb' 8 24 ≠ 0)
    ∧ ∃ (s : State) (cw : Word), s.inputs = [.engine] ∧ s.pending = some cw ∧ 0x0D ≤ (cw.extractLsb' 0 8).toNat :=
  ⟨rfl, ⟨{ inFlight 0x00000102 with inputs := [.engine] }, 0x00000102, rfl, rfl, by decide⟩,
    ⟨{ inFlight 0x0000000D with inputs := [.engine] }, 0x0000000D, rfl, rfl, by decide⟩⟩

theorem test_meets_StepRunsTheDecodedCommand :
    ((inFlight 2).pending = some 2 ∧ decode 2 = .ok .encb ∧ Instr.encb.wf = true ∧ (inFlight 2).inputs = [])
    ∧ ({ inFlight 2 with inputs := [.engine, .engine] } : State).inputs = .engine :: [.engine]
    ∧ decodeTableWord 32 0x0C = some .xfer := ⟨⟨rfl, rfl, rfl, rfl⟩, rfl, rfl⟩

theorem test_meets_StepTakesInputsInOrder :
    ({ State.reset with inputs := [.host ⟨.read, 0, .word, 0⟩] } : State).inputs = .host ⟨.read, 0, .word, 0⟩ :: []
    ∧ ({ State.reset with inputs := [.resetPin, .engine] } : State).inputs = .resetPin :: [.engine]
    ∧ (State.reset.pending = none ∧ State.reset.inputs = [])
    ∧ ({ State.reset with inputs := [.engine] } : State).inputs = .engine :: [] := ⟨rfl, rfl, ⟨rfl, rfl⟩, rfl⟩

theorem test_meets_NopCompletes : ∃ s t : State, exec .nop s = .next t ∧ s.statusWord = 0x00000506 :=
  ⟨{ State.reset with done := true, errcode := .noTable }, _, rfl, by decide⟩

theorem test_meets_ExpandCompletes : State.reset.key = Vector.replicate 4 0 := by decide

theorem test_meets_SeedTableIsArithmetic : 24 + 1 < 26 ∧ 25 < 26 := by decide

theorem test_meets_KeyBytesAndWordsAgree : (0 < 4 ∧ 3 < 4) ∧ 3 < 4 ∧ 0 < 4 := by decide

theorem test_meets_BlockCommandsComplete :
    (expanded State.reset).tv = true ∧ State.reset.tv = false
    ∧ ∃ t, exec .encb (expanded State.reset) = .next t :=
  ⟨rfl, rfl, _, rfl⟩

theorem test_meets_CodecLaws : 1 < 2 * (([0x61] : List Byte).length + 7) / 8 ∧ ([1, 2] : List Word).length % 2 = 0 := by
  decide

/-- PAD: the longest message, the empty one, one too long and one not written. -/
theorem test_meets_PadCompletes :
    (∃ (s : State) (d : List Byte), s.inCount ≤ Config.bufBytes ∧ s.inCount = Config.bufBytes ∧ s.inBuf.readBytes 0 s.inCount = some d)
    ∧ (∃ (s : State) (d : List Byte), s.inCount ≤ Config.bufBytes ∧ s.inCount = 0 ∧ s.inBuf.readBytes 0 s.inCount = some d)
    ∧ (∃ s : State, Config.bufBytes < s.inCount)
    ∧ ∃ s : State, s.inCount ≤ Config.bufBytes ∧ s.inBuf.readBytes 0 s.inCount = none :=
  have h := zeroMessage_meets Config.bufBytes (le_refl _)
  have h0 := zeroMessage_meets 0 (Nat.zero_le _)
  ⟨⟨_, _, h.2.1, h.1, h.2.2⟩, ⟨_, _, h0.2.1, h0.1, h0.2.2⟩, ⟨_, tooLong_meets⟩, ⟨_, unwritten_meets⟩⟩

theorem test_meets_EncmCompletes :
    (∃ (s : State) (d : List Byte), s.inCount ≤ Config.bufBytes ∧ s.inCount = Config.bufBytes ∧ s.tv = true
      ∧ s.inBuf.readBytes 0 s.inCount = some d)
    ∧ (∃ s : State, Config.bufBytes < s.inCount)
    ∧ (∃ s : State, s.inCount ≤ Config.bufBytes ∧ s.inCount = Config.bufBytes ∧ s.tv = false)
    ∧ (∃ s : State, s.inCount ≤ Config.bufBytes ∧ s.tv = true ∧ s.inBuf.readBytes 0 s.inCount = none)
    ∧ ∃ d : List Byte, 8 * (0 + 1) ≤ d.length ∧ 8 * (1 + 1) ≤ d.length ∧ blockAt d 0 = blockAt d 1 :=
  have h := zeroMessage_meets Config.bufBytes (le_refl _)
  have e := expandedMessage_meets Config.bufBytes (le_refl _)
  ⟨⟨_, _, e.2.1, e.1, e.2.2.1, e.2.2.2⟩, ⟨_, tooLong_meets⟩, ⟨_, h.2.1, h.1, zeroMessage_tv _⟩,
    ⟨expanded unwritten, unwritten_meets.1, rfl, unwritten_meets.2⟩, List.replicate 16 0x41, by decide⟩

theorem test_meets_EncmWorksBlockByBlock :
    0 < (([0x61] : List Byte).length + 7) / 8 ∧ 0 < (([0x61, 0x00] : List Byte).length + 7) / 8
    ∧ blockAt (padBlocks [0x61]) 0 = blockAt (padBlocks [0x61, 0x00]) 0 := by decide

theorem test_meets_DecmCompletes :
    (∃ (s : State) (d : List Byte), s.inCount ≤ Config.bufBytes ∧ s.inCount = Config.bufBytes ∧ s.tv = true ∧ s.inCount % 8 = 0
      ∧ s.inBuf.readBytes 0 s.inCount = some d)
    ∧ (∃ s : State, Config.bufBytes < s.inCount)
    ∧ (∃ s : State, s.inCount ≤ Config.bufBytes ∧ s.tv = false)
    ∧ (∃ s : State, s.inCount ≤ Config.bufBytes ∧ s.tv = true ∧ s.inCount % 8 ≠ 0)
    ∧ ∃ s : State, s.inCount ≤ Config.bufBytes ∧ s.tv = true ∧ s.inCount % 8 = 0
        ∧ s.inBuf.readBytes 0 s.inCount = none :=
  have h := zeroMessage_meets Config.bufBytes (le_refl _)
  have e := expandedMessage_meets Config.bufBytes (le_refl _)
  have h8 : (expanded (zeroMessage Config.bufBytes)).inCount % 8 = 0 := e.1.symm ▸ bufBytes_bounds.2.2
  ⟨⟨_, _, e.2.1, e.1, e.2.2.1, h8, e.2.2.2⟩, ⟨_, tooLong_meets⟩, ⟨_, h.2.1, zeroMessage_tv _⟩,
    ⟨expanded { State.reset with inLen := 12 }, by decide +kernel⟩,
    ⟨expanded unwritten, unwritten_meets.1, rfl, rfl, unwritten_meets.2⟩⟩

theorem test_meets_MessageRoundTrip : ([] : List Byte).length % 8 = 0 ∧ (List.replicate 8 (0 : Byte)).length % 8 = 0
    ∧ ([0x61] : List Byte).length % 8 ≠ 0 := by decide

theorem test_meets_TransportRoundTrip : b64dec [0x5A, 0x67, 0x3D, 0x3D] = some [0x66] := by decide +kernel

/-- B64E: the longest message whose text fits, the next longer one, one too long and one not written. -/
theorem test_meets_B64eCompletes :
    (∃ (s : State) (d : List Byte), s.inCount ≤ Config.bufBytes ∧ 4 * ((s.inCount + 2) / 3) ≤ Config.bufBytes
      ∧ 4 * ((s.inCount + 2) / 3) = Config.bufBytes ∧ s.inBuf.readBytes 0 s.inCount = some d)
    ∧ (∃ s : State, Config.bufBytes < s.inCount)
    ∧ (∃ s : State, s.inCount ≤ Config.bufBytes ∧ Config.bufBytes < 4 * ((s.inCount + 2) / 3))
    ∧ (∃ s : State, s.inCount ≤ Config.bufBytes ∧ 4 * ((s.inCount + 2) / 3) ≤ Config.bufBytes
        ∧ s.inBuf.readBytes 0 s.inCount = none)
    ∧ ([0, 1, 2, 3] : List Byte).length % 3 = 1 ∧ ([0, 1] : List Byte).length % 3 = 2 := by
  obtain ⟨hl, hn, hm⟩ := longest_text
  obtain ⟨h1, h2, h3⟩ := zeroMessage_meets (3 * Config.bufBytes / 4) (by omega)
  obtain ⟨k1, k2, -⟩ := zeroMessage_meets (3 * Config.bufBytes / 4 + 1) hm
  exact ⟨⟨_, _, h2, by rw [h1]; exact hl.le, by rw [h1]; exact hl, h3⟩, ⟨_, tooLong_meets⟩, ⟨_, k2, by rw [k1]; exact hn⟩,
    ⟨unwritten, unwritten_meets.1, by decide +kernel, unwritten_meets.2⟩, by decide, by decide⟩

/-- The text "Zg==" and "Zh==". -/
theorem test_meets_B64dCompletes :
    (∃ (s : State) (t o : List Byte), s.inCount ≤ Config.bufBytes ∧ s.inBuf.readBytes 0 s.inCount = some t ∧ b64dec t = some o)
    ∧ (∃ (s : State) (t : List Byte), s.inCount ≤ Config.bufBytes ∧ s.inBuf.readBytes 0 s.inCount = some t ∧ b64dec t = none)
    ∧ (∃ s : State, Config.bufBytes < s.inCount)
    ∧ ∃ s : State, s.inCount ≤ Config.bufBytes ∧ s.inBuf.readBytes 0 s.inCount = none :=
  ⟨⟨withMessage [0x5A, 0x67, 0x3D, 0x3D], [0x5A, 0x67, 0x3D, 0x3D], [0x66], by decide +kernel⟩,
    ⟨withMessage [0x5A, 0x68, 0x3D, 0x3D], [0x5A, 0x68, 0x3D, 0x3D], by decide +kernel⟩, ⟨_, tooLong_meets⟩,
    ⟨_, unwritten_meets⟩⟩

/-- The key text of the zero key. -/
def zeroKeyText : List Byte := List.replicate 22 0x41 ++ [0x3D, 0x3D]

/-- KEYD: 16 bytes; 15 and 18 bytes; an invalid text. -/
theorem test_meets_KeydCompletes :
    (∃ (s : State) (t o : List Byte), s.inCount ≤ Config.bufBytes ∧ s.inBuf.readBytes 0 s.inCount = some t ∧ b64dec t = some o ∧ o.length = 16)
    ∧ (∀ n, n = 20 ∨ n = 24 → ∃ (s : State) (t o : List Byte), s.inCount ≤ Config.bufBytes ∧ s.inBuf.readBytes 0 s.inCount = some t
      ∧ t.length = n ∧ b64dec t = some o ∧ o.length ≠ 16)
    ∧ (∃ (s : State) (t : List Byte), s.inCount ≤ Config.bufBytes ∧ s.inBuf.readBytes 0 s.inCount = some t ∧ b64dec t = none)
    ∧ (∃ s : State, Config.bufBytes < s.inCount)
    ∧ ∃ s : State, s.inCount ≤ Config.bufBytes ∧ s.inBuf.readBytes 0 s.inCount = none := by
  refine ⟨⟨withMessage zeroKeyText, zeroKeyText, List.replicate 16 0, by decide +kernel⟩, ?_,
    ⟨withMessage [0x5A, 0x68, 0x3D, 0x3D], [0x5A, 0x68, 0x3D, 0x3D], by decide +kernel⟩, ⟨_, tooLong_meets⟩,
    ⟨_, unwritten_meets⟩⟩
  rintro n (rfl | rfl)
  · exact ⟨withMessage (List.replicate 20 0x41), List.replicate 20 0x41, List.replicate 15 0, by decide +kernel⟩
  · exact ⟨withMessage (List.replicate 24 0x41), List.replicate 24 0x41, List.replicate 18 0, by decide +kernel⟩

theorem test_meets_GenkCompletes : (∃ s : State, s.drawnEntropy = some countKey) ∧ ∃ s : State, s.drawnEntropy = none :=
  ⟨⟨{ State.reset with entropy := [some countKey] }, rfl⟩, ⟨{ State.reset with entropy := [none] }, rfl⟩⟩

theorem test_meets_GenkThenXferThenKeydLoadsTheDraw :
    ∃ s : State, s.drawnEntropy = some (Vector.replicate 16 0xFF) :=
  ⟨{ State.reset with entropy := [some (Vector.replicate 16 0xFF)] }, rfl⟩

/-- U8CK: U+10FFFF, the first value above it, and an unwritten byte. -/
theorem test_meets_U8ckCompletes :
    (∃ (s : State) (d : List Byte), s.outBuf.readBytes 0 s.outCount = some d ∧ utf8Valid d = true)
    ∧ (∃ (s : State) (d : List Byte), s.outBuf.readBytes 0 s.outCount = some d ∧ utf8Valid d = false)
    ∧ ∃ s : State, s.outBuf.readBytes 0 s.outCount = none :=
  ⟨⟨withResult [0xF4, 0x8F, 0xBF, 0xBF], [0xF4, 0x8F, 0xBF, 0xBF], by decide +kernel⟩,
    ⟨withResult [0xF4, 0x90, 0x80, 0x80], [0xF4, 0x90, 0x80, 0x80], by decide +kernel⟩,
    ⟨{ State.reset with outLen := 1 }, rfl⟩⟩

/-- XFER: the longest output and the empty one. -/
theorem test_meets_XferCompletes :
    (∃ (s : State) (d : List Byte), s.outBuf.readBytes 0 s.outCount = some d ∧ s.outCount = Config.bufBytes)
    ∧ (∃ (s : State) (d : List Byte), s.outBuf.readBytes 0 s.outCount = some d ∧ s.outCount = 0)
    ∧ ∃ s : State, s.BufInv := by
  obtain ⟨hc, hr⟩ := withResult_meets (List.replicate Config.bufBytes 0) (by simp)
  exact ⟨⟨_, _, hr, by rw [hc]; simp⟩, ⟨State.reset, [], rfl, rfl⟩, State.reset,
    ⟨Memory.nil_sound, Memory.nil_sound, Nat.zero_le _, fun _ h => absurd h (Nat.not_lt_zero _)⟩⟩

theorem test_meets_LengthThenTableAreCheckedFirst :
    (Instr.keyd ∈ inputCommands ∧ Config.bufBytes < tooLong.inCount)
    ∧ (Instr.encb ∈ [Instr.encb, .decb, .encm, .decm] ∧ tooLong.tv = false)
    ∧ (Instr.decm ∈ [Instr.encb, .decb, .encm, .decm] ∧ (zeroMessage Config.bufBytes).tv = false
      ∧ (zeroMessage Config.bufBytes).inCount ≤ Config.bufBytes) :=
  ⟨⟨by decide, tooLong_meets⟩, ⟨by decide, rfl⟩, by decide, zeroMessage_tv _, (zeroMessage_meets _ (le_refl _)).2.1⟩

theorem test_meets_FailingCommandWritesNothing :
    (∃ s t : State, exec .encb s = .next t ∧ t.errcode ≠ .ok) ∧ ∃ s t : State, exec .genk s = .next t ∧ t.errcode ≠ .ok :=
  ⟨⟨State.reset, _, rfl, by decide⟩, ⟨{ State.reset with entropy := [none] }, _, rfl, by decide⟩⟩

theorem test_meets_ErrorCodesAreTheTables : ∃ t, exec .decb State.reset = .next t := ⟨_, rfl⟩

theorem test_meets_CompletionSetsDone : ∃ t, exec .xfer State.reset = .next t := ⟨_, rfl⟩

theorem test_meets_CommandsWriteOnlyTheirOperands : ∃ t, exec .nop State.reset = .next t ∧ Instr.nop ∉ [Instr.encb, .decb]
    ∧ Instr.nop ≠ .keyd ∧ Instr.nop ≠ .expand ∧ Instr.nop ∉ [Instr.expand, .keyd] ∧ Instr.nop ≠ .xfer
    ∧ Instr.nop ∉ outputCommands ∧ Instr.nop ≠ .genk := ⟨_, rfl, by decide⟩

/-- For each command with an output, a state in which it succeeds; and one in which ENCM fails. -/
theorem test_meets_OutputLeavesTheRestOfOutBuf :
    (∃ s t : State, Instr.encm ∈ outputCommands ∧ exec .encm s = .next t ∧ t.errcode ≠ .ok)
    ∧ ∀ i ∈ outputCommands, ∃ s t : State, exec i s = .next t ∧ t.errcode = .ok := by
  refine ⟨⟨tooLong, _, by decide, if_pos tooLong_meets, by decide⟩, ?_⟩
  have h (i : Instr) (s : State) (hi : leadsTo (exec i s) (·.errcode = .ok)) : ∃ s t : State, exec i s = .next t ∧ t.errcode = .ok := by
    cases he : exec i s with
    | next t => rw [he] at hi; exact ⟨s, t, he, by simpa [leadsTo] using hi⟩
    | fault f => rw [he] at hi; cases hi
    | refused r => rw [he] at hi; cases hi
  intro i hi
  simp only [outputCommands, List.mem_cons, List.not_mem_nil, or_false] at hi
  rcases hi with rfl | rfl | rfl | rfl | rfl | rfl
  · exact h _ (expanded (withMessage [1])) (by decide +kernel)
  · exact h _ (expanded (withMessage [])) (by decide +kernel)
  · exact h _ (withMessage [1]) (by decide +kernel)
  · exact h _ (withMessage [1]) (by decide +kernel)
  · exact h _ (withMessage []) (by decide +kernel)
  · exact h _ { State.reset with entropy := [some countKey] } (by decide +kernel)

theorem test_meets_OnlyExpandReadsTheKey : Instr.encb ≠ .expand ∧ Instr.encb ≠ .keyd := by decide

theorem test_meets_InputBeyondInLenIsNotRead : Instr.pad ≠ .xfer
    ∧ ∀ a, a < (withMessage [1, 2]).inCount → (buffer [1, 2, 3]).read a = (withMessage [1, 2]).inBuf.read a := by
  refine ⟨by decide, fun a h => ?_⟩
  have h : a < 2 := h
  interval_cases a <;> rfl

theorem test_meets_ResetValues :
    (∃ t, takeInput .resetPin (inFlight 4) = .next t)
    ∧ (∃ (t : State) (w : Word), w.getLsbD 1 = true ∧ transact ⟨.write, 0x004, .word, w⟩ State.reset = .next t)
    ∧ State.reset.pending = none := ⟨⟨_, rfl⟩, ⟨_, 2, by decide, rfl⟩, rfl⟩

theorem test_meets_SoftResetAbortsTheCommandInFlight :
    (0x00000002 : Word).getLsbD 1 = true
    ∧ ((inFlight 4).pending = some 4 ∧ decode 4 = .ok .encm ∧ Instr.encm ∈ outputCommands)
    ∧ ((inFlight 0x0C).pending = some 0x0C ∧ decode 0x0C = .ok .xfer)
    ∧ (decode 9 = .ok .keyd ∧ Instr.keyd ∈ [Instr.nop, .expand, .encb, .decb, .keyd, .u8ck])
    ∧ decode 0x104 = .error .reservedBits := by decide

theorem test_meets_StepKeepsTheBuffersSound : ∃ t, State.reset.BufInv ∧ step State.reset = .next t :=
  ⟨_, ⟨Memory.nil_sound, Memory.nil_sound, Nat.zero_le _, fun _ h => absurd h (Nat.not_lt_zero _)⟩, rfl⟩

theorem test_meets_StepKeepsTheTableValid : ∃ s t : State, s.tv = true ∧ s.TableInv ∧ step s = .next t :=
  ⟨expanded State.reset, _, rfl, fun _ => test_expand_zero.symm, rfl⟩

theorem test_meets_StepKeepsDoneClearWhileBusy : ∃ s t : State, s.busy = true ∧ s.BusyInv ∧ step s = .next t :=
  ⟨inFlight 0, _, rfl, fun _ => rfl, rfl⟩

theorem test_meets_TableIsWrittenOnlyByExpandAndReset : (∃ t, step (inFlight 1) = .next t)
    ∧ (∃ t, step { inFlight 1 with inputs := [.host ⟨.write, 0x004, .word, 2⟩] } = .next t)
    ∧ ∃ t, step { State.reset with inputs := [.resetPin] } = .next t :=
  ⟨⟨_, (rfl : step (inFlight 1) = exec .expand (inFlight 1)).trans (execExpand_eq _)⟩, ⟨_, rfl⟩, _, rfl⟩

theorem test_meets_BusErrorHasNoEffect :
    (0x10002 : Addr).toNat % BusSize.word.bytes ≠ 0
    ∧ ((0x008 : Addr).toNat < 0x10000 ∧ BusSize.half ≠ .word) ∧ ((0xFFFF : Addr).toNat < 0x10000 ∧ BusSize.byte ≠ .word)
    ∧ ∃ t, step { State.reset with fault := some .busError } = .next t := 
  ⟨by decide +kernel, by decide +kernel, by decide +kernel, _, rfl⟩

theorem test_meets_BusyWritesAreDropped : (inFlight 2).busy = true
    ∧ ((⟨.write, 0x00C, .word, 0⟩ : Txn).wf = true ∧ (0x00C : Addr) ≠ 0x004 ∧ (0x00C : Addr) ≠ 0x008)
    ∧ (⟨.write, 0x10001, .byte, 0⟩ : Txn).wf = true
    ∧ (0x00000001 : Word).getLsbD 1 = false ∧ (0x00000003 : Word).getLsbD 1 = true
    ∧ (⟨.write, 0x10001, .half, 0⟩ : Txn).wf = false := by decide +kernel

/-- The ends of each range of addresses. -/
theorem test_meets_BusyReadsAreDraws : (inFlight 2).busy = true
    ∧ ([(0x000 : Addr), 0x004, 0x008, 0x00C, 0x030, 0x03C, 0x0A8, 0xFFFC, 0x010, 0x02C, 0x040, 0x0A4, 0x10000, 0x20000,
        0x3FFFC].all fun a => (⟨.read, a, .word, 0⟩ : Txn).wf) = true
    ∧ (∃ a : Addr, a.toNat = 0x20000 + Config.bufBytes ∧ (⟨.read, a, .word, 0⟩ : Txn).wf = true)
    ∧ ∃ a : Addr, a.toNat = 0x10000 + Config.bufBytes - 4 ∧ (⟨.read, a, .word, 0⟩ : Txn).wf = true := by
  have hb := bufBytes_bounds
  refine ⟨by decide, by decide, ⟨BitVec.ofNat 18 (0x20000 + Config.bufBytes), ?_⟩,
    ⟨BitVec.ofNat 18 (0x10000 + Config.bufBytes - 4), ?_⟩⟩
  all_goals
    refine ⟨by rw [BitVec.toNat_ofNat]; omega, word_wf ?_⟩
    rw [BitVec.toNat_ofNat]
    omega

theorem test_meets_RegisterReadsReturnTheRegister : State.reset.busy = false
    ∧ (0x02C : Addr).toNat = 0x020 + 4 * (3 : Fin 4).val ∧ (0x0A4 : Addr).toNat = 0x040 + 4 * (25 : Fin 26).val
    ∧ ([(0x030 : Addr), 0x03C].all fun a => a.toNat % 4 = 0 ∧ 0x030 ≤ a.toNat ∧ a.toNat < 0x040) = true
    ∧ ([(0x0A8 : Addr), 0xFFFC].all fun a => a.toNat % 4 = 0 ∧ 0x0A8 ≤ a.toNat ∧ a.toNat < 0x10000) = true
    ∧ ((⟨.read, 0x3FFFF, .byte, 0⟩ : Txn).wf = true ∧ 0x20000 + Config.bufBytes ≤ (0x3FFFF : Addr).toNat)
    ∧ ∃ a : Addr, a.toNat = 0x20000 + Config.bufBytes ∧ (⟨.read, a, .word, 0⟩ : Txn).wf = true := by
  have hb := bufBytes_bounds
  have ha : (0x3FFFF : Addr).toNat = 0x3FFFF := by decide
  exact ⟨by decide, by decide, by decide, by decide, by decide, ⟨by decide, by omega⟩, test_meets_BusyReadsAreDraws.2.2.1⟩

theorem test_meets_ReadsHaveNoSideEffect :
    (∃ t, transact ⟨.read, 0x000, .word, 0⟩ State.reset = .next t ∧ State.reset.busy = false)
    ∧ ∃ t, transact ⟨.read, 0x010, .word, 0⟩ (inFlight 0) = .next t := ⟨⟨_, rfl, rfl⟩, _, rfl⟩

theorem test_meets_RegisterWritesWhenIdle : State.reset.busy = false
    ∧ (0x020 : Addr).toNat = 0x020 + 4 * (0 : Fin 4).val ∧ (0x00000001 : Word).getLsbD 1 = false
    ∧ ([(0x000 : Addr), 0x014, 0x030, 0xFFFC, 0x20000, 0x3FFFC].all fun a => (⟨.write, a, .word, 0⟩ : Txn).wf) = true
    ∧ ∃ a : Addr, a.toNat = 0x20000 + Config.bufBytes ∧ (⟨.write, a, .word, 0⟩ : Txn).wf = true :=
  ⟨by decide, by decide, by decide, by decide, test_meets_BusyReadsAreDraws.2.2.1.imp fun _ h => ⟨h.1, h.2⟩⟩

theorem test_meets_KeyWriteClearsTableValid : (0x02C : Addr).toNat = 0x020 + 4 * (3 : Fin 4).val
    ∧ (expanded State.reset).busy = false ∧ (expanded (inFlight 2)).busy = true := by decide

theorem test_meets_CmdWriteIssues : State.reset.busy = false ∧ (inFlight 2).busy = true
    ∧ ∃ t, transact ⟨.write, 0x00C, .word, 1⟩ (inFlight 2) = .next t := ⟨rfl, rfl, _, rfl⟩

/-- A word at the end of each buffer, written and unwritten. -/
theorem test_meets_WindowAccessIsLittleEndian :
    ∃ (a b : Addr) (o : Nat), State.reset.busy = false ∧ a.toNat = 0x10000 + o ∧ b.toNat = 0x20000 + o
      ∧ o + 4 = Config.bufBytes ∧ o < Config.bufBytes ∧ o % BusSize.word.bytes = 0
      ∧ (Memory.writeBytes [] o [1, 2, 3, 4]).readBytes o BusSize.word.bytes = some [1, 2, 3, 4]
      ∧ State.reset.inBuf.readBytes o BusSize.word.bytes = none
      ∧ State.reset.outBuf.readBytes o BusSize.word.bytes = none := by
  have hb := bufBytes_bounds
  refine ⟨BitVec.ofNat 18 (0x10000 + (Config.bufBytes - 4)), BitVec.ofNat 18 (0x20000 + (Config.bufBytes - 4)),
    Config.bufBytes - 4, rfl, ?_, ?_, by omega, by omega, ?_, Memory.readBytes_writeBytes [] _ [1, 2, 3, 4], rfl, rfl⟩
  · rw [BitVec.toNat_ofNat]; omega
  · rw [BitVec.toNat_ofNat]; omega
  · show (Config.bufBytes - 4) % 4 = 0
    omega

/-- irq rises at a completion and at a CTRL write; it falls at a STATUS write, a CMD write, a CTRL write and a reset. -/
theorem test_meets_IrqRisesAndFallsByTheRule :
    (∃ s t : State, engineTurn s = .next t ∧ s.pending ≠ none)
    ∧ (∃ s t : State, step s = .next t ∧ s.irq = false ∧ t.irq = true ∧ s.inputs = [])
    ∧ (∃ (s t : State) (w : Word), step s = .next t ∧ s.irq = false ∧ t.irq = true ∧ s.inputs = [.host ⟨.write, 0x004, .word, w⟩])
    ∧ ∀ i ∈ [Input.host ⟨.write, 0x008, .word, 2⟩, .host ⟨.write, 0x00C, .word, 0⟩, .host ⟨.write, 0x004, .word, 0⟩, .resetPin],
        ∃ s t : State, step s = .next t ∧ s.irq = true ∧ t.irq = false ∧ s.inputs = [i] := by
  refine ⟨⟨inFlight 0, _, rfl, by decide⟩, ⟨{ inFlight 0 with ie := true }, _, rfl, rfl, rfl, rfl⟩,
    ⟨{ State.reset with done := true, inputs := [.host ⟨.write, 0x004, .word, 1⟩] }, _, 1, rfl, rfl, rfl, rfl⟩, ?_⟩
  intro i hi
  refine ⟨{ State.reset with done := true, ie := true, inputs := [i] }, ?_⟩
  simp only [List.mem_cons, List.not_mem_nil, or_false] at hi
  rcases hi with rfl | rfl | rfl | rfl <;> exact ⟨_, rfl, rfl, rfl, rfl⟩

theorem test_meets_OperandsAreFixedWhilePending :
    ∃ t, (inFlight 2).busy = true ∧ transact ⟨.write, 0x020, .word, 1⟩ (inFlight 2) = .next t := ⟨_, rfl, rfl⟩

/-- A dutiful transaction while busy, and a dutiful read of a buffer. -/
theorem test_meets_DutifulHostIsSafe : dutiful ⟨.read, 0x008, .word, 0⟩ (inFlight 2) = true
    ∧ dutiful ⟨.write, 0x10000, .byte, 7⟩ State.reset = true
    ∧ dutiful ⟨.read, 0x20000, .half, 0⟩ (withResult [1, 2]) = true ∧ (withResult [1, 2]).ovr = false := by decide +kernel

theorem test_meets_PendingCommandCompletes :
    ∃ t, Host.Core.run Sys2Proof.core ((inFlight 0).inputs.length + 1) (inFlight 0) = .next t :=
  ⟨_, run_next 0 rfl⟩

theorem test_meets_EncryptThenDecryptReturnsThePaddedText :
    (utf8Valid [0x61] = true ∧ ∃ c, encryptText zeroKeyText [0x61] = .ok c)
    ∧ keydec [0x73, 0x68, 0x6F, 0x72, 0x74] = none := by
  have hk : keydec zeroKeyText = some (Vector.replicate 16 0) := by decide +kernel
  exact ⟨⟨rfl, _, by rw [encryptText, hk]⟩, rfl⟩

end Sys2Proof.Tests
end

