-- ==== Sys2Proof/Proofs/Reset.lean ====
section
/-! The reset as the host sees it (10_state.md R37, 70_reset_and_hazards.md R186 to R188), and the statement about its values. -/

namespace Sys2Proof.Machine

/-- A CTRL write with SRST = 1 is accepted, busy or not, and is a reset answered OK (R188). -/
theorem transact_softReset (s : State) {w : Word} (h : w.getLsbD 1 = true) :
    transact ⟨.write, 0x004, .word, w⟩ s = .next (s.resetAction.respond ⟨.ok, none⟩) := by
  have htarget : target 0x004 = .ctrl := rfl
  rw [transact_write (word_wf rfl) fun _ => rfl, htarget, State.writeTarget, if_pos h]

/-- The reset input and a soft reset differ in the last answer on the bus alone (R186, R188). -/
theorem eq_resetAction_of_reset {s t : State}
    (h : takeInput .resetPin s = .next t
      ∨ ∃ w : Word, w.getLsbD 1 = true ∧ transact ⟨.write, 0x004, .word, w⟩ s = .next t) :
    ∃ r, t = { s.resetAction with resp := r } := by
  rcases h with hpin | ⟨w, hw, hwrite⟩
  · cases hpin
    exact ⟨s.resp, rfl⟩
  · rw [transact_softReset s hw] at hwrite
    cases hwrite
    exact ⟨some ⟨.ok, none⟩, rfl⟩

/-- Every item of R37's table has its reset value in `t`: all that is left open are the buffers, the record of the bus and the
model's own fields. -/
def State.RegistersReset (t : State) : Prop :=
  t = { State.reset with
    inBuf := t.inBuf
    outBuf := t.outBuf
    fault := t.fault
    resp := t.resp
    inputs := t.inputs
    entropy := t.entropy
    draws := t.draws }

theorem reset_registersReset : State.reset.RegistersReset := rfl

theorem resetAction_registersReset (s : State) (r : Option Response) :
    ({ s.resetAction with resp := r } : State).RegistersReset := rfl

theorem State.RegistersReset.key {t : State} (h : t.RegistersReset) : t.key = Vector.replicate 4 0 :=
  congrArg State.key h

theorem State.RegistersReset.subkey {t : State} (h : t.RegistersReset) : t.subkey = Vector.replicate 26 0 :=
  congrArg State.subkey h

/-- STATUS reads zero: no flag is set and ERRCODE is OK (R19, R37). -/
theorem State.RegistersReset.statusWord {t : State} (h : t.RegistersReset) : t.statusWord = 0 :=
  (congrArg State.statusWord h :).trans (by decide : State.reset.statusWord = 0)

/-- ID reads its constant in every state, busy or not (R17, R62). -/
theorem transact_read_id (s : State) (w : Word) :
    transact ⟨.read, 0x000, .word, w⟩ s = .next { s with resp := some ⟨.ok, some 0x0720100C⟩ } :=
  transact_read (word_wf rfl) (fun _ => rfl) rfl

/-- Settles O38: every kind of reset leads to a state that differs from the first reset's in fields outside R37's table, and with
nothing pending there is no buffer to abort. -/
theorem resetValues : Obligations.ResetValues := by
  unfold Obligations.ResetValues
  refine ⟨fun s t h => ?_, fun a => ⟨rfl, rfl⟩, fun s t hidle h => ?_⟩
  · have hreset : t.RegistersReset := by
      rcases h with rfl | h
      · exact reset_registersReset
      · obtain ⟨r, rfl⟩ := eq_resetAction_of_reset h
        exact resetAction_registersReset s r
    exact ⟨congrArg State.ie hreset, congrArg State.ctrlWord hreset, hreset.statusWord, congrArg State.busy hreset,
      congrArg State.done hreset, congrArg State.err hreset, congrArg State.tv hreset, congrArg State.ovr hreset,
      congrArg State.errcode hreset, congrArg State.inLen hreset, congrArg State.outLen hreset,
      congrArg State.blkA hreset, congrArg State.blkB hreset, fun j => by simp [hreset.key],
      fun i => by simp [hreset.subkey], congrArg State.pending hreset, congrArg State.irq hreset,
      transact_read_id t 0⟩
  · obtain ⟨r, rfl⟩ := eq_resetAction_of_reset h
    exact resetAction_buffers_of_idle s hidle

end Sys2Proof.Machine
end

