-- ==== Sys2Proof/Proofs/KeyWrite.lean ====
section
/-! Host writes to the key registers (10_state.md R25, R26; 20_memory.md R61). -/

namespace Sys2Proof.Machine

section KeyRegister
variable {s : State} {a : Addr} {j : Fin 4} {w : Word}

/-- A write to KEYj when not busy sets that register and clears TV, whatever the old value (R26). -/
theorem transact_write_key (ha : a.toNat = 0x020 + 4 * j.val) (hb : s.busy = false) :
    transact ⟨.write, a, .word, w⟩ s =
      .next { s with key := s.key.set j.val w, tv := false, resp := some ⟨.ok, none⟩ } := by
  rw [transact_write (word_wf (by omega)) (by simp [hb]), target_key ha]
  rfl

/-- A write to KEYj while busy is dropped (R61). -/
theorem transact_write_key_busy (ha : a.toNat = 0x020 + 4 * j.val) (hb : s.busy = true) :
    transact ⟨.write, a, .word, w⟩ s = .next { s with ovr := true, resp := some ⟨.ok, none⟩ } :=
  transact_write_dropped (word_wf (by omega)) hb (by rw [target_key ha]; rfl)

end KeyRegister

/-- Settles O51: the write is accepted or dropped as the engine is idle or busy. -/
theorem keyWriteClearsTableValid : Obligations.KeyWriteClearsTableValid := by
  unfold Obligations.KeyWriteClearsTableValid
  intro s a j w ha
  cases hb : s.busy with
  | false => exact ⟨_, transact_write_key ha hb, fun _ => ⟨rfl, rfl⟩, by simp⟩
  | true => exact ⟨_, transact_write_key_busy ha hb, by simp, fun _ => ⟨rfl, rfl⟩⟩

end Sys2Proof.Machine
end

