-- ==== Sys2Proof/Proofs/BusyWrite.lean ====
section
/-! Host writes while busy (20_memory.md R61): accepted at CTRL and STATUS alone. -/

namespace Sys2Proof.Machine

/-- Of the registers, only those at 0x004 and 0x008 take a write while busy (R61). -/
theorem regTarget_not_acceptedWhileBusy {n : Nat} (h4 : n ≠ 0x004) (h8 : n ≠ 0x008) :
    (regTarget n).acceptedWhileBusy = false := by
  unfold regTarget
  rw [if_neg h4, if_neg h8]
  split_ifs <;> rfl

/-- No offset but CTRL's and STATUS's takes a write while busy, in the whole aperture (R61). -/
theorem target_not_acceptedWhileBusy {a : Addr} (h4 : a ≠ 0x004) (h8 : a ≠ 0x008) :
    (target a).acceptedWhileBusy = false := by
  by_cases hreg : a.toNat < 0x10000
  case pos =>
    rw [target_reg hreg]
    exact regTarget_not_acceptedWhileBusy (fun h => h4 (BitVec.eq_of_toNat_eq h)) fun h => h8 (BitVec.eq_of_toNat_eq h)
  case neg =>
    unfold target
    simp only [if_neg hreg]
    split_ifs <;> rfl

/-- A misaligned or wrong-size access is answered ERR, busy or not (R51). -/
theorem transact_not_wf {t : Txn} (s : State) (h : t.wf = false) : transact t s = .next (s.busError t.kind) := by
  simp [transact, h]

/-- A CTRL write with SRST = 0 sets IE, busy or not (R18, R61). -/
theorem transact_write_ctrl (s : State) {w : Word} (h : w.getLsbD 1 = false) :
    transact ⟨.write, 0x004, .word, w⟩ s = .next { s with ie := w.getLsbD 0, resp := some ⟨.ok, none⟩ } := by
  have htarget : target 0x004 = .ctrl := rfl
  rw [transact_write (word_wf rfl) fun _ => rfl, htarget, State.writeTarget, if_neg (ne_true_of_eq_false h)]
  rfl

/-- A STATUS write clears DONE and OVR by its bits, busy or not (R19, R61). -/
theorem transact_write_status (s : State) (w : Word) :
    transact ⟨.write, 0x008, .word, w⟩ s = .next ((s.clearFlags w).respond ⟨.ok, none⟩) :=
  transact_write (word_wf rfl) fun _ => rfl

/-- Settles O46: a write that the engine performs is dropped unless its offset is one of the two that R61 accepts. -/
theorem busyWritesAreDropped : Obligations.BusyWritesAreDropped := by
  unfold Obligations.BusyWritesAreDropped
  intro s a z w hbusy
  exact ⟨fun hwf h4 h8 => transact_write_dropped hwf hbusy (target_not_acceptedWhileBusy h4 h8),
    transact_write_ctrl s, transact_softReset s, transact_write_status s w,
    fun hwf => ⟨_, transact_not_wf s hwf, rfl⟩⟩

end Sys2Proof.Machine
end

