-- ==== Sys2Proof/Proofs/Window.lean ====
section
/-! Host accesses to the buffer windows when the engine is idle (20_memory.md R52, R54, R55). -/

namespace Sys2Proof.Machine

/-- The bytes of a bus write, by place (R52). -/
theorem leBytes_getElem? (w : Word) {n k : Nat} (h : k < n) : (leBytes n w)[k]? = some (w.extractLsb' (8 * k) 8) := by
  simp [leBytes, h]

/-- A buffer after the bytes of a bus write: byte k of the data at offset `o + k`, every other byte as it was (R52). -/
theorem read_writeBytes_leBytes (m : Memory) (o n k : Nat) (w : Word) :
    (m.writeBytes o (leBytes n w)).read k =
      if o ≤ k ∧ k < o + n then some (w.extractLsb' (8 * (k - o)) 8) else m.read k := by
  rw [Memory.read_writeBytes, leBytes_length]
  split
  case isTrue h => exact leBytes_getElem? w (by omega)
  case isFalse => rfl

/-- The first byte of the read data is in its low eight bits (R52). -/
theorem leJoin_cons_extract_zero (b : Byte) (bs : List Byte) : (leJoin (b :: bs)).extractLsb' 0 8 = b := by
  ext i hi
  simp [leJoin, hi, BitVec.getLsbD_eq_getElem, show i < 32 by omega]

/-- The bytes after the first stand eight bits higher, as far as the word reaches (R52). -/
theorem leJoin_cons_extract_succ (b : Byte) (bs : List Byte) {k : Nat} (h : k + 1 < 4) :
    (leJoin (b :: bs)).extractLsb' (8 * (k + 1)) 8 = (leJoin bs).extractLsb' (8 * k) 8 := by
  ext i hi
  have hshift : 8 * (k + 1) + i - 8 = 8 * k + i := by omega
  simp [leJoin, hshift, BitVec.getLsbD_eq_getElem, show 8 ≤ 8 * (k + 1) + i by omega,
    show 8 * (k + 1) + i < 32 by omega, show ¬ 8 * (k + 1) + i < 8 by omega, show 8 * k + i < 32 by omega]

/-- Byte k of the read data is byte k of the buffer, and zero beyond the access size (R52). -/
theorem leJoin_extract (bs : List Byte) {k : Nat} (h : k < 4) : (leJoin bs).extractLsb' (8 * k) 8 = bs.getD k 0 := by
  induction bs generalizing k with
  | nil => simp [leJoin]
  | cons b bs ih =>
    cases k with
    | zero => exact leJoin_cons_extract_zero b bs
    | succ k => rw [leJoin_cons_extract_succ b bs h, ih (by omega), List.getD_cons_succ]

/-- A read that is no draw and that its target does not answer is the model fault (R55). -/
theorem transact_read_fault {s : State} {a : Addr} {z : BusSize} {w : Word} {f : Fault}
    (hw : (⟨.read, a, z, w⟩ : Txn).wf = true) (hb : s.busy = true → (target a).drawnWhileBusy = false)
    (hf : s.readTarget z.bytes (target a) = .error f) : transact ⟨.read, a, z, w⟩ s = .fault f := by
  rcases transact_cases ⟨.read, a, z, w⟩ s with ⟨h, _⟩ | ⟨_, _, h⟩ | ⟨_, h, _⟩
  · rw [h] at hw; cases hw
  · rcases hostRead_cases ⟨.read, a, z, w⟩ s with ⟨h1, h2, _⟩ | ⟨_, ⟨v, h1, _⟩ | ⟨f', h1, h2⟩⟩
    · rw [hb h1] at h2; cases h2
    · rw [hf] at h1; cases h1
    · rw [hf] at h1; cases h1; rw [h, h2]
  · cases h

section Window
variable {s : State} {a : Addr} {z : BusSize} {w : Word} {o : Nat}

/-- An access at an aligned offset from a window's base is one the engine performs (R51). -/
theorem offset_wf {k : BusKind} {base : Nat} (hbase : 0x10000 ≤ base ∧ base % 4 = 0) (ha : a.toNat = base + o)
    (ho : o % z.bytes = 0) : (⟨k, a, z, w⟩ : Txn).wf = true := by
  refine window_wf (by omega) ?_
  rcases bytes_cases z with hz | hz | hz <;> rw [hz] at ho ⊢ <;> omega

/-- What a read of the IN_BUF window returns (R55). -/
theorem readTarget_inWindow (n : Nat) (ha : a.toNat = 0x10000 + o) (ho : o < Config.bufBytes) :
    s.readTarget n (target a) = windowRead .inBuf s.inBuf o n := by
  rw [target_inWindow ha ho]
  rfl

/-- What a read of the OUT_BUF window returns (R55). -/
theorem readTarget_outWindow (n : Nat) (ha : a.toNat = 0x20000 + o) (ho : o < Config.bufBytes) :
    s.readTarget n (target a) = windowRead .outBuf s.outBuf o n := by
  rw [target_outWindow ha ho]
  rfl

/-- A write to the IN_BUF window stores the low bytes of the data (R52, R54). -/
theorem transact_write_window (hb : s.busy = false) (ha : a.toNat = 0x10000 + o) (ho : o < Config.bufBytes)
    (hal : o % z.bytes = 0) :
    transact ⟨.write, a, z, w⟩ s = .next { s with
      inBuf := s.inBuf.writeBytes o (leBytes z.bytes w), resp := some ⟨.ok, none⟩ } := by
  rw [transact_write (offset_wf (by decide) ha hal) (by simp [hb]), target_inWindow ha ho]
  rfl

variable {b : Buf} {m : Memory}

/-- A window read of written bytes answers them little-endian (R52, R55). -/
theorem transact_read_window {bs : List Byte} (hw : (⟨.read, a, z, w⟩ : Txn).wf = true) (hb : s.busy = false)
    (ht : s.readTarget z.bytes (target a) = windowRead b m o z.bytes) (hbs : m.readBytes o z.bytes = some bs) :
    transact ⟨.read, a, z, w⟩ s = .next { s with resp := some ⟨.ok, some (leJoin bs)⟩ } :=
  transact_read hw (by simp [hb]) (by rw [ht, windowRead, hbs])

/-- A window read that covers an unwritten byte is the model fault (R31, R55). -/
theorem transact_read_window_unwritten (hw : (⟨.read, a, z, w⟩ : Txn).wf = true) (hb : s.busy = false)
    (ht : s.readTarget z.bytes (target a) = windowRead b m o z.bytes) (hnone : m.readBytes o z.bytes = none) :
    transact ⟨.read, a, z, w⟩ s = .fault (.unwrittenBufferRead b) :=
  transact_read_fault hw (by simp [hb]) (by rw [ht, windowRead, hnone])

end Window

/-- Settles O54: the write, the read of either window, and the read of an unwritten byte, each by its law above. -/
theorem windowAccessIsLittleEndian : Obligations.WindowAccessIsLittleEndian := by
  unfold Obligations.WindowAccessIsLittleEndian
  refine ⟨fun s a z w o hb ha ho hal => ?_, fun s a z o bs hb ha ho hal hbs => ?_,
    fun s a z o bs hb ha ho hal hbs => ?_, fun s a z o hb ho hal => ⟨fun ha hnone => ?_, fun ha hnone => ?_⟩⟩
  · exact ⟨_, transact_write_window hb ha ho hal, fun k => read_writeBytes_leBytes s.inBuf o z.bytes k w⟩
  · exact ⟨_, transact_read_window (offset_wf (by decide) ha hal) hb (readTarget_inWindow _ ha ho) hbs,
      fun k => leJoin_extract bs⟩
  · exact ⟨_, transact_read_window (offset_wf (by decide) ha hal) hb (readTarget_outWindow _ ha ho) hbs,
      fun k => leJoin_extract bs⟩
  · exact transact_read_window_unwritten (offset_wf (by decide) ha hal) hb (readTarget_inWindow _ ha ho) hnone
  · exact transact_read_window_unwritten (offset_wf (by decide) ha hal) hb (readTarget_outWindow _ ha ho) hnone

end Sys2Proof.Machine
end

