-- ==== Sys2Proof/Proofs/CommandWord.lean ====
section
/-! The command word: the decoder and the encoder are the opcode map read in its two directions (30_encoding.md R71 to R74). -/

namespace Sys2Proof

/-- The encoding facts of every command, in one statement. -/
theorem Laws.Encoding.all (i : Instr) : Laws.Encoding.Statement i := by
  cases i with
  | nop => exact Laws.Encoding.nop
  | expand => exact Laws.Encoding.expand
  | encb => exact Laws.Encoding.encb
  | decb => exact Laws.Encoding.decb
  | encm => exact Laws.Encoding.encm
  | decm => exact Laws.Encoding.decm
  | pad => exact Laws.Encoding.pad
  | b64e => exact Laws.Encoding.b64e
  | b64d => exact Laws.Encoding.b64d
  | keyd => exact Laws.Encoding.keyd
  | genk => exact Laws.Encoding.genk
  | u8ck => exact Laws.Encoding.u8ck
  | xfer => exact Laws.Encoding.xfer

/-- The check of RSV is that bits 31:8 are zero (R71). -/
theorem rsvOk_iff {w : Word} : rsvOk w = true ↔ w.extractLsb' 8 24 = 0 := beq_iff_eq

/-- The check of OPC is that bits 7:0 are at most 0x0C (R73). -/
theorem opcOk_iff {w : Word} : opcOk w = true ↔ (w.extractLsb' 0 8).toNat ≤ 0x0C := decide_eq_true_iff

/-- RSV and OPC are the whole of a command word (R71). -/
theorem word_eq_of_fields {w v : Word} (hrsv : w.extractLsb' 8 24 = v.extractLsb' 8 24)
    (hopc : w.extractLsb' 0 8 = v.extractLsb' 0 8) : w = v := by
  have hrsv := congrArg BitVec.toNat hrsv
  have hopc := congrArg BitVec.toNat hopc
  simp only [BitVec.extractLsb'_toNat, Nat.shiftRight_eq_div_pow] at hrsv hopc
  exact BitVec.eq_of_toNat_eq (by omega)

/-- An opcode selects a command exactly when it is the low byte of that command's word (R73). -/
theorem opcodeMap_eq_some_iff {n : Nat} {i : Instr} :
    opcodeMap n = some i ↔ n = ((encode i).extractLsb' 0 8).toNat := by
  constructor
  · intro h
    unfold opcodeMap at h
    split at h <;> cases h <;> rfl
  · rintro rfl
    obtain ⟨-, -, hmap, -⟩ := Laws.Encoding.all i
    exact hmap

/-- The rows of R73: opcode and command. -/
def opcodeTable : List (Nat × Instr) :=
  [(0x00, .nop), (0x01, .expand), (0x02, .encb), (0x03, .decb), (0x04, .encm), (0x05, .decm), (0x06, .pad),
   (0x07, .b64e), (0x08, .b64d), (0x09, .keyd), (0x0A, .genk), (0x0B, .u8ck), (0x0C, .xfer)]

/-- The decoder's map has just the rows of the table (R73). -/
theorem opcodeMap_eq_some_iff_mem {n : Nat} {i : Instr} : opcodeMap n = some i ↔ (n, i) ∈ opcodeTable := by
  rw [opcodeMap_eq_some_iff]
  cases i <;> simp [opcodeTable, encode]

/-- The decoder selects a command when RSV is zero and the map has it at OPC (R73). -/
theorem decode_eq_ok_iff {w : Word} {i : Instr} :
    decode w = .ok i ↔ w.extractLsb' 8 24 = 0 ∧ opcodeMap (w.extractLsb' 0 8).toNat = some i := by
  rw [← rsvOk_iff]
  unfold decode
  cases rsvOk w with
  | false => simp
  | true => cases opcodeMap (w.extractLsb' 0 8).toNat <;> simp

/-- Decoding inverts encoding, and no word but a command's own decodes to it (R73, R74). -/
theorem decode_eq_ok_iff_encode {w : Word} {i : Instr} : decode w = .ok i ↔ w = encode i := by
  obtain ⟨hrsv, -⟩ := Laws.Encoding.all i
  rw [rsvOk_iff] at hrsv
  rw [decode_eq_ok_iff, opcodeMap_eq_some_iff]
  constructor
  · rintro ⟨hw, hopc⟩
    exact word_eq_of_fields (hw.trans hrsv.symm) (BitVec.eq_of_toNat_eq hopc)
  · rintro rfl
    exact ⟨hrsv, rfl⟩

/-- Settles O1: the decoder reads R73's table at OPC, and the table's words are the encoder's. -/
theorem decodeSelectsExactlyTheOpcodeMap : Obligations.DecodeSelectsExactlyTheOpcodeMap := by
  unfold Obligations.DecodeSelectsExactlyTheOpcodeMap
  exact ⟨fun _ _ => decode_eq_ok_iff.trans (and_congr_right fun _ => opcodeMap_eq_some_iff_mem),
    fun _ _ => decode_eq_ok_iff_encode⟩

end Sys2Proof
end

