-- ==== Sys2Proof/Proofs/IllegalWord.lean ====
section
/-! Illegal command words (30_encoding.md R74, 60_exceptions.md R163, R164). -/

namespace Sys2Proof.Machine

/-- A word with RSV or OPC out of range is refused by the decoder (R74). -/
theorem decode_error_of_illegal {cw : Word}
    (h : cw.extractLsb' 8 24 ≠ 0 ∨ 0x0D ≤ (cw.extractLsb' 0 8).toNat) : ∃ e, decode cw = .error e := by
  cases hd : decode cw with
  | error e => exact ⟨e, rfl⟩
  | ok i =>
    obtain rfl := decode_eq_ok_iff_encode.1 hd
    obtain ⟨hrsv, hopc, -⟩ := Laws.Encoding.all i
    rw [rsvOk_iff] at hrsv
    rw [opcOk_iff] at hopc
    rcases h with h | h
    · exact absurd hrsv h
    · omega

/-- The engine completes a pending word that the decoder refuses with ILLEGAL_CMD (R74, R163). -/
theorem engineTurn_illegal {s : State} {cw : Word} {e : DecodeError} (hp : s.pending = some cw)
    (hd : decode cw = .error e) : engineTurn s = .next (s.complete .illegalCmd) := by
  simp only [engineTurn, hp, completeWord, hd, raise_eq]

/-- A step whose input is the engine's turn is that turn (R59). -/
theorem step_engine {s : State} {rest : List Input} (h : s.inputs = .engine :: rest) :
    step s = engineTurn { s with inputs := rest } := by
  simp only [step, advance, h, takeInput]

/-- Settles O2: NOP's word is 0 by the encoder; an illegal word is refused by the decoder, and its completion writes ERRCODE,
PENDING and DONE alone. -/
theorem illegalWordsCompleteWithIllegalCmd : Obligations.IllegalWordsCompleteWithIllegalCmd := by
  unfold Obligations.IllegalWordsCompleteWithIllegalCmd
  refine ⟨fun w h => decode_eq_ok_iff_encode.1 h, fun s cw rest hin hp hcw => ?_⟩
  obtain ⟨e, hd⟩ := decode_error_of_illegal hcw
  rw [step_engine hin]
  exact engineTurn_illegal hp hd

end Sys2Proof.Machine
end

