-- ==== Sys2Proof/Proofs/CmdWrite.lean ====
section
/-! The issue of a command, and what the host can change while it is in flight (30_encoding.md R76; 20_memory.md R57, R61). -/

namespace Sys2Proof.Machine

/-- Only CTRL and STATUS take a write while busy (R61). -/
theorem Target.acceptedWhileBusy_iff {g : Target} : g.acceptedWhileBusy = true ↔ g = .ctrl ∨ g = .status := by
  cases g <;> simp [Target.acceptedWhileBusy]

/-- `t` has the command in flight of `s` and all that the command reads: it differs from `s` at most in IE, in the flags DONE and
OVR, and in the records of the bus. -/
def State.SameInFlight (s t : State) : Prop :=
  t = { s with ie := t.ie, done := t.done, ovr := t.ovr, fault := t.fault, resp := t.resp, draws := t.draws }

theorem State.SameInFlight.pending {s t : State} (h : s.SameInFlight t) : t.pending = s.pending :=
  (congrArg State.pending h :)

/-- An accepted write while busy keeps the command in flight, unless it is a soft reset (R18, R61). -/
theorem writeTarget_sameInFlight (s : State) (n : Nat) (w : Word) (r : Response) {g : Target}
    (hg : g.acceptedWhileBusy = true) (hsoft : g = .ctrl → w.getLsbD 1 = false) :
    s.SameInFlight ((s.writeTarget n w g).respond r) := by
  rcases Target.acceptedWhileBusy_iff.1 hg with rfl | rfl
  · rw [State.writeTarget, if_neg (ne_true_of_eq_false (hsoft rfl))]
    rfl
  · rfl

/-- While busy, every host transaction that is answered keeps the command in flight, unless it is a soft reset (R57, R61, R76). -/
theorem transact_sameInFlight {s t : State} {x : Txn} (hb : s.busy = true) (h : transact x s = .next t) :
    s.SameInFlight t ∨ (x.kind = .write ∧ x.addr = 0x004 ∧ x.wdata.getLsbD 1 = true) := by
  rcases transact_cases x s with ⟨_, hx⟩ | ⟨_, _, hx⟩ | ⟨_, hk, hx⟩
  case inl =>
    cases hx.symm.trans h
    exact .inl rfl
  case inr.inl =>
    rcases hostRead_cases x s with ⟨_, _, hr⟩ | ⟨_, ⟨v, _, hr⟩ | ⟨f, _, hr⟩⟩ <;> rw [hx, hr] at h <;> cases h
    · exact .inl rfl
    · exact .inl rfl
  case inr.inr =>
    cases hx.symm.trans h
    rcases hostWrite_cases x s with ⟨_, _, hr⟩ | ⟨hg, hr⟩ <;> rw [hr]
    · exact .inl rfl
    · by_cases hsoft : target x.addr = .ctrl ∧ x.wdata.getLsbD 1 = true
      · obtain ⟨hctrl, hbit⟩ := hsoft
        exact .inr ⟨hk, target_ctrl hctrl, hbit⟩
      · exact .inl (writeTarget_sameInFlight s _ _ _ (hg hb) (by simpa using hsoft))

/-- A CMD write when not busy issues the word (R76). -/
theorem transact_write_cmd {s : State} (cw : Word) (hb : s.busy = false) :
    transact ⟨.write, 0x00C, .word, cw⟩ s = .next ((s.issue cw).respond ⟨.ok, none⟩) :=
  transact_write (word_wf rfl) (by simp [hb])

/-- Settles O52: a CMD write is an issue or dropped as the engine is idle or busy, and while busy the host keeps PENDING but for a
soft reset. -/
theorem cmdWriteIssues : Obligations.CmdWriteIssues := by
  unfold Obligations.CmdWriteIssues
  refine ⟨fun s t x hb h => (transact_sameInFlight hb h).imp_left State.SameInFlight.pending, fun s cw =>
    ⟨fun hb => ?_, fun hb => transact_write_dropped (word_wf rfl) hb rfl⟩⟩
  exact ⟨_, transact_write_cmd cw hb, rfl, rfl, issue_irq s cw, rfl, rfl, rfl, rfl⟩

end Sys2Proof.Machine
end

