-- ==== Sys2Proof/Proofs/InputChecks.lean ====
section
/-! The first checks of a command that reads IN_BUF, each on the condition that decides it (60_exceptions.md R165; 10_state.md
R31). -/

namespace Sys2Proof.Machine

section Checks
variable {s : State}

/-- A message longer than BUF_BYTES is LENGTH, before any byte of it is read (R165). -/
theorem checkInLen_of_long (h : Config.bufBytes < s.inCount) (k : Result) :
    checkInLen s k = .next (s.complete .length) := if_pos h

/-- A message of at most BUF_BYTES passes the length check (R165). -/
theorem checkInLen_of_fits (h : s.inCount ≤ Config.bufBytes) (k : Result) : checkInLen s k = k := if_neg (by omega)

/-- A written message is what the command runs on (R68). -/
theorem withInput_of_written {d : List Byte} (h : s.input = some d) (k : List Byte → Result) : withInput s k = k d := by
  rw [withInput, h]

/-- An unwritten byte in the message is the model fault (R12, R31). -/
theorem withInput_of_unwritten (h : s.input = none) (k : List Byte → Result) :
    withInput s k = .fault (.unwrittenBufferRead .inBuf) := by
  rw [withInput, h]

end Checks

end Sys2Proof.Machine
end

