-- ==== Sys2Proof/Proofs/Codec.lean ====
section
/-! The codec between bytes and words, and PAD (40_codec.md R86 to R91): grouping and splitting are each other's inverse on whole
words, and padding adds nothing but the zero bytes that R86 counts anyway. -/

namespace Sys2Proof.Machine

/-- The word at an offset past the first four bytes is a word of the rest. -/
theorem wordAt_cons_four (b0 b1 b2 b3 : Byte) (d : List Byte) (o : Nat) :
    wordAt (b0 :: b1 :: b2 :: b3 :: d) (o + 4) = wordAt d o := rfl

/-- Zeros at the end leave every word as it was, since a missing byte counts as zero (R86). -/
theorem wordAt_append_zeros (d : List Byte) (n o : Nat) : wordAt (d ++ List.replicate n 0) o = wordAt d o := by
  have hbyte (k : Nat) : (d ++ List.replicate n 0).getD k 0 = d.getD k 0 := by
    rcases Nat.lt_or_ge k d.length with hk | hk
    · exact List.getD_append _ _ _ _ hk
    · rw [List.getD_append_right _ _ _ _ hk, List.getD_eq_default _ _ hk]
      exact List.getElem?_getD_replicate_default_eq ..
  simp only [wordAt, hbyte]

/-- Grouping by place: word k is made of the bytes 4k to 4k + 3 (R86). -/
theorem groupWords_getElem? : (d : List Byte) → (k : Nat) → k < d.length / 4 →
    (groupWords d)[k]? = some (wordAt d (4 * k))
  | _ :: _ :: _ :: _ :: _, 0, _ => rfl
  | b0 :: b1 :: b2 :: b3 :: rest, k + 1, h => by
    have hk : k < rest.length / 4 := by
      simp only [List.length_cons] at h
      omega
    rw [groupWords, List.getElem?_cons_succ, groupWords_getElem? rest k hk, Nat.mul_succ, wordAt_cons_four]
  | [], _, h | [_], _, h | [_, _], _, h | [_, _, _], _, h => by simp at h

/-- Splitting undoes grouping on whole words (R86, R88). -/
theorem wordsToBytes_groupWords : (d : List Byte) → d.length % 4 = 0 → wordsToBytes (groupWords d) = d
  | [], _ => rfl
  | b0 :: b1 :: b2 :: b3 :: rest, h => by
    have hrest : rest.length % 4 = 0 := by
      simp only [List.length_cons] at h
      omega
    rw [groupWords, wordsToBytes_cons, bytesLe_le32, wordsToBytes_groupWords rest hrest]
    rfl
  | [_], h | [_, _], h | [_, _, _], h => by simp at h

/-- Grouping undoes splitting (R86, R88). -/
theorem groupWords_wordsToBytes (ws : List Word) : groupWords (wordsToBytes ws) = ws := by
  induction ws with
  | nil => rfl
  | cons w ws ih =>
    calc groupWords (wordsToBytes (w :: ws))
        = le32 (w.extractLsb' 0 8) (w.extractLsb' 8 8) (w.extractLsb' 16 8) (w.extractLsb' 24 8)
            :: groupWords (wordsToBytes ws) := rfl
      _ = w :: ws := by rw [le32_extract, ih]

/-- A message of whole blocks gets no padding (R87). -/
theorem padBlocks_of_wholeBlocks {d : List Byte} (h : d.length % 8 = 0) : padBlocks d = d := by
  have hlen : padlen d.length - d.length = 0 := by
    unfold padlen
    omega
  rw [padBlocks, hlen, List.replicate_zero, List.append_nil]

/-- Word k of a message, its missing bytes counting as zero (R86). -/
theorem bytesToWords_getElem? {d : List Byte} {k : Nat} (h : k < 2 * ((d.length + 7) / 8)) :
    (bytesToWords d)[k]? = some (wordAt d (4 * k)) := by
  have hk : k < (padBlocks d).length / 4 := by
    rw [padBlocks_length, padlen]
    omega
  rw [bytesToWords, groupWords_getElem? _ k hk, padBlocks, wordAt_append_zeros]

/-- The codec's round trip pads the message to whole blocks (R90, law 1). -/
theorem wordsToBytes_bytesToWords (d : List Byte) : wordsToBytes (bytesToWords d) = padBlocks d := by
  have hpad := padlen_bounds d.length
  exact wordsToBytes_groupWords _ (by rw [padBlocks_length]; omega)

/-- The codec's round trip from an even number of words is the identity (R90, law 2). -/
theorem bytesToWords_wordsToBytes {ws : List Word} (h : ws.length % 2 = 0) : bytesToWords (wordsToBytes ws) = ws := by
  have hwhole : (wordsToBytes ws).length % 8 = 0 := by
    rw [wordsToBytes_length]
    omega
  rw [bytesToWords, padBlocks_of_wholeBlocks hwhole, groupWords_wordsToBytes]

/-- Settles O13: the word by its place, the two round trips, the count, and R90's example of two messages with the same words. -/
theorem codecLaws : Obligations.CodecLaws := by
  unfold Obligations.CodecLaws
  exact ⟨fun _ _ => bytesToWords_getElem?, wordsToBytes_bytesToWords, fun _ => bytesToWords_wordsToBytes,
    bytesToWords_length, by decide, by decide⟩

/-- An output of the padded message, in the words of R91: its bytes at the start of OUT_BUF, its length in OUT_LEN. -/
theorem putOutput_padBlocks (s : State) {d : List Byte} {n : Nat} (h : d.length = n) :
    s.putOutput (padBlocks d) = { s with
      outBuf := s.outBuf.writeBytes 0 (d ++ List.replicate (8 * ((n + 7) / 8) - n) 0),
      outLen := BitVec.ofNat 32 (8 * ((n + 7) / 8)) } := by
  subst h
  rw [State.putOutput, padBlocks_length]
  rfl

/-- PAD's output is the padded message (R91). -/
theorem execPad_written {s : State} {d : List Byte} (hfit : s.inCount ≤ Config.bufBytes) (hin : s.input = some d) :
    exec .pad s = .next ((s.putOutput (padBlocks d)).complete .ok) :=
  calc exec .pad s
      = withInput s fun d => succeed (s.putOutput (wordsToBytes (bytesToWords d))) := checkInLen_of_fits hfit _
    _ = succeed (s.putOutput (wordsToBytes (bytesToWords d))) := withInput_of_written hin _
    _ = .next ((s.putOutput (padBlocks d)).complete .ok) := by rw [wordsToBytes_bytesToWords, succeed_eq]

/-- Settles O14: PAD's output is the padded message; the length check comes before the message is read. -/
theorem padCompletes : Obligations.PadCompletes := by
  unfold Obligations.PadCompletes
  refine ⟨rfl, fun s d hfit hin => ?_, fun s hlong => checkInLen_of_long hlong _, fun s hfit hnone => ?_⟩
  · rw [execPad_written hfit hin, putOutput_padBlocks s (Memory.readBytes_length hin)]
    rfl
  · exact (checkInLen_of_fits hfit _).trans (withInput_of_unwritten hnone _)

end Sys2Proof.Machine
end

