-- ==== Sys2Proof/Proofs/KeySchedule.lean ====
section
/-! The key schedule (41_key_schedule.md R96 to R101): the seed table in closed form, the fixed walk of the two indices through the
passes, and EXPAND's completion. -/

namespace Sys2Proof.Machine

/-- One more multiple of `q` is one more addition of it, modulo 2^32. -/
theorem add_succ_mul (x q : Word) (i : Nat) :
    x + BitVec.ofNat 32 (i + 1) * q = x + BitVec.ofNat 32 i * q + q := by
  rw [BitVec.ofNat_add, BitVec.add_mul, BitVec.one_mul, BitVec.add_assoc]

/-- The words of a seed go up by Q (R97). -/
theorem seedFrom_getElem? {n i : Nat} (x : Word) (h : i < n) :
    (seedFrom n x)[i]? = some (x + BitVec.ofNat 32 i * magicQ) := by
  induction n generalizing x i with
  | zero => omega
  | succ n ih =>
    cases i with
    | zero => simp [seedFrom]
    | succ i => rw [seedFrom, List.getElem?_cons_succ, ih _ (by omega), add_succ_mul, add_right_comm]

/-- `S[i] = P + i·Q` (R97). -/
theorem seedTable_getElem {i : Nat} (h : i < 26) : seedTable[i] = magicP + BitVec.ofNat 32 i * magicQ :=
  (List.getElem_of_getElem? (seedFrom_getElem? magicP h)).snd

/-- Settles O8: the recurrence is the difference of two neighbours of the closed form. -/
theorem seedTableIsArithmetic : Obligations.SeedTableIsArithmetic := by
  unfold Obligations.SeedTableIsArithmetic
  refine fun k => ⟨rfl, fun i h => ?_, fun i h => seedTable_getElem h⟩
  show seedTable[i + 1] = seedTable[i] + magicQ
  rw [seedTable_getElem h, seedTable_getElem (by omega), add_succ_mul]

/-- After n passes each index has gone n places round, whatever the words mixed (R98). -/
theorem mixPasses_indices (n : Nat) (m : Mixing) :
    (mixPasses n m).i.val = (m.i.val + n) % 26 ∧ (mixPasses n m).j.val = (m.j.val + n) % 4 := by
  induction n generalizing m with
  | zero => exact ⟨(Nat.mod_eq_of_lt m.i.isLt).symm, (Nat.mod_eq_of_lt m.j.isLt).symm⟩
  | succ n ih =>
    have hi : (mixPass m).i.val = (m.i.val + 1) % 26 := Fin.val_add m.i 1
    have hj : (mixPass m).j.val = (m.j.val + 1) % 4 := Fin.val_add m.j 1
    rw [mixPasses, (ih _).1, (ih _).2, hi, hj]
    omega

section Schedule
variable (k : Vector Byte 16) (n : Nat)

/-- Before pass n of an expansion, i is n modulo the table's size (R99). -/
theorem mixPasses_mixStart_i : (mixPasses n (mixStart k)).i.val = n % 26 := by
  obtain ⟨hi, -⟩ := mixPasses_indices n (mixStart k)
  rw [hi, mixStart, Fin.val_zero, Nat.zero_add]

/-- Before pass n of an expansion, j is n modulo the number of key words (R99). -/
theorem mixPasses_mixStart_j : (mixPasses n (mixStart k)).j.val = n % 4 := by
  obtain ⟨-, hj⟩ := mixPasses_indices n (mixStart k)
  rw [hj, mixStart, Fin.val_zero, Nat.zero_add]

end Schedule

/-- In v passes, an index that goes round m places from 0 visits each place v / m times, and the first v % m places once more. -/
theorem visits_length {m : Nat} {f : Nat → Fin m} (hf : ∀ n, (f n).val = n % m) (x : Fin m) (v : Nat) :
    ((List.range v).filter fun n => f n == x).length = v / m + if x.val < v % m then 1 else 0 := by
  have hvisit (n : Nat) : (f n == x) = decide (n ≡ x.val [MOD m]) := by
    simp only [Nat.ModEq, Nat.mod_eq_of_lt x.isLt, ← hf, ← Fin.ext_iff, beq_eq_decide]
  calc ((List.range v).filter fun n => f n == x).length
      = Nat.count (· ≡ x.val [MOD m]) v := by simp only [hvisit, Nat.count, List.countP_eq_length_filter]
    _ = v / m + if x.val < v % m then 1 else 0 := by rw [Nat.count_modEq_card v x.pos, Nat.mod_eq_of_lt x.isLt]

/-- Settles O9: both indices go round their places from 0, and 78 = 3·26 = 19·4 + 2. -/
theorem mixingScheduleIsFixed : Obligations.MixingScheduleIsFixed := by
  unfold Obligations.MixingScheduleIsFixed
  refine ⟨fun k => rfl, fun k x => ?_, fun k x => ?_, fun k => ⟨?_, ?_⟩⟩
  · rw [visits_length (mixPasses_mixStart_i k), if_neg (by omega)]
  · rw [visits_length (mixPasses_mixStart_j k)]
    split_ifs <;> omega
  · exact Fin.ext (mixPasses_mixStart_i k 78)
  · exact Fin.ext (mixPasses_mixStart_j k 78)

/-- The byte view of the zero key registers is the zero key (R25). -/
theorem keyBytes_zero : keyBytes (Vector.replicate 4 0) = Vector.replicate 16 0 := by decide

/-- R101's example: the words of the zero key's table. -/
theorem zeroTable_words :
    zeroTable[0] = 0x9BBBD8C8 ∧ zeroTable[1] = 0x1A37F7FB ∧ zeroTable[25] = 0x65046380 := by
  decide +kernel

/-- Settles O7: EXPAND has one answer, which leaves the key, so a second EXPAND writes the same table again. -/
theorem expandCompletes : Obligations.ExpandCompletes := by
  unfold Obligations.ExpandCompletes
  refine ⟨rfl, fun s => ⟨_, execExpand_eq s, rfl, execExpand_eq _, fun hkey => ?_⟩⟩
  have htable : expand (keyBytes s.key) = zeroTable := by rw [hkey, keyBytes_zero, zeroTable]
  simp only [complete_subkey, putTable_subkey, htable]
  exact zeroTable_words

end Sys2Proof.Machine
end

