-- ==== Sys2Proof/Proofs/TableWrites.lean ====
section
/-! What writes the subkey table (41_key_schedule.md R102): EXPAND, the resets, and nothing else. -/

namespace Sys2Proof.Machine

/-- From `s` to `t` the subkeys stay and TV does not rise (R22, R102). -/
def State.KeepsTable (s t : State) : Prop := t.subkey = s.subkey ∧ (t.tv = true → s.tv = true)

/-- `t` holds the expansion of the key of `s`, as EXPAND leaves it (R101). -/
def State.ExpandedTo (s t : State) : Prop :=
  t.subkey = expand (keyBytes s.key) ∧ t.key = s.key ∧ t.tv = true ∧ t.errcode = .ok

/-- Every command but EXPAND keeps the table (R102). -/
theorem exec_table {i : Instr} {s t : State} (h : exec i s = .next t) :
    s.KeepsTable t ∨ (i = .expand ∧ s.ExpandedTo t) := by
  rcases exec_shape i s with ⟨_, _, hx, _⟩ | ⟨_, hx⟩ | ⟨_, _, _, hx⟩ | ⟨_, _, _, _, _, _, _, hx⟩ | ⟨hi, hx⟩ |
    ⟨_, _, hx⟩ | ⟨_, _, hx⟩ | ⟨_, _, _, _, hx⟩ | ⟨_, _, hx⟩ | ⟨_, _, hx⟩ <;> cases hx.symm.trans h
  · exact .inl ⟨rfl, id⟩
  · exact .inl ⟨by simp, by simp⟩
  · exact .inl ⟨by simp, by simp⟩
  · exact .inl ⟨rfl, id⟩
  · exact .inr ⟨hi, rfl, rfl, rfl, rfl⟩
  · exact .inl ⟨rfl, id⟩
  · exact .inl ⟨rfl, by simp⟩
  · exact .inl ⟨rfl, id⟩

/-- The engine's turn keeps the table, unless the pending word is EXPAND's (R102). -/
theorem engineTurn_table {s t : State} (h : engineTurn s = .next t) :
    s.KeepsTable t ∨ (s.pending = some 0x00000001 ∧ s.ExpandedTo t) := by
  rcases engineTurn_cases s with ⟨_, hx⟩ | ⟨_, _, _, _, hx⟩ | ⟨cw, i, hp, hd, hx⟩
  · cases hx.symm.trans h
    exact .inl ⟨rfl, id⟩
  · cases hx.symm.trans h
    exact .inl ⟨rfl, id⟩
  · refine (exec_table (hx.symm.trans h)).imp_right fun ⟨hi, ht⟩ => ⟨?_, ht⟩
    rw [hp, decode_eq_ok_iff_encode.1 hd, hi]
    rfl

/-- An accepted host write keeps the table, unless it is a soft reset (R18, R27, R102). -/
theorem writeTarget_keepsTable (s : State) (n : Nat) {w : Word} {g : Target} (hsoft : g = .ctrl → w.getLsbD 1 = false) :
    s.KeepsTable (s.writeTarget n w g) := by
  cases g
  case ctrl =>
    rw [State.writeTarget, if_neg (ne_true_of_eq_false (hsoft rfl))]
    exact ⟨rfl, id⟩
  case key => exact ⟨rfl, fun h => nomatch h⟩
  all_goals exact ⟨rfl, id⟩

/-- A transaction that the engine performs at a register is a word access (R50). -/
theorem size_eq_word_of_wf {x : Txn} (h : x.wf = true) (hreg : x.addr.toNat < 0x10000) : x.size = .word := by
  simp only [Txn.wf, Txn.sizeOk, Bool.and_eq_true, Bool.or_eq_true, beq_iff_eq, decide_eq_true_iff] at h
  obtain ⟨-, hsize⟩ := h
  exact hsize.resolve_right (by omega)

/-- A host transaction keeps the table, unless it is a CTRL write with SRST = 1 (R102). -/
theorem transact_table {x : Txn} {s t : State} (h : transact x s = .next t) :
    s.KeepsTable t ∨ ∃ w, x = ⟨.write, 0x004, .word, w⟩ ∧ w.getLsbD 1 = true := by
  rcases transact_cases x s with ⟨_, hx⟩ | ⟨_, _, hx⟩ | ⟨hwf, hk, hx⟩
  case inl =>
    cases hx.symm.trans h
    exact .inl ⟨rfl, id⟩
  case inr.inl =>
    rcases hostRead_cases x s with ⟨_, _, hr⟩ | ⟨_, ⟨v, _, hr⟩ | ⟨f, _, hr⟩⟩ <;> rw [hx, hr] at h <;> cases h
    · exact .inl ⟨rfl, id⟩
    · exact .inl ⟨rfl, id⟩
  case inr.inr =>
    cases hx.symm.trans h
    rcases hostWrite_cases x s with ⟨_, _, hr⟩ | ⟨_, hr⟩ <;> rw [hr]
    · exact .inl ⟨rfl, id⟩
    · by_cases hsoft : target x.addr = .ctrl ∧ x.wdata.getLsbD 1 = true
      · obtain ⟨hctrl, hbit⟩ := hsoft
        obtain ⟨kind, addr, size, w⟩ := x
        obtain rfl : addr = 0x004 := target_ctrl hctrl
        obtain rfl : size = .word := size_eq_word_of_wf hwf (show (0x004 : Addr).toNat < 0x10000 by decide)
        obtain rfl : kind = .write := hk
        exact .inr ⟨w, rfl, hbit⟩
      · exact .inl (writeTarget_keepsTable s _ (by simpa using hsoft))

/-- Settles O44: by what the step takes, the engine's turn, the reset input or a host transaction. -/
theorem tableIsWrittenOnlyByExpandAndReset : Obligations.TableIsWrittenOnlyByExpandAndReset := by
  unfold Obligations.TableIsWrittenOnlyByExpandAndReset
  intro s t h
  rcases step_cases s with ⟨hin, hs⟩ | ⟨i, rest, hin, hs⟩ <;> rw [hs] at h
  · exact (engineTurn_table h).imp_right fun hexpand => .inl ⟨.inl hin, hexpand⟩
  · cases i with
    | engine => exact (engineTurn_table h).imp_right fun hexpand => .inl ⟨.inr ⟨rest, hin⟩, hexpand⟩
    | resetPin =>
      obtain ⟨_, rfl⟩ := eq_resetAction_of_reset (.inl h)
      exact .inr (.inr ⟨.inl ⟨rest, hin⟩, rfl, rfl, rfl⟩)
    | host x =>
      refine (transact_table h).imp_right fun ⟨w, hx, hw⟩ => .inr ?_
      subst hx
      obtain ⟨_, rfl⟩ := eq_resetAction_of_reset (.inr ⟨w, hw, h⟩)
      exact ⟨.inr ⟨w, rest, hin, hw⟩, rfl, rfl, rfl⟩

end Sys2Proof.Machine
end

