-- ==== Sys2Proof/Proofs/BlockTransform.lean ====
section
/-! The block transform (42_block_transform.md R111 to R116): decryption undoes encryption round by round in both orders, and what
ENCB and DECB do with and without a valid table. -/

namespace Sys2Proof.Machine

/-- Steps that are each undone by a step of their own are undone together by those taken in reverse order. -/
theorem foldl_reverse_foldl_of_leftInverse {α β : Type} {f g : α → β → α} (h : ∀ x r, g (f x r) r = x) (l : List β) (x : α) :
    l.reverse.foldl g (l.foldl f x) = x := by
  induction l generalizing x with
  | nil => rfl
  | cons r l ih => simp only [List.reverse_cons, List.foldl_append, List.foldl_cons, List.foldl_nil, ih, h]

section Rounds
variable (S : Vector Word 26) (ab : Word × Word) (r : Fin 12)

/-- A round of R113 undoes the round of R112: its B step sees the same A, then its A step the same B (R114). -/
@[simp] theorem decRound_encRound : decRound S (encRound S ab r) r = ab := by
  simp only [decRound, encRound, BitVec.add_sub_cancel, rotr_rotl, BitVec.xor_assoc, BitVec.xor_self, BitVec.xor_zero]

/-- A round of R112 undoes the round of R113: its A step sees the same B, then its B step the same A (R114). -/
@[simp] theorem encRound_decRound : encRound S (decRound S ab r) r = ab := by
  simp only [decRound, encRound, BitVec.xor_assoc, BitVec.xor_self, BitVec.xor_zero, rotl_rotr, BitVec.sub_add_cancel]

end Rounds

section Block
variable (S : Vector Word 26) (a b : Word)

/-- Decryption undoes encryption: the rounds cancel from the last to the first, and then the whitening (R114). -/
@[simp] theorem decryptBlock_encryptBlock :
    decryptBlock S (encryptBlock S a b).1 (encryptBlock S a b).2 = (a, b) := by
  simp only [decryptBlock, encryptBlock, foldl_reverse_foldl_of_leftInverse (decRound_encRound S), BitVec.add_sub_cancel]

/-- Encryption undoes decryption: the whitening cancels, and then the rounds from the first to the last (R114). -/
@[simp] theorem encryptBlock_decryptBlock :
    encryptBlock S (decryptBlock S a b).1 (decryptBlock S a b).2 = (a, b) := by
  have hrounds := foldl_reverse_foldl_of_leftInverse (encRound_decRound S) (List.finRange 12).reverse (a, b)
  rw [List.reverse_reverse] at hrounds
  simp only [decryptBlock, encryptBlock, BitVec.sub_add_cancel, hrounds]

end Block

/-- Settles O11: in each order the rounds cancel one by one. -/
theorem blockTransformRoundTrips : Obligations.BlockTransformRoundTrips := by
  unfold Obligations.BlockTransformRoundTrips
  exact fun S a b => ⟨decryptBlock_encryptBlock S a b, encryptBlock_decryptBlock S a b⟩

section Commands
variable {s : State}

/-- A valid table passes the table check (R165). -/
theorem checkTable_of_valid (h : s.tv = true) (k : Result) : checkTable s k = k := by simp [checkTable, h]

/-- Without a valid table the check answers NO_TABLE (R165). -/
theorem checkTable_of_invalid (h : s.tv = false) (k : Result) : checkTable s k = .next (s.complete .noTable) := by
  simp [checkTable, h, raise_eq]

/-- Under a valid table ENCB encrypts the block register pair (R115). -/
theorem exec_encb_of_valid (h : s.tv = true) :
    exec .encb s = .next ((s.putBlock (encryptBlock s.subkey s.blkA s.blkB)).complete .ok) := checkTable_of_valid h _

/-- Under a valid table DECB decrypts the block register pair (R116). -/
theorem exec_decb_of_valid (h : s.tv = true) :
    exec .decb s = .next ((s.putBlock (decryptBlock s.subkey s.blkA s.blkB)).complete .ok) := checkTable_of_valid h _

/-- DECB after ENCB restores the pair: ENCB leaves the table and TV as they are, so the transforms cancel (R114, R115). -/
theorem exec_decb_of_exec_encb {t : State} (h : s.tv = true) (ht : exec .encb s = .next t) :
    exec .decb t = .next (s.complete .ok) := by
  cases (exec_encb_of_valid h).symm.trans ht
  have htv : ((s.putBlock (encryptBlock s.subkey s.blkA s.blkB)).complete .ok).tv = true := h
  rw [exec_decb_of_valid htv]
  simp only [complete_subkey, complete_blkA, complete_blkB, putBlock_subkey, putBlock_blkA, putBlock_blkB,
    decryptBlock_encryptBlock]
  rfl

end Commands

/-- R115's example: the zero pair under the zero key. -/
theorem encryptBlock_zeroTable_zero : encryptBlock zeroTable 0 0 = (0xEEDBA521, 0x6D8F4B15) := by decide +kernel

/-- R116's example is R115's read backwards. -/
theorem decryptBlock_zeroTable_ciphertext : decryptBlock zeroTable 0xEEDBA521 0x6D8F4B15 = (0, 0) := by
  simpa only [encryptBlock_zeroTable_zero] using decryptBlock_encryptBlock zeroTable 0 0

/-- R116's corner case: a pair that no encryption produced. -/
theorem decryptBlock_zeroTable_zero : decryptBlock zeroTable 0 0 = (0x48E56C13, 0x9616F90F) := by decide +kernel

/-- Settles O12: by the table check each command is either the transform of the pair or NO_TABLE, and the two transforms cancel. -/
theorem blockCommandsComplete : Obligations.BlockCommandsComplete := by
  unfold Obligations.BlockCommandsComplete
  exact ⟨rfl, rfl, fun _ h => exec_encb_of_valid h, fun _ h => exec_decb_of_valid h,
    fun _ h => ⟨checkTable_of_invalid h _, checkTable_of_invalid h _⟩, fun _ _ h ht => exec_decb_of_exec_encb h ht,
    encryptBlock_zeroTable_zero, decryptBlock_zeroTable_ciphertext, decryptBlock_zeroTable_zero⟩

end Sys2Proof.Machine
end

