-- ==== Sys2Proof/Proofs/Message.lean ====
section
/-! Message encryption and decryption (43_facade.md R126 to R130): the transform works block by block, decryption undoes it on the
padded message, and what ENCM and DECM complete with. -/

namespace Sys2Proof.Machine

section Blocks
variable (f g : Word → Word → Word × Word)

/-- Block k of the transformed words is the transform of words 2k and 2k + 1 (R126). -/
theorem blockAt_mapBlocks : (ws : List Word) → (k : Nat) → (a b : Word) → ws[2 * k]? = some a → ws[2 * k + 1]? = some b →
    blockAt (wordsToBytes (mapBlocks f ws)) k = bytesLe (f a b).1 ++ bytesLe (f a b).2
  | _ :: _ :: _, 0, _, _, ha, hb => by
    cases ha
    cases hb
    rfl
  | _ :: _ :: rest, k + 1, a, b, ha, hb => blockAt_mapBlocks rest k a b ha hb
  | [], _, _, _, ha, _ => by simp at ha
  | [_], _, _, _, _, hb => by simp at hb

/-- A block-wise transform is undone by that of the inverse, on an even number of words (R89). -/
theorem mapBlocks_mapBlocks (h : ∀ a b, g (f a b).1 (f a b).2 = (a, b)) :
    (ws : List Word) → ws.length % 2 = 0 → mapBlocks g (mapBlocks f ws) = ws
  | [], _ => rfl
  | [_], hlen => by simp at hlen
  | a :: b :: rest, hlen => by
    have hrest : rest.length % 2 = 0 := by
      simp only [List.length_cons] at hlen
      omega
    rw [mapBlocks, mapBlocks, h, mapBlocks_mapBlocks h rest hrest]

end Blocks

section Message
variable (d : List Byte) (S : Vector Word 26)

/-- A word of a block is the message's word at that place. -/
theorem wordAt_blockAt (k : Nat) {o : Nat} (h : o + 4 ≤ 8) : wordAt (blockAt d k) o = wordAt d (8 * k + o) := by
  have hbyte {i : Nat} (hi : i < 8) : (blockAt d k).getD i 0 = d.getD (8 * k + i) 0 := by
    simp [blockAt, List.getD_eq_getElem?_getD, List.getElem?_take_of_lt hi]
  simp only [wordAt, hbyte (show o < 8 by omega), hbyte (show o + 1 < 8 by omega), hbyte (show o + 2 < 8 by omega),
    hbyte (show o + 3 < 8 by omega), Nat.add_assoc]

/-- Padding leaves every word as it was (R86). -/
theorem wordAt_padBlocks (o : Nat) : wordAt (padBlocks d) o = wordAt d o := wordAt_append_zeros d _ o

/-- A block that lies within the message is as it was in the padded message. -/
theorem blockAt_padBlocks {k : Nat} (h : 8 * (k + 1) ≤ d.length) : blockAt (padBlocks d) k = blockAt d k := by
  have hk : 8 * k ≤ d.length := by omega
  rw [blockAt, blockAt, padBlocks, List.drop_append_of_le_length hk, List.take_append_of_le_length]
  rw [List.length_drop]
  omega

/-- Block k of the encrypted message is the transform of the two words of block k of the message (R126). -/
theorem blockAt_encm {k : Nat} (h : k < (d.length + 7) / 8) :
    blockAt (encm d S) k =
      bytesLe (encryptBlock S (wordAt d (8 * k)) (wordAt d (8 * k + 4))).1
        ++ bytesLe (encryptBlock S (wordAt d (8 * k)) (wordAt d (8 * k + 4))).2 := by
  have hfirst : (bytesToWords d)[2 * k]? = some (wordAt d (8 * k)) := by
    rw [bytesToWords_getElem? (by omega), show 4 * (2 * k) = 8 * k by omega]
  have hsecond : (bytesToWords d)[2 * k + 1]? = some (wordAt d (8 * k + 4)) := by
    rw [bytesToWords_getElem? (by omega), show 4 * (2 * k + 1) = 8 * k + 4 by omega]
  exact blockAt_mapBlocks _ _ k _ _ hfirst hsecond

/-- Equal blocks of two padded messages give equal blocks (R126): a block determines its two words. -/
theorem blockAt_encm_congr {d d' : List Byte} {j k : Nat} (hj : j < (d.length + 7) / 8) (hk : k < (d'.length + 7) / 8)
    (h : blockAt (padBlocks d) j = blockAt (padBlocks d') k) : blockAt (encm d S) j = blockAt (encm d' S) k := by
  have hword {o : Nat} (ho : o + 4 ≤ 8) : wordAt d (8 * j + o) = wordAt d' (8 * k + o) := by
    rw [← wordAt_padBlocks, ← wordAt_blockAt _ j ho, h, wordAt_blockAt _ k ho, wordAt_padBlocks]
  have hfirst : wordAt d (8 * j) = wordAt d' (8 * k) := hword (o := 0) (by decide)
  rw [blockAt_encm d S hj, blockAt_encm d' S hk, hfirst, hword (o := 4) (by decide)]

/-- Decryption gives back the padded message: the words of whole blocks survive the bytes between (R130). -/
theorem decm_encm : decm (encm d S) S = padBlocks d := by
  have heven : (bytesToWords d).length % 2 = 0 := by
    rw [bytesToWords_length]
    omega
  have hwords : bytesToWords (encm d S) = mapBlocks (encryptBlock S) (bytesToWords d) :=
    bytesToWords_wordsToBytes (by rwa [mapBlocks_length _ _ heven])
  rw [decm, hwords, mapBlocks_mapBlocks _ _ (decryptBlock_encryptBlock S) _ heven, wordsToBytes_bytesToWords]

end Message

/-- Settles O16: block by block, and a block of the padded message fixes the two words that are transformed. -/
theorem encmWorksBlockByBlock : Obligations.EncmWorksBlockByBlock := by
  unfold Obligations.EncmWorksBlockByBlock
  exact ⟨fun d S => ⟨encm_length d S, fun _ => blockAt_encm d S⟩, fun _ _ S _ _ => blockAt_encm_congr S⟩

/-- Settles O18: the padded message comes back, and its padding is none or what its last block lacks. -/
theorem messageRoundTrip : Obligations.MessageRoundTrip := by
  unfold Obligations.MessageRoundTrip
  refine ⟨decm_encm, fun d S h => ?_, fun d S h => ?_⟩
  · rw [decm_encm, padBlocks_of_wholeBlocks h]
  · have hzeros : padlen d.length - d.length = 8 - d.length % 8 := by
      unfold padlen
      omega
    rw [decm_encm, padBlocks, hzeros]

/-- The writes of an output of n bytes, OUT_LEN by the number n (R30). -/
theorem putOutput_of_length (s : State) {o : List Byte} {n : Nat} (h : o.length = n) :
    s.putOutput o = { s with outBuf := s.outBuf.writeBytes 0 o, outLen := BitVec.ofNat 32 n } := by
  subst h
  rfl

section Commands
variable {s : State}

/-- A message command that fits and has a table runs on to its own work (R165). -/
theorem checks_pass (hfit : s.inCount ≤ Config.bufBytes) (htv : s.tv = true) (k : Result) :
    checkInLen s (checkTable s k) = k := (checkInLen_of_fits hfit _).trans (checkTable_of_valid htv k)

/-- A message command that fits and has no table reports NO_TABLE (R165). -/
theorem checks_noTable (hfit : s.inCount ≤ Config.bufBytes) (htv : s.tv = false) (k : Result) :
    checkInLen s (checkTable s k) = .next (s.complete .noTable) :=
  (checkInLen_of_fits hfit _).trans (checkTable_of_invalid htv k)

/-- After its checks, ENCM is the output of the encrypted message (R127). -/
theorem exec_encm_of_checks (hfit : s.inCount ≤ Config.bufBytes) (htv : s.tv = true) :
    exec .encm s = withInput s fun d => succeed (s.putOutput (encm d s.subkey)) := checks_pass hfit htv _

/-- After its checks, DECM is the output of the decrypted message (R129). -/
theorem exec_decm_of_checks (hfit : s.inCount ≤ Config.bufBytes) (htv : s.tv = true) (hwhole : s.inCount % 8 = 0) :
    exec .decm s = withInput s fun d => succeed (s.putOutput (decm d s.subkey)) :=
  (checks_pass hfit htv _).trans (if_neg (not_not_intro hwhole))

/-- ENCM writes `8 * ceil(n / 8)` bytes (R127). -/
theorem encm_length_of_input {d : List Byte} (hin : s.input = some d) :
    (encm d s.subkey).length = 8 * ((s.inCount + 7) / 8) := by
  rw [encm_length, Memory.readBytes_length hin, padlen]

/-- DECM writes as many bytes as it reads (R129). -/
theorem decm_length_of_input {d : List Byte} (hwhole : s.inCount % 8 = 0) (hin : s.input = some d) :
    (decm d s.subkey).length = s.inLen.toNat := by
  have hn : d.length = s.inLen.toNat := Memory.readBytes_length hin
  unfold State.inCount at hwhole
  rw [decm_length, hn, padlen]
  omega

end Commands

/-- R127's example: "TESTBLOK" under the zero key. -/
theorem encm_zeroTable_testblok :
    encm [0x54, 0x45, 0x53, 0x54, 0x42, 0x4C, 0x4F, 0x4B] zeroTable
      = [0x01, 0xCD, 0x56, 0x57, 0x19, 0x2C, 0x49, 0x7A] := by decide +kernel

/-- R129's example is R127's read backwards. -/
theorem decm_zeroTable_testblok :
    decm [0x01, 0xCD, 0x56, 0x57, 0x19, 0x2C, 0x49, 0x7A] zeroTable
      = [0x54, 0x45, 0x53, 0x54, 0x42, 0x4C, 0x4F, 0x4B] := by
  rw [← encm_zeroTable_testblok, decm_encm, padBlocks_of_wholeBlocks rfl]

/-- Settles O15: the checks in their order, the output of the padded length, and equal blocks by O16's law. -/
theorem encmCompletes : Obligations.EncmCompletes := by
  unfold Obligations.EncmCompletes
  refine ⟨rfl, fun s d hfit htv hin => ?_, fun _ hlong => checkInLen_of_long hlong _,
    fun _ hfit htv => checks_noTable hfit htv _, fun s hfit htv hnone => ?_, encm_zeroTable_testblok,
    fun d S j k hj hk heq => ?_⟩
  · rw [exec_encm_of_checks hfit htv, withInput_of_written hin, putOutput_of_length s (encm_length_of_input hin)]
    rfl
  · exact (exec_encm_of_checks hfit htv).trans (withInput_of_unwritten hnone _)
  · refine blockAt_encm_congr S (by omega) (by omega) ?_
    rw [blockAt_padBlocks d hj, blockAt_padBlocks d hk, heq]

/-- Settles O17: the three checks in their order, and the output of the message's own length. -/
theorem decmCompletes : Obligations.DecmCompletes := by
  unfold Obligations.DecmCompletes
  refine ⟨rfl, fun s d hfit htv hwhole hin => ?_, fun _ hlong => checkInLen_of_long hlong _,
    fun _ hfit htv => checks_noTable hfit htv _,
    fun _ hfit htv hpart => (checks_pass hfit htv _).trans (if_pos hpart), fun s hfit htv hwhole hnone => ?_,
    decm_zeroTable_testblok⟩
  · rw [exec_decm_of_checks hfit htv hwhole, withInput_of_written hin,
      putOutput_of_length s (decm_length_of_input hwhole hin), BitVec.ofNat_toNat, BitVec.setWidth_eq]
    rfl
  · exact (exec_decm_of_checks hfit htv hwhole).trans (withInput_of_unwritten hnone _)

end Sys2Proof.Machine
end

