-- ==== Sys2Proof/Proofs/Transport.lean ====
section
/-! The transport encoding (43_facade.md R132 to R136): decoder and encoder are inverse to each other group by group, so also on
whole texts; the shape of a text; and what B64E and B64D complete with. -/

namespace Sys2Proof.Machine

/-- Bits among the low zero bits of a value are zero. -/
theorem extractLsb'_eq_zero_of_low {x : BitVec 24} {m k n : Nat} (h : x.extractLsb' 0 m = 0) (hle : k + n ≤ m) :
    x.extractLsb' k n = 0 := by
  ext i hi
  have hbit := congrArg (·.getLsbD (k + i)) h
  simpa [show k + i < m by omega] using hbit

/-! ## Groups: what the decoder makes of the encoder's characters -/

section Encoded
variable (x : BitVec 24)

/-- The four characters of 24 bits decode to their three bytes (R132, R133). -/
theorem decodeQuad_alph :
    decodeQuad (alph (x.extractLsb' 18 6)) (alph (x.extractLsb' 12 6)) (alph (x.extractLsb' 6 6)) (alph (x.extractLsb' 0 6))
      = some [x.extractLsb' 16 8, x.extractLsb' 8 8, x.extractLsb' 0 8] := by
  simp only [decodeQuad, alphInv_alph, joinSextets_extract]

/-- Three characters and a pad decode to two bytes, when the third byte is zero (R133). -/
theorem decodeLast_alph_onePad (h8 : x.extractLsb' 0 8 = 0) :
    decodeLast (alph (x.extractLsb' 18 6)) (alph (x.extractLsb' 12 6)) (alph (x.extractLsb' 6 6)) padChar
      = some [x.extractLsb' 16 8, x.extractLsb' 8 8] := by
  have hx := joinSextets_extract x
  rw [extractLsb'_eq_zero_of_low (k := 0) (n := 6) h8 (by decide)] at hx
  have hpads : padCount (alph (x.extractLsb' 6 6)) padChar = 1 := by simp [padCount, alph_ne_pad]
  rw [decodeLast, hpads, if_neg (by decide), if_pos rfl]
  simp only [alphInv_alph, hx, h8, if_true]

/-- Two characters and two pads decode to one byte, when the other two bytes are zero (R133). -/
theorem decodeLast_alph_twoPads (h16 : x.extractLsb' 0 16 = 0) :
    decodeLast (alph (x.extractLsb' 18 6)) (alph (x.extractLsb' 12 6)) padChar padChar = some [x.extractLsb' 16 8] := by
  have hx := joinSextets_extract x
  rw [extractLsb'_eq_zero_of_low (k := 0) (n := 6) h16 (by decide),
    extractLsb'_eq_zero_of_low (k := 6) (n := 6) h16 (by decide)] at hx
  rw [decodeLast, if_pos (by rfl)]
  simp only [alphInv_alph, hx, h16, if_true]

end Encoded

/-- Without its second and third byte a group's low 16 bits are zero. -/
theorem join24_zeros_low (b0 : Byte) : (join24 b0 0 0).extractLsb' 0 16 = 0 := by
  ext i hi
  rw [BitVec.getElem_extractLsb', join24_bit]
  split
  · simp
  · rw [if_pos (by omega)]
    simp

section Groups
variable {c0 c1 c2 c3 : Byte} {q o rest bs : List Byte}

/-! ## Groups: only the encoder's characters are decoded -/

/-- An unpadded group that decodes has the four characters of some 24 bits (R133). -/
theorem decodeQuad_eq_some (h : decodeQuad c0 c1 c2 c3 = some q) :
    ∃ x : BitVec 24, c0 = alph (x.extractLsb' 18 6) ∧ c1 = alph (x.extractLsb' 12 6) ∧ c2 = alph (x.extractLsb' 6 6)
      ∧ c3 = alph (x.extractLsb' 0 6) ∧ q = [x.extractLsb' 16 8, x.extractLsb' 8 8, x.extractLsb' 0 8] := by
  unfold decodeQuad at h
  split at h
  case h_1 v0 v1 v2 v3 h0 h1 h2 h3 =>
    obtain ⟨e0, e1, e2, e3⟩ := joinSextets_sextets v0 v1 v2 v3
    cases h
    exact ⟨joinSextets v0 v1 v2 v3, by rw [e0, alph_of_alphInv h0], by rw [e1, alph_of_alphInv h1],
      by rw [e2, alph_of_alphInv h2], by rw [e3, alph_of_alphInv h3], rfl⟩
  case h_2 => cases h

/-- A group with one pad that decodes has the three characters of some 24 bits whose last byte is zero (R133). -/
theorem decodeLast_onePad_eq_some (h2 : c2 ≠ padChar) (h : decodeLast c0 c1 c2 padChar = some o) :
    ∃ x : BitVec 24, c0 = alph (x.extractLsb' 18 6) ∧ c1 = alph (x.extractLsb' 12 6) ∧ c2 = alph (x.extractLsb' 6 6)
      ∧ x.extractLsb' 0 8 = 0 ∧ o = [x.extractLsb' 16 8, x.extractLsb' 8 8] := by
  have hpads : padCount c2 padChar = 1 := by simp [padCount, h2]
  rw [decodeLast, hpads, if_neg (by decide), if_pos rfl] at h
  split at h
  case h_1 v0 v1 v2 h0 h1 h2 =>
    obtain ⟨e0, e1, e2, -⟩ := joinSextets_sextets v0 v1 v2 0
    obtain ⟨hzero, ho⟩ := Option.ite_none_right_eq_some.1 h
    cases ho
    exact ⟨joinSextets v0 v1 v2 0, by rw [e0, alph_of_alphInv h0], by rw [e1, alph_of_alphInv h1],
      by rw [e2, alph_of_alphInv h2], hzero, rfl⟩
  case h_2 => cases h

/-- A group with two pads that decodes has the two characters of some 24 bits whose last two bytes are zero (R133). -/
theorem decodeLast_twoPads_eq_some (h : decodeLast c0 c1 padChar padChar = some o) :
    ∃ x : BitVec 24, c0 = alph (x.extractLsb' 18 6) ∧ c1 = alph (x.extractLsb' 12 6)
      ∧ x.extractLsb' 0 16 = 0 ∧ o = [x.extractLsb' 16 8] := by
  rw [decodeLast, if_pos (by rfl)] at h
  split at h
  case h_1 v0 v1 h0 h1 =>
    obtain ⟨e0, e1, -⟩ := joinSextets_sextets v0 v1 0 0
    obtain ⟨hzero, ho⟩ := Option.ite_none_right_eq_some.1 h
    cases ho
    exact ⟨joinSextets v0 v1 0 0, by rw [e0, alph_of_alphInv h0], by rw [e1, alph_of_alphInv h1], hzero, rfl⟩
  case h_2 => cases h

/-- The bytes of an unpadded group encode to that group (R136). -/
theorem b64enc_of_decodeQuad (h : decodeQuad c0 c1 c2 c3 = some q) :
    b64enc (q ++ bs) = c0 :: c1 :: c2 :: c3 :: b64enc bs := by
  obtain ⟨x, rfl, rfl, rfl, rfl, rfl⟩ := decodeQuad_eq_some h
  simp only [List.cons_append, List.nil_append, b64enc, join24_extract]

/-- A last group whose last character is no pad is an unpadded group (R133). -/
theorem decodeLast_of_ne_pad (h : c3 ≠ padChar) : decodeLast c0 c1 c2 c3 = decodeQuad c0 c1 c2 c3 := by
  simp [decodeLast, padCount, h]

/-- The bytes of a last group encode to that group (R136): its pad bits are zero, as the encoder writes them. -/
theorem b64enc_of_decodeLast (h : decodeLast c0 c1 c2 c3 = some o) : b64enc o = [c0, c1, c2, c3] := by
  by_cases h3 : c3 = padChar
  · subst h3
    by_cases h2 : c2 = padChar
    · subst h2
      obtain ⟨x, rfl, rfl, h16, rfl⟩ := decodeLast_twoPads_eq_some h
      have hx := join24_extract x
      rw [extractLsb'_eq_zero_of_low (k := 8) (n := 8) h16 (by decide),
        extractLsb'_eq_zero_of_low (k := 0) (n := 8) h16 (by decide)] at hx
      simp only [b64enc, hx]
    · obtain ⟨x, rfl, rfl, rfl, h8, rfl⟩ := decodeLast_onePad_eq_some h2 h
      have hx := join24_extract x
      rw [h8] at hx
      simp only [b64enc, hx]
  · rw [decodeLast_of_ne_pad h3] at h
    simpa [b64enc] using b64enc_of_decodeQuad (bs := []) h

/-! ## Texts -/

/-- A group before more text is unpadded, and its bytes come before those of the rest (R133). -/
theorem b64dec_cons_eq_some (hrest : rest ≠ []) (h : b64dec (c0 :: c1 :: c2 :: c3 :: rest) = some o) :
    ∃ q bs, decodeQuad c0 c1 c2 c3 = some q ∧ b64dec rest = some bs ∧ o = q ++ bs := by
  rw [b64dec] at h
  · split at h
    case h_1 q bs hq hbs => exact ⟨q, bs, hq, hbs, (Option.some.inj h).symm⟩
    case h_2 => cases h
  · simpa using hrest

/-- An unpadded group may stand before any text, and also at the end (R133). -/
theorem b64dec_decodeQuad (hq : decodeQuad c0 c1 c2 c3 = some q) (hbs : b64dec rest = some bs) :
    b64dec (c0 :: c1 :: c2 :: c3 :: rest) = some (q ++ bs) := by
  cases rest with
  | nil =>
    obtain ⟨x, -, -, -, h3, -⟩ := decodeQuad_eq_some hq
    cases hbs
    rw [b64dec, decodeLast_of_ne_pad (h3 ▸ alph_ne_pad _), hq, List.append_nil]
  | cons c rest =>
    rw [b64dec]
    · rw [hq, hbs]
    · simp

end Groups

/-- Decoding undoes encoding, group by group (R136). -/
theorem b64dec_b64enc : (d : List Byte) → b64dec (b64enc d) = some d
  | [] => rfl
  | [b0] => by
    obtain ⟨h0, -, -⟩ := join24_bytes b0 0 0
    have h := decodeLast_alph_twoPads (join24 b0 0 0) (join24_zeros_low b0)
    rwa [h0] at h
  | [b0, b1] => by
    obtain ⟨h0, h1, h2⟩ := join24_bytes b0 b1 0
    have h := decodeLast_alph_onePad (join24 b0 b1 0) h2
    rwa [h0, h1] at h
  | b0 :: b1 :: b2 :: rest => by
    obtain ⟨h0, h1, h2⟩ := join24_bytes b0 b1 b2
    have h := b64dec_decodeQuad (decodeQuad_alph (join24 b0 b1 b2)) (b64dec_b64enc rest)
    rwa [h0, h1, h2] at h

/-- Encoding undoes decoding of a text that is accepted, group by group (R136). -/
theorem b64enc_of_b64dec : (t d : List Byte) → b64dec t = some d → b64enc d = t
  | [], d, h => by
    cases h
    rfl
  | [_], _, h | [_, _], _, h | [_, _, _], _, h => nomatch h
  | [_, _, _, _], _, h => b64enc_of_decodeLast h
  | _ :: _ :: _ :: _ :: c :: rest, d, h => by
    obtain ⟨q, bs, hq, hbs, rfl⟩ := b64dec_cons_eq_some (by simp) h
    rw [b64enc_of_decodeQuad hq, b64enc_of_b64dec (c :: rest) bs hbs]

/-- Settles O19: each direction by its own induction over the groups. -/
theorem transportRoundTrip : Obligations.TransportRoundTrip := by
  unfold Obligations.TransportRoundTrip
  exact ⟨b64dec_b64enc, b64enc_of_b64dec⟩

/-- The characters of the alphabet are 7-bit (R132). -/
theorem alph_toNat_lt (v : BitVec 6) : (alph v).toNat < 128 := by
  revert v
  decide

/-- Every character of a text is 7-bit (R134). -/
theorem b64enc_toNat_lt : (d : List Byte) → ∀ c ∈ b64enc d, c.toNat < 128
  | [] => by simp [b64enc]
  | [_] => by simp [b64enc, alph_toNat_lt, padChar]
  | [_, _] => by simp [b64enc, alph_toNat_lt, padChar]
  | _ :: _ :: _ :: rest => by
    simp only [b64enc, List.forall_mem_cons]
    exact ⟨alph_toNat_lt _, alph_toNat_lt _, alph_toNat_lt _, alph_toNat_lt _, b64enc_toNat_lt rest⟩

/-- A text ends in as many pads as its message lacks bytes of whole groups of three (R132). -/
theorem pads_suffix_b64enc : (d : List Byte) → List.replicate ((3 - d.length % 3) % 3) padChar <:+ b64enc d
  | [] => List.suffix_rfl
  | [_] => ⟨[_, _], rfl⟩
  | [_, _] => ⟨[_, _, _], rfl⟩
  | b0 :: b1 :: b2 :: rest => by
    have hlen : (b0 :: b1 :: b2 :: rest).length % 3 = rest.length % 3 := by
      simp only [List.length_cons]
      omega
    rw [hlen]
    exact (pads_suffix_b64enc rest).trans (List.suffix_append [_, _, _, _] _)

/-- The pads that end a text, read off its end (R132). -/
theorem drop_b64enc {d : List Byte} {n : Nat} (h : (3 - d.length % 3) % 3 = n) :
    (b64enc d).drop ((b64enc d).length - n) = List.replicate n padChar := by
  subst h
  simpa using (List.suffix_iff_eq_drop.1 (pads_suffix_b64enc d)).symm

section Commands
variable {s : State}

/-- A B64E whose text fits writes it (R134). -/
theorem exec_b64e_of_fits (hfit : s.inCount ≤ Config.bufBytes) (hout : b64len s.inCount ≤ Config.bufBytes) :
    exec .b64e s = withInput s fun d => succeed (s.putOutput (b64enc d)) :=
  (checkInLen_of_fits hfit _).trans (if_neg (by omega))

/-- B64E writes `4 * ceil(n / 3)` characters (R134). -/
theorem b64enc_length_of_input {d : List Byte} (hin : s.input = some d) :
    (b64enc d).length = 4 * ((s.inCount + 2) / 3) := by
  rw [b64enc_length, Memory.readBytes_length hin, b64len]

/-- B64D writes the bytes of a text that the decoder accepts (R135). -/
theorem exec_b64d_of_valid {t o : List Byte} (hfit : s.inCount ≤ Config.bufBytes) (hin : s.input = some t)
    (ht : b64dec t = some o) : exec .b64d s = .next ((s.putOutput o).complete .ok) :=
  (checkInLen_of_fits hfit _).trans ((withInput_of_written hin _).trans (by simp only [ht, succeed_eq]))

/-- B64D reports DECODE for a text that the decoder refuses (R135). -/
theorem exec_b64d_of_invalid {t : List Byte} (hfit : s.inCount ≤ Config.bufBytes) (hin : s.input = some t)
    (ht : b64dec t = none) : exec .b64d s = .next (s.complete .decode) :=
  (checkInLen_of_fits hfit _).trans ((withInput_of_written hin _).trans (by simp only [ht, raise_eq]))

end Commands

/-- Settles O20: the two length checks, the text and its length, and the ends of a text by the pads it needs. -/
theorem b64eCompletes : Obligations.B64eCompletes := by
  unfold Obligations.B64eCompletes
  refine ⟨rfl, fun s d hfit hout hin => ?_, fun _ hlong => checkInLen_of_long hlong _,
    fun _ hfit hlong => (checkInLen_of_fits hfit _).trans (if_pos hlong), fun s hfit hout hnone => ?_,
    fun d => ⟨b64enc_toNat_lt d, fun h => drop_b64enc (by omega), fun h => drop_b64enc (by omega)⟩, by decide +kernel⟩
  · rw [exec_b64e_of_fits hfit hout, withInput_of_written hin, putOutput_of_length s (b64enc_length_of_input hin)]
    rfl
  · exact (exec_b64e_of_fits hfit hout).trans (withInput_of_unwritten hnone _)

/-- Settles O21: the length check, then the decoder's answer on the written text, which bounds the output by three quarters. -/
theorem b64dCompletes : Obligations.B64dCompletes := by
  unfold Obligations.B64dCompletes
  refine ⟨rfl, fun s t o hfit hin ho => ⟨?_, exec_b64d_of_valid hfit hin ho⟩,
    fun _ _ hfit hin hbad => exec_b64d_of_invalid hfit hin hbad, fun _ hlong => checkInLen_of_long hlong _,
    fun _ hfit hnone => (checkInLen_of_fits hfit _).trans (withInput_of_unwritten hnone _), by decide +kernel,
    by decide +kernel⟩
  rw [← Memory.readBytes_length hin]
  exact b64dec_length t o ho

end Sys2Proof.Machine
end

