-- ==== Sys2Proof/Proofs/KeyText.lean ====
section
/-! Key text and KEYD (43_facade.md R140, R141; 10_state.md R25). -/

namespace Sys2Proof.Machine

/-- The byte view of the key registers is their bytes, register by register (R25). -/
theorem toList_keyBytes (key : Vector Word 4) :
    (keyBytes key).toList = bytesLe key[0] ++ bytesLe key[1] ++ bytesLe key[2] ++ bytesLe key[3] := rfl

/-- Sixteen bytes, one by one. -/
theorem keyVector_toList (k : Vector Byte 16) :
    k.toList = [k[0], k[1], k[2], k[3], k[4], k[5], k[6], k[7], k[8], k[9], k[10], k[11], k[12], k[13], k[14], k[15]] := by
  obtain ⟨⟨l⟩, h⟩ := k
  match l, h with
  | [_, _, _, _, _, _, _, _, _, _, _, _, _, _, _, _], _ => rfl

/-- The byte view of the words of a key is the key (R25, R96). -/
theorem keyBytes_keyWords (k : Vector Byte 16) : keyBytes (keyWords k) = k := by
  refine Vector.toList_inj.1 ?_
  rw [toList_keyBytes, keyVector_toList k]
  simp [keyWords]

/-- Sixteen bytes are a key, byte for byte (R140). -/
theorem toKey_of_length {o : List Byte} (h : o.length = 16) : ∃ k, toKey o = some k ∧ k.toList = o :=
  ⟨⟨o.toArray, by simpa using h⟩, dif_pos h, rfl⟩

/-- A text that decodes to sixteen bytes is a key text of those bytes (R140). -/
theorem keydec_of_length {t o : List Byte} (ht : b64dec t = some o) (ho : o.length = 16) :
    ∃ k, keydec t = some k ∧ k.toList = o := by
  rw [keydec, ht]
  exact toKey_of_length ho

/-- Any other text is no key text (R140). -/
theorem keydec_eq_none {t : List Byte} (h : ∀ o, b64dec t = some o → o.length ≠ 16) : keydec t = none := by
  unfold keydec
  split
  case h_1 o ho => exact dif_neg (h o ho)
  case h_2 => rfl

section Commands
variable {s : State} {t : List Byte}

/-- KEYD loads the key of a key text (R141). -/
theorem exec_keyd_of_keyText {k : Vector Byte 16} (hfit : s.inCount ≤ Config.bufBytes) (hin : s.input = some t)
    (ht : keydec t = some k) : exec .keyd s = .next ((s.putKey (keyWords k)).complete .ok) :=
  (checkInLen_of_fits hfit _).trans ((withInput_of_written hin _).trans (by simp only [ht, succeed_eq]))

/-- KEYD reports KEY_FORMAT for a text that is no key text (R141). -/
theorem exec_keyd_of_not_keyText (hfit : s.inCount ≤ Config.bufBytes) (hin : s.input = some t)
    (ht : keydec t = none) : exec .keyd s = .next (s.complete .keyFormat) :=
  (checkInLen_of_fits hfit _).trans ((withInput_of_written hin _).trans (by simp only [ht, raise_eq]))

end Commands

/-- Settles O22: the length check, then whether the written text is a key text; the key it loads has the decoded bytes. -/
theorem keydCompletes : Obligations.KeydCompletes := by
  unfold Obligations.KeydCompletes
  refine ⟨rfl, fun s t o hfit hin ht ho => ?_,
    fun _ _ hfit hin hbad => exec_keyd_of_not_keyText hfit hin (keydec_eq_none hbad),
    fun _ hlong => checkInLen_of_long hlong _,
    fun _ hfit hnone => (checkInLen_of_fits hfit _).trans (withInput_of_unwritten hnone _), by decide +kernel,
    by decide +kernel, by decide +kernel, rfl⟩
  obtain ⟨k, hk, hbytes⟩ := keydec_of_length ht ho
  exact ⟨keyWords k, by rw [keyBytes_keyWords, hbytes], exec_keyd_of_keyText hfit hin hk⟩

end Sys2Proof.Machine
end

