-- ==== Sys2Proof/Proofs/TextCheck.lean ====
section
/-! UTF-8 validity and U8CK (43_facade.md R148, R149): the checker reads the table's sequences one after the other. -/

namespace Sys2Proof.Machine

/-- The bytes are as many as the ranges, each in its own. -/
abbrev InRanges (rs : List ByteRange) (q : List Byte) : Prop := List.Forall₂ (fun r b => r.has b = true) rs q

/-- A byte lies in a range by its value. -/
theorem ByteRange.has_mk {lo hi b : Byte} :
    (ByteRange.mk lo hi).has b = true ↔ lo.toNat ≤ b.toNat ∧ b.toNat ≤ hi.toNat := by
  simp [ByteRange.has]

/-- The range 80 to BF is that of the continuation bytes (R148). -/
theorem contByte_has {b : Byte} : contByte.has b = true ↔ IsCont b := ByteRange.has_mk

/-- The rows of the table begin with different bytes, so the row of a first byte is the one the checker takes (R148). -/
theorem utf8Rest_of_mem {row : Utf8Row} (hrow : row ∈ utf8Table) {b : Byte} (hb : row.first.has b = true) :
    utf8Rest b = some row.rest := by
  revert row b
  decide +kernel

/-- What the checker awaits after a first byte is the rest of a row that begins with it (R148). -/
theorem exists_row_of_utf8Rest {b : Byte} {rs : List ByteRange} (h : utf8Rest b = some rs) :
    ∃ row ∈ utf8Table, row.first.has b = true ∧ row.rest = rs := by
  obtain ⟨row, hfind, hrest⟩ := Option.map_eq_some_iff.1 h
  exact ⟨row, List.mem_of_find?_eq_some hfind, by simpa using List.find?_some hfind, hrest⟩

/-- A well-formed sequence is one whose bytes lie in the ranges of a row (R148). -/
theorem utf8Sequence_iff {q : List Byte} :
    Utf8Sequence q ↔ ∃ row ∈ utf8Table, InRanges (row.first :: row.rest) q := by
  have single {x n : Nat} : x = n ↔ n ≤ x ∧ x ≤ n := ge_antisymm_iff
  match q with
  | [] => simp [Utf8Sequence]
  | [a] => simp [Utf8Sequence, utf8Table, ByteRange.has_mk]
  | [a, b] => simp [Utf8Sequence, utf8Table, ByteRange.has_mk, contByte_has, and_assoc]
  | [a, b, c] => simp [Utf8Sequence, utf8Table, ByteRange.has_mk, contByte_has, and_assoc, single]
  | [a, b, c, d] => simp [Utf8Sequence, utf8Table, ByteRange.has_mk, contByte_has, and_assoc, single]
  | _ :: _ :: _ :: _ :: _ :: _ => simp [Utf8Sequence, utf8Table]

/-- Bytes in the ranges that are due are read, and then the check goes on with the rest. -/
theorem utf8From_append {rs : List ByteRange} {q : List Byte} (h : InRanges rs q) (e : List Byte) :
    utf8From rs (q ++ e) = utf8From [] e := by
  induction h with
  | nil => rfl
  | cons hb _ ih => rw [List.cons_append, utf8From, hb, ih, Bool.true_and]

/-- A well-formed sequence at the front does not change validity. -/
theorem utf8Valid_append_of_sequence {q : List Byte} (h : Utf8Sequence q) (e : List Byte) :
    utf8Valid (q ++ e) = utf8Valid e := by
  obtain ⟨row, hrow, hq⟩ := utf8Sequence_iff.1 h
  cases hq with
  | cons hb hrest =>
    simp only [utf8Valid, List.cons_append, utf8From, utf8Rest_of_mem hrow hb]
    exact utf8From_append hrest e

/-- What the checker accepts begins with bytes in the ranges that are due, and goes on with well-formed sequences. -/
theorem exists_sequences_of_utf8From (d : List Byte) (rs : List ByteRange) (h : utf8From rs d = true) :
    ∃ (q : List Byte) (qs : List (List Byte)), InRanges rs q ∧ (∀ p ∈ qs, Utf8Sequence p) ∧ d = q ++ qs.flatten := by
  induction d generalizing rs with
  | nil =>
    cases rs with
    | nil => exact ⟨[], [], .nil, by simp, rfl⟩
    | cons r rs => cases h
  | cons b bs ih =>
    cases rs with
    | nil =>
      rw [utf8From] at h
      split at h
      case h_1 rs hrs =>
        obtain ⟨q, qs, hq, hqs, rfl⟩ := ih rs h
        obtain ⟨row, hrow, hb, rfl⟩ := exists_row_of_utf8Rest hrs
        exact ⟨[], (b :: q) :: qs, .nil, List.forall_mem_cons.2 ⟨utf8Sequence_iff.2 ⟨row, hrow, .cons hb hq⟩, hqs⟩, rfl⟩
      case h_2 => cases h
    | cons r rs =>
      obtain ⟨hb, hbs⟩ := Bool.and_eq_true_iff.1 h
      obtain ⟨q, qs, hq, hqs, rfl⟩ := ih rs hbs
      exact ⟨b :: q, qs, .cons hb hq, hqs, rfl⟩

/-- A concatenation of well-formed sequences is valid. -/
theorem utf8Valid_flatten {qs : List (List Byte)} (h : ∀ q ∈ qs, Utf8Sequence q) : utf8Valid qs.flatten = true := by
  induction qs with
  | nil => rfl
  | cons q qs ih =>
    obtain ⟨hq, hqs⟩ := List.forall_mem_cons.1 h
    rw [List.flatten_cons, utf8Valid_append_of_sequence hq, ih hqs]

/-- Settles O25: with nothing due, what the checker reads is sequences alone. -/
theorem utf8ValidIsTheTable : Obligations.Utf8ValidIsTheTable := by
  unfold Obligations.Utf8ValidIsTheTable
  refine fun d => ⟨fun h => ?_, fun ⟨qs, hqs, hd⟩ => hd ▸ utf8Valid_flatten hqs⟩
  obtain ⟨q, qs, hq, hqs, rfl⟩ := exists_sequences_of_utf8From d [] h
  cases hq
  exact ⟨qs, hqs, rfl⟩

section Output
variable {s : State}

/-- A written output is what the command runs on (R68). -/
theorem withOutput_of_written {d : List Byte} (h : s.output = some d) (k : List Byte → Result) : withOutput s k = k d := by
  rw [withOutput, h]

/-- An unwritten byte in the output is the model fault (R12, R31). -/
theorem withOutput_of_unwritten (h : s.output = none) (k : List Byte → Result) :
    withOutput s k = .fault (.unwrittenBufferRead .outBuf) := by
  rw [withOutput, h]

end Output

/-- Settles O27: U8CK completes by the check of the written output, and its completion writes nothing else. -/
theorem u8ckCompletes : Obligations.U8ckCompletes := by
  unfold Obligations.U8ckCompletes
  exact ⟨rfl, fun _ _ hout hvalid => (withOutput_of_written hout _).trans (if_pos hvalid),
    fun _ _ hout hbad => (withOutput_of_written hout _).trans (if_neg (ne_true_of_eq_false hbad)),
    fun _ hnone => withOutput_of_unwritten hnone _, rfl, by decide, by decide, by decide⟩

end Sys2Proof.Machine
end

