-- ==== Sys2Proof/Proofs/Chaining.lean ====
section
/-! NOP and XFER (43_facade.md R151, R152). -/

namespace Sys2Proof.Machine

/-- A flag stands in its own bit of a register and in no other. -/
theorem bitAt_getLsbD {k i : Nat} (b : Bool) (hi : i < 32) : (bitAt k b).getLsbD i = (decide (i = k) && b) := by
  cases b with
  | false => simp [bitAt]
  | true =>
    have htwo : bitAt k true = BitVec.twoPow 32 k := rfl
    rw [htwo, BitVec.getLsbD_twoPow, Bool.and_true]
    rcases eq_or_ne i k with rfl | hne
    · simp [hi]
    · simp [hne, hne.symm]

/-- TV is bit 3 of STATUS (R19). -/
theorem statusWord_getLsbD_tv (s : State) : s.statusWord.getLsbD 3 = s.tv := by
  simp only [State.statusWord, BitVec.getLsbD_or, bitAt_getLsbD _ (show 3 < 32 by decide)]
  simp

/-- OVR is bit 4 of STATUS (R19). -/
theorem statusWord_getLsbD_ovr (s : State) : s.statusWord.getLsbD 4 = s.ovr := by
  simp only [State.statusWord, BitVec.getLsbD_or, bitAt_getLsbD _ (show 4 < 32 by decide)]
  simp

/-- After a completion with OK, STATUS is DONE with TV and OVR as they were (R19, R163). -/
theorem complete_ok_statusWord (s : State) :
    (s.complete .ok).statusWord =
      bitAt 0 false ||| bitAt 1 true ||| bitAt 2 false ||| bitAt 3 s.tv ||| bitAt 4 s.ovr ||| 0 := rfl

/-- Settles O6: NOP is a completion with OK and no other write; STATUS 0x506 has TV and OVR clear, so DONE alone is left. -/
theorem nopCompletes : Obligations.NopCompletes := by
  unfold Obligations.NopCompletes
  refine ⟨rfl, execNop_eq, fun s t h => ?_⟩
  cases (execNop_eq s).symm.trans h
  refine ⟨complete_irq s .ok, fun hstatus => ?_⟩
  have htv : s.tv = false := by rw [← statusWord_getLsbD_tv, hstatus]; rfl
  have hovr : s.ovr = false := by rw [← statusWord_getLsbD_ovr, hstatus]; rfl
  rw [complete_ok_statusWord, htv, hovr]
  rfl

/-- XFER copies a written output (R151). -/
theorem exec_xfer_of_written {s : State} {d : List Byte} (h : s.output = some d) :
    exec .xfer s = .next ((s.putInput d).complete .ok) := withOutput_of_written h _

/-- A copy of the first n bytes of a buffer to the start of another, by offset (R151). -/
theorem Memory.read_writeBytes_readBytes {m m' : Memory} {n : Nat} {d : List Byte} (h : m.readBytes 0 n = some d) (a : Nat) :
    (m'.writeBytes 0 d).read a = if a < n then m.read a else m'.read a := by
  obtain ⟨hlen, hread⟩ := Memory.readBytes_eq_some.1 h
  rw [Memory.read_writeBytes, hlen]
  by_cases ha : a < n
  · have hbyte : m.read a = d[a]? := by simpa using hread a ha
    rw [if_pos (by omega), if_pos ha, Nat.sub_zero, hbyte]
  · rw [if_neg (by omega), if_neg ha]

/-- Where the bytes below OUT_LEN hold values, the output is written (R23, R151). -/
theorem State.BufInv.output_isSome {s : State} (h : s.BufInv) : s.output.isSome :=
  Memory.readBytes_isSome fun a ha => by simpa using h.written a ha

/-- Settles O28: XFER is the copy of the written output, and every step leaves the output written. -/
theorem xferCompletes : Obligations.XferCompletes := by
  unfold Obligations.XferCompletes
  refine ⟨rfl, fun _ _ hout => ⟨exec_xfer_of_written hout, Memory.read_writeBytes_readBytes hout⟩, fun s hinv => ?_⟩
  obtain ⟨d, hout⟩ := Option.isSome_iff_exists.1 hinv.output_isSome
  exact ⟨_, exec_xfer_of_written hout, rfl⟩

end Sys2Proof.Machine
end

