-- ==== Sys2Proof/Proofs/Interrupt.lean ====
section
/-! The irq output: what raises it and what drops it (60_exceptions.md R167). -/

namespace Sys2Proof.Machine

/-- The irq output is the level DONE and IE (R167). -/
theorem irq_iff (s : State) : s.irq = true ↔ s.done = true ∧ s.ie = true := Bool.and_eq_true_iff

/-- A reset drops irq (R37, R167). -/
@[simp] theorem resetAction_irq (s : State) : s.resetAction.irq = false := rfl

/-- A STATUS write drops irq by its bit 1 (R19, R167). -/
@[simp] theorem clearFlags_irq (s : State) (w : Word) : (s.clearFlags w).irq = (s.irq && !w.getLsbD 1) :=
  Bool.and_right_comm ..

/-- A CTRL write resets by SRST, and otherwise puts irq to DONE and the new IE (R18, R167). -/
theorem writeTarget_ctrl_irq (s : State) (n : Nat) (w : Word) :
    (s.writeTarget n w .ctrl).irq = (!w.getLsbD 1 && (s.done && w.getLsbD 0)) := by
  rw [State.writeTarget]
  cases hsoft : w.getLsbD 1 with
  | true => rfl
  | false => rfl

/-- A command that answers is a completion, and keeps CTRL (R163). -/
theorem exec_completes {i : Instr} {s t : State} (h : exec i s = .next t) :
    ∃ (u : State) (c : ErrCode), u.ie = s.ie ∧ t = u.complete c := by
  rcases exec_shape i s with ⟨_, _, hx, _⟩ | ⟨_, hx⟩ | ⟨_, _, _, hx⟩ | ⟨_, _, _, _, _, _, _, hx⟩ | ⟨_, hx⟩ |
    ⟨_, _, hx⟩ | ⟨_, _, hx⟩ | ⟨_, _, _, _, hx⟩ | ⟨_, _, hx⟩ | ⟨_, _, hx⟩ <;>
    cases hx.symm.trans h
  all_goals exact ⟨_, _, by simp, rfl⟩

/-- The engine's turn with a command pending leaves irq equal to IE (R163, R167). -/
theorem engineTurn_irq {s t : State} (h : engineTurn s = .next t) (hp : s.pending ≠ none) : t.irq = s.ie := by
  rcases engineTurn_cases s with ⟨hnone, _⟩ | ⟨_, _, _, _, hx⟩ | ⟨_, _, _, _, hx⟩
  · exact absurd hnone hp
  · cases hx.symm.trans h
    exact complete_irq s _
  · obtain ⟨u, c, hie, rfl⟩ := exec_completes (hx.symm.trans h)
    rw [complete_irq, hie]

/-- The engine's turn keeps irq when it is idle, and otherwise leaves it equal to IE (R163, R167, R178). -/
theorem engineTurn_keeps_or_sets_irq {s t : State} (h : engineTurn s = .next t) :
    t.irq = s.irq ∨ (s.pending ≠ none ∧ t.irq = s.ie) := by
  by_cases hp : s.pending = none
  · obtain rfl : s = t := by simpa [engineTurn, hp] using h
    exact .inl rfl
  · exact .inr ⟨hp, engineTurn_irq h hp⟩

/-- The host writes that decide irq anew, and the level each leaves in `t`: to CTRL, to STATUS, and the issue of a command. -/
def State.IrqSetBy (s t : State) (x : Txn) : Prop :=
  (∃ z w, x = ⟨.write, 0x004, z, w⟩ ∧ t.irq = (!w.getLsbD 1 && (s.done && w.getLsbD 0)))
  ∨ (∃ z w, x = ⟨.write, 0x008, z, w⟩ ∧ t.irq = (s.irq && !w.getLsbD 1))
  ∨ ∃ z w, x = ⟨.write, 0x00C, z, w⟩ ∧ t.pending = some w ∧ t.irq = false

/-- Only the offset 0x008 selects STATUS (R19). -/
theorem target_status {a : Addr} (h : target a = .status) : a = 0x008 := by
  by_contra h8
  have h4 : a ≠ 0x004 := by
    rintro rfl
    cases h
  have hdropped := target_not_acceptedWhileBusy h4 h8
  rw [h] at hdropped
  cases hdropped

/-- Only the offset 0x00C selects CMD (R20). -/
theorem target_cmd {a : Addr} (h : target a = .cmd) : a = 0x00C := by
  by_contra hne
  have hC : a.toNat ≠ 0x00C := fun hc => hne (BitVec.eq_of_toNat_eq hc)
  revert h
  unfold target regTarget
  simp only [if_neg hC]
  split_ifs <;> exact nofun

/-- An accepted host write keeps irq but at CTRL, STATUS and CMD (R167). -/
theorem writeTarget_irq (s : State) (a : Addr) (z : BusSize) (w : Word) (r : Response) :
    ((s.writeTarget z.bytes w (target a)).respond r).irq = s.irq
      ∨ s.IrqSetBy ((s.writeTarget z.bytes w (target a)).respond r) ⟨.write, a, z, w⟩ := by
  cases hg : target a
  case ctrl =>
    cases target_ctrl hg
    exact .inr (.inl ⟨z, w, rfl, writeTarget_ctrl_irq s _ w⟩)
  case status =>
    cases target_status hg
    exact .inr (.inr (.inl ⟨z, w, rfl, clearFlags_irq s w⟩))
  case cmd =>
    cases target_cmd hg
    exact .inr (.inr (.inr ⟨z, w, rfl, rfl, issue_irq s w⟩))
  all_goals exact .inl rfl

/-- A host transaction keeps irq, or is a write that decides it anew (R167). -/
theorem transact_irq {x : Txn} {s t : State} (h : transact x s = .next t) : t.irq = s.irq ∨ s.IrqSetBy t x := by
  rcases transact_cases x s with ⟨_, hx⟩ | ⟨_, _, hx⟩ | ⟨_, hk, hx⟩
  case inl =>
    cases hx.symm.trans h
    exact .inl rfl
  case inr.inl =>
    rcases hostRead_cases x s with ⟨_, _, hr⟩ | ⟨_, ⟨_, _, hr⟩ | ⟨_, _, hr⟩⟩ <;> rw [hx, hr] at h <;> cases h
    · exact .inl rfl
    · exact .inl rfl
  case inr.inr =>
    cases hx.symm.trans h
    obtain ⟨kind, a, z, w⟩ := x
    obtain rfl : kind = .write := hk
    rcases hostWrite_cases ⟨.write, a, z, w⟩ s with ⟨_, _, hr⟩ | ⟨_, hr⟩ <;> rw [hr]
    · exact .inl rfl
    · exact writeTarget_irq s a z w _

/-- All that a step can do to irq: keep it, complete a command, take the reset input, or take a host write that decides it
(R167). -/
theorem step_irq {s t : State} (h : step s = .next t) :
    t.irq = s.irq
      ∨ ((s.inputs = [] ∨ ∃ rest, s.inputs = .engine :: rest) ∧ s.pending ≠ none ∧ t.irq = s.ie)
      ∨ (∃ rest, s.inputs = .resetPin :: rest ∧ t.irq = false)
      ∨ ∃ x rest, s.inputs = .host x :: rest ∧ s.IrqSetBy t x := by
  rcases step_cases s with ⟨hin, hs⟩ | ⟨i, rest, hin, hs⟩ <;> rw [hs] at h
  · exact (engineTurn_keeps_or_sets_irq h).imp_right fun hturn => .inl ⟨.inl hin, hturn⟩
  · cases i with
    | engine => exact (engineTurn_keeps_or_sets_irq h).imp_right fun hturn => .inl ⟨.inr ⟨rest, hin⟩, hturn⟩
    | resetPin =>
      cases h
      exact .inr (.inr (.inl ⟨rest, hin, resetAction_irq _⟩))
    | host x => exact (transact_irq h).imp_right fun hset => .inr (.inr ⟨x, rest, hin, hset⟩)

/-- Settles O55: a rise or a fall is one of the changes that a step can make to irq, each read off the level it leaves. -/
theorem irqRisesAndFallsByTheRule : Obligations.IrqRisesAndFallsByTheRule := by
  unfold Obligations.IrqRisesAndFallsByTheRule
  refine ⟨irq_iff, fun _ _ => engineTurn_irq, fun s t h hs ht => ?rise, fun s t h hs ht => ?fall⟩
  case rise =>
    rcases step_irq h with hkeep | ⟨hturn, hp, hie⟩ | ⟨_, _, hlow⟩ |
      ⟨_, rest, hin, ⟨z, w, rfl, hctrl⟩ | ⟨_, w, rfl, hstatus⟩ | ⟨_, _, rfl, _, hlow⟩⟩
    · simp [hkeep, hs] at ht
    · exact .inl ⟨hturn, hp, hie ▸ ht⟩
    · simp [hlow] at ht
    · obtain ⟨-, hdone, hset⟩ : w.getLsbD 1 = false ∧ s.done = true ∧ w.getLsbD 0 = true := by simpa [hctrl] using ht
      exact .inr ⟨z, w, rest, hin, hset, hdone⟩
    · simp [hstatus, hs] at ht
    · simp [hlow] at ht
  case fall =>
    obtain ⟨hdone, hie⟩ := (irq_iff s).1 hs
    rcases step_irq h with hkeep | ⟨_, _, hlevel⟩ | ⟨rest, hin, _⟩ |
      ⟨_, rest, hin, ⟨z, w, rfl, hctrl⟩ | ⟨z, w, rfl, hstatus⟩ | ⟨z, w, rfl, hissue, _⟩⟩
    · simp [hkeep, hs] at ht
    · simp [hlevel, hie] at ht
    · exact .inr (.inr (.inr ⟨rest, hin⟩))
    · have hclear : w.getLsbD 0 = false ∨ w.getLsbD 1 = true := by
        simpa [hctrl, hdone, imp_iff_or_not] using ht
      exact .inr (.inr (.inl ⟨z, w, rest, hin, hclear⟩))
    · have hack : w.getLsbD 1 = true := by simpa [hstatus, hs] using ht
      exact .inl ⟨z, w, rest, hin, hack⟩
    · exact .inr (.inl ⟨z, w, rest, hin, hissue⟩)

end Sys2Proof.Machine
end

