-- ==== Sys2Proof/Proofs/Commands.lean ====
section
/-! What a command that answers has written before it completes, said once for all commands, and what follows of every completion:
its code, the fields it sets, the state it leaves, and the order of the command's checks (30_encoding.md R72, 60_exceptions.md R161
to R167). -/

namespace Sys2Proof.Machine

/-- The command `i`, run in `s` and completing with the code `c`, has written `u`: its whole effect but for the completion
fields. -/
inductive State.CommandWrites (s : State) : Instr → ErrCode → State → Prop where
  /-- A command that fails, NOP and U8CK write nothing (R164). -/
  | nothing {i : Instr} {c : ErrCode} (hcode : c ∈ possibleCodes i) (hok : c = .ok → i = .nop ∨ i = .u8ck) :
      CommandWrites s i c s
  /-- A GENK that fails has used up its draw (R146). -/
  | draw : CommandWrites s .genk .entropy s.afterEntropy
  /-- GENK writes a key text (R146). -/
  | keyText {d : List Byte} (hlen : d.length = 24) : CommandWrites s .genk .ok (s.afterEntropy.putOutput d)
  /-- The commands that read IN_BUF and write OUT_BUF put a message that fits (R30). -/
  | message {i : Instr} {d : List Byte} (hi : i = .encm ∨ i = .decm ∨ i = .pad ∨ i = .b64e ∨ i = .b64d)
      (hfit : d.length ≤ Config.bufBytes) (hpad : i = .encm ∨ i = .pad → d.length = padlen s.inCount)
      (hdecm : i = .decm → d.length = s.inCount) (hb64e : i = .b64e → d.length = b64len s.inCount)
      (hb64d : i = .b64d → 4 * d.length ≤ 3 * s.inCount) : CommandWrites s i .ok (s.putOutput d)
  /-- EXPAND writes the table of the current key (R101). -/
  | table : CommandWrites s .expand .ok (s.putTable (expand (keyBytes s.key)))
  /-- ENCB and DECB write the block registers (R115, R116). -/
  | block {i : Instr} (ab : Word × Word) (hi : i = .encb ∨ i = .decb) : CommandWrites s i .ok (s.putBlock ab)
  /-- KEYD writes the key (R141). -/
  | key (k : Vector Word 4) : CommandWrites s .keyd .ok (s.putKey k)
  /-- XFER writes the output to IN_BUF (R151). -/
  | input {d : List Byte} (hlen : d.length = s.outCount) : CommandWrites s .xfer .ok (s.putInput d)

/-- A command makes its writes and then completes, or stops at an unwritten byte of the message it reads (R31, R163). -/
theorem exec_cases (i : Instr) (s : State) :
    (∃ c u, s.CommandWrites i c u ∧ exec i s = .next (u.complete c))
      ∨ (i ∈ inputCommands ∧ s.input = none ∧ exec i s = .fault (.unwrittenBufferRead .inBuf))
      ∨ (i ∈ [Instr.u8ck, .xfer] ∧ s.output = none ∧ exec i s = .fault (.unwrittenBufferRead .outBuf)) := by
  rcases exec_shape i s with ⟨_, hc, hx, hok⟩ | ⟨rfl, hx⟩ | ⟨rfl, d, hd, hx⟩ | ⟨hi, d, hfit, hpad, hdecm, hb64e, hb64d, hx⟩ |
    ⟨rfl, hx⟩ | ⟨hi, ab, hx⟩ | ⟨rfl, k, hx⟩ | ⟨rfl, d, _, hd, hx⟩ | ⟨hi, hnone, hx⟩ | ⟨hi, hnone, hx⟩
  · exact .inl ⟨_, _, .nothing hc hok, hx⟩
  · exact .inl ⟨_, _, .draw, hx⟩
  · exact .inl ⟨_, _, .keyText hd, hx⟩
  · exact .inl ⟨_, _, .message hi hfit hpad hdecm hb64e hb64d, hx⟩
  · exact .inl ⟨_, _, .table, hx⟩
  · exact .inl ⟨_, _, .block ab hi, hx⟩
  · exact .inl ⟨_, _, .key k, hx⟩
  · exact .inl ⟨_, _, .input hd, hx⟩
  · exact .inr (.inl ⟨by simpa [inputCommands] using hi, hnone, hx⟩)
  · exact .inr (.inr ⟨by simpa using hi, hnone, hx⟩)

/-- A command that answers has made its writes and then completed (R163). -/
theorem exec_next {i : Instr} {s t : State} (h : exec i s = .next t) :
    ∃ c u, t = u.complete c ∧ s.CommandWrites i c u := by
  rcases exec_cases i s with ⟨c, u, hu, hx⟩ | ⟨_, _, hx⟩ | ⟨_, _, hx⟩ <;> cases hx.symm.trans h
  exact ⟨c, u, rfl, hu⟩

/-! ## Every completion -/

/-- Every command can complete with OK (R162). -/
theorem ok_mem_possibleCodes (i : Instr) : .ok ∈ possibleCodes i := by
  cases i <;> decide

/-- The code of a completion is among the command's own (R162). -/
theorem State.CommandWrites.mem_possibleCodes {s u : State} {i : Instr} {c : ErrCode} (h : s.CommandWrites i c u) :
    c ∈ possibleCodes i := by
  cases h with
  | nothing hcode => exact hcode
  | draw => decide
  | _ => exact ok_mem_possibleCodes _

/-- No error code is above 7 (R161). -/
theorem ErrCode.code_toNat_le (c : ErrCode) : c.code.toNat ≤ 7 := by
  cases c <;> decide

/-- Settles O31: the code of every completion is one of the command's. -/
theorem errorCodesAreTheTables : Obligations.ErrorCodesAreTheTables := by
  unfold Obligations.ErrorCodesAreTheTables
  intro i s t h
  obtain ⟨c, u, rfl, hu⟩ := exec_next h
  exact ⟨hu.mem_possibleCodes, c.code_toNat_le⟩

/-- `u` has the flags and the records of the bus as `s` has them: nothing that R163 gives to the completion alone is written. -/
def State.SameFlags (s u : State) : Prop :=
  u.ovr = s.ovr ∧ u.ie = s.ie ∧ u.inputs = s.inputs ∧ u.resp = s.resp ∧ u.fault = s.fault

/-- No command writes OVR, CTRL or the records of the bus (R163). -/
theorem State.CommandWrites.sameFlags {s u : State} {i : Instr} {c : ErrCode} (h : s.CommandWrites i c u) :
    s.SameFlags u := by
  have hdraw : s.SameFlags s.afterEntropy :=
    ⟨afterEntropy_ovr s, afterEntropy_ie s, afterEntropy_inputs s, afterEntropy_resp s, afterEntropy_fault s⟩
  cases h with
  | draw => exact hdraw
  | keyText => exact hdraw
  | _ => exact ⟨rfl, rfl, rfl, rfl, rfl⟩

/-- Settles O32: the completion's own writes after those of the command, which leave the flags. -/
theorem completionSetsDone : Obligations.CompletionSetsDone := by
  unfold Obligations.CompletionSetsDone
  intro i s t h
  obtain ⟨c, u, rfl, hu⟩ := exec_next h
  obtain ⟨hovr, hie, hinputs, hresp, hfault⟩ := hu.sameFlags
  exact ⟨rfl, rfl, rfl, hovr, hie, (complete_irq u c).trans hie, hinputs, hresp, hfault⟩

/-- A command that fails has written nothing, and has used up a draw if it is GENK (R164). -/
theorem State.CommandWrites.eq_of_error {s u : State} {i : Instr} {c : ErrCode} (h : s.CommandWrites i c u) (hc : c ≠ .ok) :
    u = s ∨ (i = .genk ∧ u = s.afterEntropy) := by
  cases h with
  | nothing => exact .inl rfl
  | draw => exact .inr ⟨rfl, rfl⟩
  | _ => exact absurd rfl hc

/-- A CMD write after a completion issues its word (R76). -/
theorem transact_write_cmd_complete (u : State) (c : ErrCode) (cw : Word) :
    transact ⟨.write, 0x00C, .word, cw⟩ (u.complete c) =
      .next { u.complete c with pending := some cw, done := false, resp := some ⟨.ok, none⟩ } :=
  transact_write_cmd cw (complete_busy u c)

/-- Settles O30: a failing command writes nothing but GENK's draw before it completes, and then nothing is pending. -/
theorem failingCommandWritesNothing : Obligations.FailingCommandWritesNothing := by
  unfold Obligations.FailingCommandWritesNothing
  intro i s t h hc
  obtain ⟨c, u, rfl, hu⟩ := exec_next h
  rcases hu.eq_of_error hc with rfl | ⟨rfl, rfl⟩
  · exact ⟨rfl, fun _ => ⟨rfl, rfl⟩, transact_write_cmd_complete u c⟩
  · exact ⟨congrArg (State.complete · c) (afterEntropy_eq s), fun hne => absurd rfl hne, transact_write_cmd_complete _ c⟩

/-- Settles O33: each command's completion, or the unwritten byte that stops it. -/
theorem commandsAnswerOrReadUnwritten : Obligations.CommandsAnswerOrReadUnwritten := by
  unfold Obligations.CommandsAnswerOrReadUnwritten
  intro i s
  exact (exec_cases i s).imp_left fun ⟨_, _, _, hx⟩ => ⟨_, hx⟩

/-- Settles O34: each kind of writes against the operand table. -/
theorem commandsWriteOnlyTheirOperands : Obligations.CommandsWriteOnlyTheirOperands := by
  unfold Obligations.CommandsWriteOnlyTheirOperands
  intro i s t h
  obtain ⟨c, u, rfl, hu⟩ := exec_next h
  cases hu with
  | nothing => simp
  | draw => simp
  | keyText => simp [outputCommands]
  | message hi => rcases hi with rfl | rfl | rfl | rfl | rfl <;> simp [outputCommands]
  | table => simp
  | block ab hi => rcases hi with rfl | rfl <;> simp
  | key => simp
  | input => simp

/-- Once an output that fits is written, OUT_LEN counts it, its bytes are there and the later ones are as before (R30). -/
theorem putOutput_complete_spec (s : State) (c : ErrCode) {d : List Byte} (hfit : d.length ≤ Config.bufBytes) :
    ((s.putOutput d).complete c).outCount = d.length
      ∧ (∃ d', ((s.putOutput d).complete c).outBuf.readBytes 0 ((s.putOutput d).complete c).outCount = some d')
      ∧ ∀ a, ((s.putOutput d).complete c).outCount ≤ a → ((s.putOutput d).complete c).outBuf.read a = s.outBuf.read a := by
  obtain ⟨hcount, hout, hrest⟩ := putOutput_spec s hfit
  exact ⟨hcount, ⟨d, hout⟩, fun a ha => hrest a (hcount ▸ ha)⟩

/-- Settles O35: a failing output command writes nothing to OUT_BUF, and a successful one an output that fits, of its rule's
length. -/
theorem outputLeavesTheRestOfOutBuf : Obligations.OutputLeavesTheRestOfOutBuf := by
  unfold Obligations.OutputLeavesTheRestOfOutBuf
  intro i s t hi h
  obtain ⟨c, u, rfl, hu⟩ := exec_next h
  refine ⟨fun hc => ?_, fun hc => ?_⟩
  · rcases hu.eq_of_error hc with rfl | ⟨-, rfl⟩ <;> simp
  · cases hu with
    | nothing _ hok => rcases hok hc with rfl | rfl <;> simp [outputCommands] at hi
    | draw => cases hc
    | @keyText d hlen =>
      obtain ⟨hcount, hout, hrest⟩ := putOutput_complete_spec s.afterEntropy .ok (hlen ▸ bufBytes_bounds.1)
      rw [afterEntropy_outBuf] at hrest
      exact ⟨hout, hrest, by simp, by simp, by simp, by simp, fun _ => hcount.trans hlen⟩
    | message hmsg hfit hpad hdecm hb64e hb64d =>
      obtain ⟨hcount, hout, hrest⟩ := putOutput_complete_spec s .ok hfit
      rw [← hcount] at hpad hdecm hb64e hb64d
      refine ⟨hout, hrest, hpad, hdecm, hb64e, hb64d, ?_⟩
      rintro rfl
      simp at hmsg
    | block _ hblk => rcases hblk with rfl | rfl <;> simp [outputCommands] at hi
    | _ => simp [outputCommands] at hi

/-- Settles O29: LENGTH is the first check of each command that reads IN_BUF; the check of TV is the first of ENCB and DECB and the
next one of ENCM and DECM. -/
theorem lengthThenTableAreCheckedFirst : Obligations.LengthThenTableAreCheckedFirst := by
  unfold Obligations.LengthThenTableAreCheckedFirst
  refine ⟨fun i s hi hlong => ?_, fun i s hi htv hfit => ?_⟩
  · simp only [inputCommands, List.mem_cons, List.not_mem_nil, or_false] at hi
    rcases hi with rfl | rfl | rfl | rfl | rfl | rfl <;> exact checkInLen_of_long hlong _
  · simp only [List.mem_cons, List.not_mem_nil, or_false] at hi
    rcases hi with rfl | rfl | rfl | rfl
    · exact checkTable_of_invalid htv _
    · exact checkTable_of_invalid htv _
    · exact checks_noTable (hfit (.inl rfl)) htv _
    · exact checks_noTable (hfit (.inr rfl)) htv _

end Sys2Proof.Machine
end

