-- ==== Sys2Proof/Proofs/Invariants.lean ====
section
/-! What every step keeps: one statement of all that a step can do to a property of the state, and the invariants of the engine
derived from it (10_state.md R19, R22, R23, R28, R29). -/

namespace Sys2Proof.Machine

/-- `t` differs from `s` at most in OVR and in the records of the bus, and keeps a recorded fault (R172). -/
def State.SameButBus (s t : State) : Prop :=
  ∃ o f r d, (s.fault ≠ none → f = s.fault) ∧ t = { s with ovr := o, fault := f, resp := r, draws := d }

/-- A host transaction that is answered is an accepted write, or leaves the engine but for OVR as it was (R51, R58, R61). -/
theorem transact_next {x : Txn} {s t : State} (h : transact x s = .next t) :
    s.SameButBus t
      ∨ (x.wf = true ∧ t = (s.writeTarget x.size.bytes x.wdata (target x.addr)).respond ⟨.ok, none⟩) := by
  rcases transact_cases x s with ⟨_, hx⟩ | ⟨_, _, hx⟩ | ⟨hwf, _, hx⟩
  case inl =>
    cases hx.symm.trans h
    exact .inl ⟨s.ovr, _, _, s.draws, fun hf => if_neg hf, rfl⟩
  case inr.inl =>
    rcases hostRead_cases x s with ⟨_, _, hr⟩ | ⟨_, ⟨v, _, hr⟩ | ⟨f, _, hr⟩⟩ <;> rw [hx, hr] at h <;> cases h
    · exact .inl ⟨s.ovr, s.fault, _, _, fun _ => rfl, rfl⟩
    · exact .inl ⟨s.ovr, s.fault, _, s.draws, fun _ => rfl, rfl⟩
  case inr.inr =>
    cases hx.symm.trans h
    rcases hostWrite_cases x s with ⟨_, _, hr⟩ | ⟨_, hr⟩ <;> rw [hr]
    · exact .inl ⟨true, s.fault, _, s.draws, fun _ => rfl, rfl⟩
    · exact .inr ⟨hwf, rfl⟩

/-- A host write keeps the recorded fault and takes no input off the list, a reset included (R172). -/
theorem writeTarget_records (s : State) (n : Nat) (w : Word) (g : Target) :
    (s.writeTarget n w g).fault = s.fault ∧ (s.writeTarget n w g).inputs = s.inputs := by
  cases g
  case ctrl =>
    rw [State.writeTarget]
    split <;> exact ⟨rfl, rfl⟩
  all_goals exact ⟨rfl, rfl⟩

/-- `P` is kept by everything a step can do. -/
structure StepInvariant (P : State → Prop) : Prop where
  /-- The next input is taken off the list. -/
  inputs : ∀ s is, P s → P { s with inputs := is }
  /-- A transaction that writes nothing is answered. -/
  bus : ∀ s o f r d, (s.fault ≠ none → f = s.fault) → P s → P { s with ovr := o, fault := f, resp := r, draws := d }
  /-- The host writes. -/
  write : ∀ s (x : Txn), x.wf = true → P s → P (s.writeTarget x.size.bytes x.wdata (target x.addr))
  /-- The engine is reset. -/
  reset : ∀ s, P s → P s.resetAction
  /-- A command writes and completes. -/
  command : ∀ s i c u, s.CommandWrites i c u → P s → P (u.complete c)
  /-- An illegal word completes. -/
  illegal : ∀ s, P s → P (s.complete .illegalCmd)

section Steps
variable {P : State → Prop} {s t : State}

theorem StepInvariant.engineTurn (hP : StepInvariant P) (hs : P s) (h : engineTurn s = .next t) : P t := by
  rcases engineTurn_cases s with ⟨_, hx⟩ | ⟨_, _, _, _, hx⟩ | ⟨_, i, _, _, hx⟩
  · cases hx.symm.trans h
    exact hs
  · cases hx.symm.trans h
    exact hP.illegal s hs
  · obtain ⟨c, u, rfl, hu⟩ := exec_next (hx.symm.trans h)
    exact hP.command s i c u hu hs

theorem StepInvariant.transact (hP : StepInvariant P) {x : Txn} (hs : P s) (h : transact x s = .next t) : P t := by
  rcases transact_next h with ⟨o, f, r, d, hf, rfl⟩ | ⟨hwf, rfl⟩
  · exact hP.bus s o f r d hf hs
  · exact hP.bus _ _ _ _ _ (fun _ => rfl) (hP.write s x hwf hs)

/-- A property kept by everything a step can do is kept by every step. -/
theorem StepInvariant.step (hP : StepInvariant P) (hs : P s) (h : step s = .next t) : P t := by
  rcases step_cases s with ⟨_, hx⟩ | ⟨i, rest, _, hx⟩ <;> rw [hx] at h
  · exact hP.engineTurn hs h
  · have hs : P { s with inputs := rest } := hP.inputs s rest hs
    cases i with
    | host x => exact hP.transact hs h
    | engine => exact hP.engineTurn hs h
    | resetPin =>
      cases h
      exact hP.reset _ hs

end Steps

/-! ## The buffers and OUT_LEN -/

/-- Every byte of a range that is read whole holds a value. -/
theorem Memory.read_isSome_of_readBytes {m : Memory} {n a : Nat} {d : List Byte} (h : m.readBytes 0 n = some d) (ha : a < n) :
    (m.read a).isSome := by
  obtain ⟨hlen, hread⟩ := Memory.readBytes_eq_some.1 h
  rw [← Nat.zero_add a, hread a ha, List.getElem?_eq_getElem (hlen ▸ ha)]
  rfl

section Buffers
variable {s : State} {d : List Byte}

/-- The invariant of the buffers speaks of the buffers and OUT_LEN alone. -/
theorem State.BufInv.congr {t : State} (h : s.BufInv) (hin : t.inBuf = s.inBuf) (hout : t.outBuf = s.outBuf)
    (hlen : t.outLen = s.outLen) : t.BufInv := by
  have hcount : t.outCount = s.outCount := congrArg BitVec.toNat hlen
  exact ⟨hin ▸ h.inSound, hout ▸ h.outSound, hcount ▸ h.outLenLe, hout ▸ hcount ▸ h.written⟩

/-- An output that fits leaves its bytes written and OUT_LEN at their count (R23, R30). -/
theorem State.BufInv.putOutput (h : s.BufInv) (hfit : d.length ≤ Config.bufBytes) : (s.putOutput d).BufInv := by
  obtain ⟨hcount, hout, -⟩ := putOutput_spec s hfit
  exact ⟨h.inSound, Memory.writeBytes_sound h.outSound (by omega), by omega,
    fun a ha => Memory.read_isSome_of_readBytes hout ha⟩

/-- XFER's writes fit IN_BUF, as OUT_LEN is in range (R23, R151). -/
theorem State.BufInv.putInput (h : s.BufInv) (hlen : d.length = s.outCount) : (s.putInput d).BufInv := by
  have hfit := h.outLenLe
  exact ⟨Memory.writeBytes_sound h.inSound (by omega), h.outSound, h.outLenLe, h.written⟩

/-- A reset keeps a buffer or empties it, and OUT_LEN is 0 after it (R37, R189). -/
theorem State.BufInv.resetAction (h : s.BufInv) : s.resetAction.BufInv where
  inSound := by rcases resetAction_inBuf_cases s with hb | hb <;> rw [hb]; exacts [h.inSound, Memory.nil_sound]
  outSound := by rcases resetAction_outBuf_cases s with hb | hb <;> rw [hb]; exacts [h.outSound, Memory.nil_sound]
  outLenLe := Nat.zero_le _
  written := fun a ha => absurd ha (Nat.not_lt_zero a)

/-- A write the engine performs at IN_BUF ends below BUF_BYTES (R48, R51). -/
theorem inWindow_fits {x : Txn} {o : Nat} (hwf : x.wf = true) (hg : target x.addr = .inBuf o) :
    o + x.size.bytes ≤ Config.bufBytes := by
  obtain ⟨haddr, -, ho⟩ := target_inBuf hg
  have haligned : x.addr.toNat % x.size.bytes = 0 := by
    simp only [Txn.wf, Txn.aligned, Bool.and_eq_true, beq_iff_eq] at hwf
    exact hwf.1
  refine window_fits ho (bytes_cases x.size) ?_
  rcases bytes_cases x.size with hz | hz | hz <;> rw [hz] at haligned ⊢ <;> omega

/-- A host write of bytes below BUF_BYTES keeps the buffers sound; no other host write but a reset touches them or OUT_LEN
(R54, R56). -/
theorem State.BufInv.writeTarget (h : s.BufInv) {n : Nat} (w : Word) {g : Target}
    (hfit : ∀ o, g = .inBuf o → o + n ≤ Config.bufBytes) : (s.writeTarget n w g).BufInv := by
  cases g
  case inBuf o =>
    exact ⟨Memory.writeBytes_sound h.inSound (by simpa using hfit o rfl), h.outSound, h.outLenLe, h.written⟩
  case ctrl =>
    rw [State.writeTarget]
    split
    · exact h.resetAction
    · exact h.congr rfl rfl rfl
  all_goals exact h.congr rfl rfl rfl

/-- A command's writes keep the buffers sound: its output fits, and XFER copies an output that does. -/
theorem State.BufInv.command {i : Instr} {c : ErrCode} {u : State} (h : s.BufInv) (hu : s.CommandWrites i c u) :
    u.BufInv := by
  have hdraw : s.afterEntropy.BufInv :=
    h.congr (afterEntropy_inBuf s) (afterEntropy_outBuf s) (afterEntropy_outLen s)
  cases hu with
  | nothing => exact h
  | draw => exact hdraw
  | keyText hlen => exact hdraw.putOutput (hlen ▸ bufBytes_bounds.1)
  | message _ hfit => exact h.putOutput hfit
  | table => exact h.congr rfl rfl rfl
  | block => exact h.congr rfl rfl rfl
  | key => exact h.congr rfl rfl rfl
  | input hlen => exact h.putInput hlen

end Buffers

theorem bufInv_stepInvariant : StepInvariant State.BufInv where
  inputs _ _ h := h.congr rfl rfl rfl
  bus _ _ _ _ _ _ h := h.congr rfl rfl rfl
  write _ x hwf h := h.writeTarget x.wdata fun _ => inWindow_fits hwf
  reset _ h := h.resetAction
  command _ _ _ _ hu h := (h.command hu).congr rfl rfl rfl
  illegal _ h := h.congr rfl rfl rfl

/-- Settles O41: the invariant is kept by all that a step can do. -/
theorem stepKeepsTheBuffersSound : Obligations.StepKeepsTheBuffersSound := by
  unfold Obligations.StepKeepsTheBuffersSound
  exact fun _ _ => bufInv_stepInvariant.step

/-! ## The subkey table -/

section Table
variable {s : State}

/-- The invariant of the table speaks of the key, the subkeys and TV alone. -/
theorem State.TableInv.congr {t : State} (h : s.TableInv) (hkey : t.key = s.key) (hsubkey : t.subkey = s.subkey)
    (htv : t.tv = s.tv) : t.TableInv := by
  unfold State.TableInv
  rw [hkey, hsubkey, htv]
  exact h

/-- The invariant holds wherever TV = 0 (R22). -/
theorem tableInv_of_invalid (h : s.tv = false) : s.TableInv := fun htv => absurd htv (ne_true_of_eq_false h)

/-- A host write keeps the table of the current key, or clears TV: at KEYj and at a reset (R26, R37). -/
theorem State.TableInv.writeTarget (h : s.TableInv) (n : Nat) (w : Word) (g : Target) : (s.writeTarget n w g).TableInv := by
  cases g
  case key => exact tableInv_of_invalid rfl
  case ctrl =>
    rw [State.writeTarget]
    split
    · exact tableInv_of_invalid rfl
    · exact h
  all_goals exact h

/-- EXPAND writes the table of the current key and KEYD clears TV; no other command touches key, table or TV. -/
theorem State.TableInv.command {i : Instr} {c : ErrCode} {u : State} (h : s.TableInv) (hu : s.CommandWrites i c u) :
    u.TableInv := by
  have hdraw : s.afterEntropy.TableInv :=
    h.congr (afterEntropy_key s) (afterEntropy_subkey s) (afterEntropy_tv s)
  cases hu with
  | nothing => exact h
  | draw => exact hdraw
  | keyText => exact hdraw
  | message => exact h
  | table => exact fun _ => rfl
  | block => exact h
  | key => exact tableInv_of_invalid rfl
  | input => exact h

end Table

theorem tableInv_stepInvariant : StepInvariant State.TableInv where
  inputs _ _ h := h
  bus _ _ _ _ _ _ h := h
  write _ _ _ h := h.writeTarget _ _ _
  reset _ _ := tableInv_of_invalid rfl
  command _ _ _ _ hu h := (h.command hu).congr rfl rfl rfl
  illegal _ h := h

/-- Settles O42: the invariant is kept by all that a step can do. -/
theorem stepKeepsTheTableValid : Obligations.StepKeepsTheTableValid := by
  unfold Obligations.StepKeepsTheTableValid
  exact fun _ _ => tableInv_stepInvariant.step

/-! ## DONE -/

section Done
variable {s : State}

/-- The invariant of DONE holds wherever nothing is pending. -/
theorem busyInv_of_idle (h : s.busy = false) : s.BusyInv := fun hb => absurd hb (ne_true_of_eq_false h)

/-- An issue clears DONE, and no other host write sets it or makes a command pending (R19, R76). -/
theorem State.BusyInv.writeTarget (h : s.BusyInv) (n : Nat) (w : Word) (g : Target) : (s.writeTarget n w g).BusyInv := by
  cases g
  case cmd => exact fun _ => issue_done s w
  case status =>
    intro hb
    rw [State.writeTarget, clearFlags_done, h hb, Bool.false_and]
  case ctrl =>
    rw [State.writeTarget]
    split
    · exact busyInv_of_idle rfl
    · exact h
  all_goals exact h

end Done

theorem busyInv_stepInvariant : StepInvariant State.BusyInv where
  inputs _ _ h := h
  bus _ _ _ _ _ _ h := h
  write _ _ _ h := h.writeTarget _ _ _
  reset _ _ := busyInv_of_idle rfl
  command _ _ _ _ _ _ := busyInv_of_idle rfl
  illegal _ _ := busyInv_of_idle rfl

/-- Settles O43: the invariant is kept by all that a step can do; a completion leaves nothing pending. -/
theorem stepKeepsDoneClearWhileBusy : Obligations.StepKeepsDoneClearWhileBusy := by
  unfold Obligations.StepKeepsDoneClearWhileBusy
  exact fun _ _ => busyInv_stepInvariant.step

/-- Settles O40: after reset the buffers are empty, OUT_LEN is 0, TV = 0 and nothing is pending. -/
theorem resetMeetsTheInvariants : Obligations.ResetMeetsTheInvariants := by
  unfold Obligations.ResetMeetsTheInvariants
  refine ⟨⟨⟨Memory.nil_sound, Memory.nil_sound, Nat.zero_le _, fun a ha => absurd ha (Nat.not_lt_zero a)⟩,
    tableInv_of_invalid rfl, busyInv_of_idle rfl⟩, rfl⟩

end Sys2Proof.Machine
end

