-- ==== Sys2Proof/Proofs/UnreadState.lean ====
section
/-! State that commands do not read (30_encoding.md R72, 10_state.md R30): the key, and IN_BUF from IN_LEN on. A change of such
state before a command is the same change after it. -/

namespace Sys2Proof.Machine

/-- `f` changes only state that the shared operations of the commands neither read nor write, IN_BUF and the key set aside. -/
structure Unread (f : State → State) : Prop where
  inCount : ∀ s, (f s).inCount = s.inCount := by intros; rfl
  output : ∀ s, (f s).output = s.output := by intros; rfl
  tv : ∀ s, (f s).tv = s.tv := by intros; rfl
  subkey : ∀ s, (f s).subkey = s.subkey := by intros; rfl
  blkA : ∀ s, (f s).blkA = s.blkA := by intros; rfl
  blkB : ∀ s, (f s).blkB = s.blkB := by intros; rfl
  drawnEntropy : ∀ s, (f s).drawnEntropy = s.drawnEntropy := by intros; rfl
  afterEntropy : ∀ s, (f s).afterEntropy = f s.afterEntropy
  putOutput : ∀ s d, (f s).putOutput d = f (s.putOutput d) := by intros; rfl
  putBlock : ∀ s ab, (f s).putBlock ab = f (s.putBlock ab) := by intros; rfl
  complete : ∀ s c, (f s).complete c = f (s.complete c) := by intros; rfl

theorem unread_key (k : Vector Word 4) : Unread fun s => { s with key := k } where
  afterEntropy s := by unfold State.afterEntropy; cases s.entropy <;> rfl

theorem unread_inBuf (m : Memory) : Unread fun s => { s with inBuf := m } where
  afterEntropy s := by unfold State.afterEntropy; cases s.entropy <;> rfl

/-! ## The shared operations -/

section Operations
variable {f : State → State} (hf : Unread f) (s : State)
include hf

/-- Each shared operation, run after the change, is the operation with the change made to its outcome, if that is so of the rest
of the command. -/
theorem Unread.raise (c : ErrCode) : raise c (f s) = mapNext f (raise c s) := congrArg Host.Outcome.next (hf.complete s c)

theorem Unread.succeed : succeed (f s) = mapNext f (succeed s) := hf.raise s .ok

theorem Unread.succeed_putOutput (d : List Byte) :
    Machine.succeed ((f s).putOutput d) = mapNext f (Machine.succeed (s.putOutput d)) := by
  rw [hf.putOutput]
  exact hf.succeed _

theorem Unread.checkInLen {k k' : Result} (hk : k' = mapNext f k) :
    checkInLen (f s) k' = mapNext f (checkInLen s k) := by
  unfold Machine.checkInLen
  rw [hf.inCount]
  split
  · exact hf.raise s .length
  · exact hk

theorem Unread.checkTable {k k' : Result} (hk : k' = mapNext f k) :
    checkTable (f s) k' = mapNext f (checkTable s k) := by
  unfold Machine.checkTable
  rw [hf.tv]
  split
  · exact hk
  · exact hf.raise s .noTable

theorem Unread.withOutput {k k' : List Byte → Result} (hk : ∀ d, k' d = mapNext f (k d)) :
    withOutput (f s) k' = mapNext f (withOutput s k) := by
  unfold Machine.withOutput
  rw [hf.output]
  cases s.output with
  | none => rfl
  | some d => exact hk d

omit hf in
theorem withInput_mapNext {s : State} (hin : (f s).input = s.input) {k k' : List Byte → Result}
    (hk : ∀ d, k' d = mapNext f (k d)) : withInput (f s) k' = mapNext f (withInput s k) := by
  unfold withInput
  rw [hin]
  cases s.input with
  | none => rfl
  | some d => exact hk d

end Operations

/-! ## The commands -/

section Commands
variable {f : State → State} (hf : Unread f) {s : State} (hin : (f s).input = s.input)
include hf hin

/-- A change of unread state that leaves the message in IN_BUF passes through every command that deals with neither the key nor
IN_BUF as a whole. -/
theorem Unread.exec {i : Instr} (hi : i ∉ [Instr.expand, .keyd, .xfer]) : exec i (f s) = mapNext f (exec i s) := by
  have hout (d : List Byte) := hf.succeed_putOutput s d
  cases i with
  | nop => exact hf.succeed s
  | encb =>
    refine hf.checkTable s ?_
    rw [hf.subkey, hf.blkA, hf.blkB, hf.putBlock]
    exact hf.succeed _
  | decb =>
    refine hf.checkTable s ?_
    rw [hf.subkey, hf.blkA, hf.blkB, hf.putBlock]
    exact hf.succeed _
  | encm => exact hf.checkInLen s (hf.checkTable s (withInput_mapNext hin fun d => hf.subkey s ▸ hout _))
  | decm =>
    refine hf.checkInLen s (hf.checkTable s ?_)
    rw [hf.inCount]
    split
    · exact hf.raise s .decode
    · exact withInput_mapNext hin fun d => hf.subkey s ▸ hout _
  | pad => exact hf.checkInLen s (withInput_mapNext hin fun d => hout _)
  | b64e =>
    refine hf.checkInLen s ?_
    rw [hf.inCount]
    split
    · exact hf.raise s .length
    · exact withInput_mapNext hin fun d => hout _
  | b64d =>
    refine hf.checkInLen s (withInput_mapNext hin fun t => ?_)
    cases b64dec t with
    | none => exact hf.raise s .decode
    | some o => exact hout o
  | genk =>
    refine congrArg Host.Outcome.next ?_
    rw [hf.drawnEntropy, hf.afterEntropy]
    cases s.drawnEntropy with
    | none => exact hf.complete _ .entropy
    | some r => exact (congrArg (State.complete · .ok) (hf.putOutput _ _)).trans (hf.complete _ .ok)
  | u8ck =>
    refine hf.withOutput s fun d => ?_
    split
    · exact hf.succeed s
    · exact hf.raise s .encoding
  | _ => simp at hi

end Commands

/-- KEYD gives one state whatever the old key where it succeeds, and keeps the old key where it fails or stops (R141). -/
theorem exec_keyd_withKey (s : State) (k : Vector Word 4) :
    exec .keyd { s with key := k } =
      mapNext (fun t => if t.errcode = .ok then t else { t with key := k }) (exec .keyd s) := by
  rcases execKeyd_cases s with ⟨hlong, hx⟩ | ⟨hfit, hnone, hx⟩ | ⟨hfit, t, hin, _, ht, hx⟩ | ⟨hfit, t, o, hin, _, ht, hx⟩ <;>
    rw [hx]
  · exact checkInLen_of_long (s := { s with key := k }) hlong _
  · exact (checkInLen_of_fits (s := { s with key := k }) hfit _).trans (withInput_of_unwritten hnone _)
  · exact exec_keyd_of_not_keyText hfit hin ht
  · exact exec_keyd_of_keyText hfit hin ht

/-- Settles O36: the key is unread but for EXPAND and KEYD; XFER's copy does not involve it. -/
theorem onlyExpandReadsTheKey : Obligations.OnlyExpandReadsTheKey := by
  unfold Obligations.OnlyExpandReadsTheKey
  refine ⟨fun i s k hexpand hkeyd => ?_, exec_keyd_withKey⟩
  by_cases hxfer : i = .xfer
  · subst hxfer
    exact (unread_key k).withOutput s fun d => rfl
  · exact (unread_key k).exec rfl (by simp [hexpand, hkeyd, hxfer])

/-- KEYD reads the message in IN_BUF alone of that buffer. -/
theorem exec_keyd_withInBuf {s : State} {m : Memory} (hin : ({ s with inBuf := m } : State).input = s.input) :
    exec .keyd { s with inBuf := m } = mapNext (fun t => { t with inBuf := m }) (exec .keyd s) := by
  refine (unread_inBuf m).checkInLen s (withInput_mapNext (f := fun s => { s with inBuf := m }) hin fun t => ?_)
  cases keydec t with
  | none => exact (unread_inBuf m).raise s .keyFormat
  | some k => rfl

/-- Settles O37: two buffers that agree below IN_LEN hold the same message, and IN_BUF is otherwise unread. -/
theorem inputBeyondInLenIsNotRead : Obligations.InputBeyondInLenIsNotRead := by
  unfold Obligations.InputBeyondInLenIsNotRead
  intro i s m hxfer hagree
  have hin : ({ s with inBuf := m } : State).input = s.input :=
    Memory.readBytes_congr fun a ha => by simpa using hagree a ha
  by_cases hi : i ∈ [Instr.expand, .keyd]
  · simp only [List.mem_cons, List.not_mem_nil, or_false] at hi
    rcases hi with rfl | rfl
    · rfl
    · exact exec_keyd_withInBuf hin
  · exact (unread_inBuf m).exec hin (by simpa [hxfer] using hi)

end Sys2Proof.Machine
end

