-- ==== Sys2Proof/Proofs/Facade.lean ====
section
/-! The key as words, bytes and text, GENK and the key it gives to KEYD by way of XFER (10_state.md R25, 43_facade.md R140 to R146);
zero padding of texts, and `encrypt` with `decrypt` (43_facade.md R148, R156 to R158). -/

namespace Sys2Proof.Machine

/-! ## Keys -/

/-- The words of the byte view of the key registers are the registers (R25, R96). -/
theorem keyWords_keyBytes (key : Vector Word 4) : keyWords (keyBytes key) = key := by
  have hreg (w : Word) := le32_extract w
  refine Vector.ext fun j hj => ?_
  interval_cases j <;> exact hreg _

/-- Byte 4j + k of the key is byte k of KEYj (R25). -/
theorem keyBytes_getElem (key : Vector Word 4) {j k : Nat} (hj : j < 4) (hk : k < 4) :
    (keyBytes key)[4 * j + k] = key[j].extractLsb' (8 * k) 8 := by
  interval_cases j <;> interval_cases k <;> rfl

/-- Settles O10: register by register, and byte by byte. -/
theorem keyBytesAndWordsAgree : Obligations.KeyBytesAndWordsAgree := by
  unfold Obligations.KeyBytesAndWordsAgree
  exact ⟨keyWords_keyBytes, keyBytes_keyWords, fun key _ _ => keyBytes_getElem key⟩

section KeyText
variable (r : Vector Byte 16)

/-- The bytes of a key are that key. -/
theorem toKey_toList : toKey r.toList = some r := by
  obtain ⟨k, hk, hbytes⟩ := toKey_of_length (o := r.toList) (by simp)
  rw [hk, Vector.toList_inj.1 hbytes]

/-- The transport text of a key is its key text (R140, R146). -/
theorem keydec_b64enc : keydec (b64enc r.toList) = some r := by
  rw [keydec, b64dec_b64enc]
  exact toKey_toList r

/-- A key text has 24 characters (R146). -/
theorem keyText_length : (b64enc r.toList).length = 24 := by
  simp [b64enc_length, b64len]

/-- A key text ends in two pads, as 16 bytes are one more than five groups of three (R132, R146). -/
theorem keyText_drop : (b64enc r.toList).drop 22 = [0x3D, 0x3D] := by
  have hpads : (b64enc r.toList).drop ((b64enc r.toList).length - 2) = List.replicate 2 padChar :=
    drop_b64enc (by simp)
  rwa [keyText_length] at hpads

end KeyText

section Genk
variable {s : State}

/-- GENK with a successful draw puts its key text and completes with OK (R146). -/
theorem exec_genk_of_drawn {r : Vector Byte 16} (h : s.drawnEntropy = some r) :
    exec .genk s = .next ((s.afterEntropy.putOutput (b64enc r.toList)).complete .ok) := by
  rcases execGenk_cases s with ⟨hnone, _⟩ | ⟨_, hr, hx⟩
  · rw [h] at hnone; cases hnone
  · cases h.symm.trans hr
    exact hx

/-- GENK without a draw reports ENTROPY (R146). -/
theorem exec_genk_of_unavailable (h : s.drawnEntropy = none) : exec .genk s = .next (s.afterEntropy.complete .entropy) := by
  rcases execGenk_cases s with ⟨_, hx⟩ | ⟨_, hr, _⟩
  · exact hx
  · rw [h] at hr; cases hr

end Genk

/-- Settles O23: by the source's answer; the draw touches nothing else. -/
theorem genkCompletes : Obligations.GenkCompletes := by
  unfold Obligations.GenkCompletes
  refine ⟨rfl, fun s r h => ⟨keyText_length r, keyText_drop r, keydec_b64enc r, ?_⟩, fun s h => ?_⟩
  · rw [exec_genk_of_drawn h, afterEntropy_eq s, putOutput_of_length _ (keyText_length r)]
    rfl
  · rw [exec_genk_of_unavailable h, afterEntropy_eq s]
    rfl

/-- Settles O24: GENK leaves the key text as the output, XFER makes it the input, and KEYD decodes it. -/
theorem genkThenXferThenKeydLoadsTheDraw : Obligations.GenkThenXferThenKeydLoadsTheDraw := by
  unfold Obligations.GenkThenXferThenKeydLoadsTheDraw
  intro s r h
  have hfits : (b64enc r.toList).length ≤ Config.bufBytes := keyText_length r ▸ bufBytes_bounds.1
  obtain ⟨hcount, hout, -⟩ := putOutput_spec s.afterEntropy hfits
  obtain ⟨hin, hmsg, -⟩ := putInput_spec ((s.afterEntropy.putOutput (b64enc r.toList)).complete .ok) hcount.symm
  have hshort := hin.trans_le (hcount.trans_le hfits)
  exact ⟨_, _, _, exec_genk_of_drawn h, exec_xfer_of_written hout, exec_keyd_of_keyText hshort hmsg (keydec_b64enc r), rfl,
    keyBytes_keyWords r, rfl⟩

/-! ## Texts -/

/-- The byte 0 continues no sequence (R148). -/
theorem rest_not_has_zero {b : Byte} {rs : List ByteRange} (h : utf8Rest b = some rs) : ∀ r ∈ rs, r.has 0 = false := by
  obtain ⟨row, hrow, -, rfl⟩ := exists_row_of_utf8Rest h
  have htable : ∀ row ∈ utf8Table, ∀ r ∈ row.rest, r.has 0 = false := by decide
  exact htable row hrow

/-- Zeros after the end of a text change nothing, where the byte 0 is in none of the ranges that are due: they can neither complete
a sequence that was cut off nor spoil a complete text. -/
theorem utf8From_append_zeros (n : Nat) (d : List Byte) (rs : List ByteRange) (hrs : ∀ r ∈ rs, r.has 0 = false) :
    utf8From rs (d ++ List.replicate n 0) = utf8From rs d := by
  induction d generalizing rs with
  | nil =>
    cases rs with
    | nil =>
      have hzeros : (List.replicate n [(0 : Byte)]).flatten = List.replicate n 0 := by simp
      exact hzeros ▸ utf8Valid_flatten fun q hq => (List.eq_of_mem_replicate hq) ▸ Nat.zero_le _
    | cons r rs =>
      cases n with
      | zero => rfl
      | succ n =>
        have hzero : r.has 0 = false := hrs r List.mem_cons_self
        simp only [List.replicate_succ, List.nil_append, utf8From, hzero, Bool.false_and]
  | cons b d ih =>
    cases rs with
    | nil =>
      simp only [List.cons_append, utf8From]
      cases hb : utf8Rest b with
      | none => rfl
      | some rs => exact ih rs (rest_not_has_zero hb)
    | cons r rs =>
      simp only [List.cons_append, utf8From]
      rw [ih rs fun r hr => hrs r (List.mem_cons_of_mem _ hr)]

/-- Settles O26: with nothing due at the start. -/
theorem nulPaddingKeepsUtf8Validity : Obligations.NulPaddingKeepsUtf8Validity := by
  unfold Obligations.NulPaddingKeepsUtf8Validity
  exact fun d n => utf8From_append_zeros n d [] (by simp)

/-- The padding of a valid text is valid (R148, R157). -/
theorem utf8Valid_padBlocks {d : List Byte} (h : utf8Valid d = true) : utf8Valid (padBlocks d) = true :=
  (nulPaddingKeepsUtf8Validity d _).trans h

/-- What encryption under a key gives, decryption under it turns back into the padded text (R130, R136, R157). -/
theorem decryptText_b64enc_encm {keyText plain : List Byte} {k : Vector Byte 16} (hk : keydec keyText = some k)
    (hvalid : utf8Valid plain = true) :
    decryptText keyText (b64enc (encm plain (expand k))) = .ok (padBlocks plain) := by
  have hwhole : (encm plain (expand k)).length % 8 = 0 := by
    rw [encm_length]
    exact (padlen_bounds plain.length).2.2
  simp [decryptText, hk, b64dec_b64enc, hwhole, decm_encm, utf8Valid_padBlocks hvalid]

/-- Settles O59: a key text opens both operations, any other text neither. -/
theorem encryptThenDecryptReturnsThePaddedText : Obligations.EncryptThenDecryptReturnsThePaddedText := by
  unfold Obligations.EncryptThenDecryptReturnsThePaddedText
  refine ⟨fun keyText plain c hvalid henc => ?_, fun keyText x hnone => ⟨?_, ?_⟩⟩
  · cases hk : keydec keyText with
    | none => simp [encryptText, hk] at henc
    | some k =>
      obtain rfl : b64enc (encm plain (expand k)) = c := by simpa [encryptText, hk] using henc
      exact decryptText_b64enc_encm hk hvalid
  · simp [encryptText, hnone]
  · simp [decryptText, hnone]

end Sys2Proof.Machine
end

