-- ==== Sys2Proof/Proofs/Schedule.lean ====
section
/-! The schedule (20_memory.md R59): what one step takes, and that nothing stays pending once the inputs are used up. -/

namespace Sys2Proof.Machine

/-- Settles O3: by computing the decoder on the words. -/
theorem sampleCommandWordsDecode : Obligations.SampleCommandWordsDecode := by
  unfold Obligations.SampleCommandWordsDecode
  decide

section Turn
variable {s t : State}

/-- Without inputs a step is the engine's turn (R59). -/
theorem step_of_no_inputs (h : s.inputs = []) : step s = engineTurn s := by
  simp only [step, advance, h]

/-- With inputs a step takes the first (R14, R59). -/
theorem step_of_input {i : Input} {rest : List Input} (h : s.inputs = i :: rest) :
    step s = takeInput i { s with inputs := rest } := by
  simp only [step, advance, h]

/-- The engine completes a pending word that decodes to a command as that command (R163). -/
theorem engineTurn_command {cw : Word} {i : Instr} (hp : s.pending = some cw) (hd : decode cw = .ok i) :
    engineTurn s = exec i s := by
  simp only [engineTurn, hp, completeWord, hd]

/-- The engine is idle with nothing pending (R178). -/
theorem engineTurn_idle (hp : s.pending = none) : engineTurn s = .next s := by
  simp only [engineTurn, hp]

/-- A table row's word, as the host reads it, is decoded by the decoder. -/
theorem decode_of_decodeTableWord {nbits w : Nat} {i : Instr} (h : decodeTableWord nbits w = some i) :
    decode (BitVec.ofNat 32 (w % 2 ^ nbits)) = .ok i := by
  unfold decodeTableWord at h
  split at h <;> cases h
  assumption

/-- The engine's turn leaves nothing pending, and takes no input. -/
theorem engineTurn_settles (h : engineTurn s = .next t) : t.pending = none ∧ t.inputs = s.inputs := by
  rcases engineTurn_cases s with ⟨hp, hx⟩ | ⟨_, _, _, _, hx⟩ | ⟨_, _, _, _, hx⟩
  · cases hx.symm.trans h
    exact ⟨hp, rfl⟩
  · cases hx.symm.trans h
    exact ⟨rfl, rfl⟩
  · obtain ⟨c, u, rfl, hu⟩ := exec_next (hx.symm.trans h)
    obtain ⟨-, -, hinputs, -⟩ := hu.sameFlags
    exact ⟨rfl, hinputs⟩

end Turn

/-- Settles O4: both forms of the engine's turn, and a word placed with the turn that runs it. -/
theorem stepRunsTheDecodedCommand : Obligations.StepRunsTheDecodedCommand := by
  unfold Obligations.StepRunsTheDecodedCommand
  refine ⟨fun s cw i hp hd _ => ⟨fun hin => ?_, fun rest hin => ?_⟩, fun s nbits w i h => ?_⟩
  · exact (step_of_no_inputs hin).trans (engineTurn_command hp hd)
  · exact (step_engine hin).trans (engineTurn_command hp hd)
  · exact (step_engine rfl).trans (engineTurn_command rfl (decode_of_decodeTableWord h))

/-- Settles O5: each kind of input by what a step takes. -/
theorem stepTakesInputsInOrder : Obligations.StepTakesInputsInOrder := by
  unfold Obligations.StepTakesInputsInOrder
  exact ⟨fun _ _ _ hin => step_of_input hin, fun _ _ hin => step_of_input hin,
    fun _ hp hin => (step_of_no_inputs hin).trans (engineTurn_idle hp),
    fun _ _ hp hin => (step_engine hin).trans (engineTurn_idle hp)⟩

/-- An input takes no other input off the list. -/
theorem takeInput_inputs {i : Input} {s t : State} (h : takeInput i s = .next t) : t.inputs = s.inputs := by
  cases i with
  | host x =>
    rcases transact_next h with ⟨_, _, _, _, _, rfl⟩ | ⟨_, rfl⟩
    · rfl
    · exact (writeTarget_records s _ _ _).2
  | resetPin =>
    cases h
    rfl
  | engine => exact (engineTurn_settles h).2

/-- A run over all inputs and one step more ends idle: the last step is the engine's turn. -/
theorem run_settles (n : Nat) {s t : State} (hn : s.inputs.length = n)
    (h : Host.Core.run Sys2Proof.core (n + 1) s = .next t) : t.pending = none ∧ t.inputs = [] := by
  induction n generalizing s with
  | zero =>
    have hin := List.length_eq_zero_iff.1 hn
    obtain ⟨u, hstep, hrun⟩ := run_first h
    cases hrun
    rw [step_of_no_inputs hin] at hstep
    obtain ⟨hp, hinputs⟩ := engineTurn_settles hstep
    exact ⟨hp, hinputs.trans hin⟩
  | succ n ih =>
    obtain ⟨i, rest, hin⟩ := List.exists_cons_of_length_eq_add_one hn
    obtain ⟨u, hstep, hrun⟩ := run_first h
    rw [step_of_input hin] at hstep
    refine ih ?_ hrun
    rw [takeInput_inputs hstep]
    simpa [hin] using hn

/-- Settles O58: with as many steps as inputs and one more. -/
theorem pendingCommandCompletes : Obligations.PendingCommandCompletes := by
  unfold Obligations.PendingCommandCompletes
  exact fun s _ h => run_settles s.inputs.length rfl h

end Sys2Proof.Machine
end

