-- ==== Sys2Proof/Proofs/HostAccess.lean ====
section
/-! Host accesses over the whole aperture: reads idle and busy, writes, the abort of a command in flight by a soft reset, the
host's duties, and refused accesses (20_memory.md R47 to R62; 10_state.md R17 to R27; 70_reset_and_hazards.md R188 to R199). -/

namespace Sys2Proof.Machine

/-! ## STATUS and CTRL as words -/

/-- STATUS bit by bit (R19). -/
theorem statusWord_getLsbD (s : State) {i : Nat} (hi : i < 32) :
    s.statusWord.getLsbD i =
      (decide (i = 0) && s.busy || decide (i = 1) && s.done || decide (i = 2) && s.err || decide (i = 3) && s.tv
        || decide (i = 4) && s.ovr || !decide (i < 8) && s.errcode.code.getLsbD (i - 8)) := by
  simp only [State.statusWord, BitVec.getLsbD_or, bitAt_getLsbD _ hi, BitVec.getLsbD_shiftLeft, BitVec.getLsbD_setWidth,
    hi, show i - 8 < 32 by omega, decide_true, Bool.true_and]

/-- Above the flags STATUS holds ERRCODE alone (R19). -/
theorem statusWord_getLsbD_of_ge (s : State) {i : Nat} (hflags : 5 ≤ i) (hi : i < 32) :
    s.statusWord.getLsbD i = (!decide (i < 8) && s.errcode.code.getLsbD (i - 8)) := by
  simp [statusWord_getLsbD s hi, show i ≠ 0 by omega, show i ≠ 1 by omega, show i ≠ 2 by omega, show i ≠ 3 by omega,
    show i ≠ 4 by omega]

/-- The bits of STATUS between OVR and ERRCODE are 0 (R19). -/
theorem statusWord_reserved_low (s : State) : s.statusWord.extractLsb' 5 3 = 0 := by
  ext i hi
  rw [BitVec.getElem_extractLsb', statusWord_getLsbD_of_ge s (by omega) (by omega)]
  simp [show 5 + i < 8 by omega]

/-- ERRCODE is bits 11:8 of STATUS (R19). -/
theorem statusWord_errcode (s : State) : s.statusWord.extractLsb' 8 4 = s.errcode.code := by
  ext i hi
  rw [BitVec.getElem_extractLsb', statusWord_getLsbD_of_ge s (by omega) (by omega)]
  simp [BitVec.getLsbD_eq_getElem hi]

/-- The bits of STATUS above ERRCODE are 0 (R19). -/
theorem statusWord_reserved_high (s : State) : s.statusWord.extractLsb' 12 20 = 0 := by
  ext i hi
  rw [BitVec.getElem_extractLsb', statusWord_getLsbD_of_ge s (by omega) (by omega),
    BitVec.getLsbD_of_ge s.errcode.code _ (by omega)]
  simp

/-- IE is bit 0 of CTRL (R18). -/
theorem ctrlWord_getLsbD_zero (s : State) : s.ctrlWord.getLsbD 0 = s.ie := by
  rw [State.ctrlWord, bitAt_getLsbD _ (by decide)]
  simp

/-- All other bits of CTRL read 0 (R18). -/
theorem ctrlWord_reserved (s : State) : s.ctrlWord.extractLsb' 1 31 = 0 := by
  ext i hi
  rw [BitVec.getElem_extractLsb', State.ctrlWord, bitAt_getLsbD _ (by omega)]
  simp

/-! ## What a read answers -/

section Reads
variable {s : State} {a : Addr} {z : BusSize} {w : Word}

/-- A read of what is known to stand at its address, where it is no draw (R55, R56). -/
theorem transact_read_at {g : Target} {v : Word} (hw : (⟨.read, a, z, w⟩ : Txn).wf = true) (ht : target a = g)
    (hb : s.busy = true → g.drawnWhileBusy = false) (hv : s.readTarget z.bytes g = .ok v) :
    transact ⟨.read, a, z, w⟩ s = .next { s with resp := some ⟨.ok, some v⟩ } := by
  subst ht
  exact transact_read hw hb hv

/-- Beyond the buffers every read answers 0, busy or not (R47, R48). -/
theorem transact_read_raz (hw : (⟨.read, a, z, w⟩ : Txn).wf = true)
    (h : (0x10000 + Config.bufBytes ≤ a.toNat ∧ a.toNat < 0x20000) ∨ 0x20000 + Config.bufBytes ≤ a.toNat) :
    transact ⟨.read, a, z, w⟩ s = .next { s with resp := some ⟨.ok, some 0⟩ } :=
  transact_read_at hw (target_raz h) (fun _ => rfl) rfl

/-- A reserved register offset reads 0, busy or not (R49). -/
theorem transact_read_reserved (hw : (⟨.read, a, z, w⟩ : Txn).wf = true)
    (h : (0x030 ≤ a.toNat ∧ a.toNat < 0x040) ∨ (0x0A8 ≤ a.toNat ∧ a.toNat < 0x10000)) :
    transact ⟨.read, a, z, w⟩ s = .next { s with resp := some ⟨.ok, some 0⟩ } :=
  transact_read_at hw (target_reserved h) (fun _ => rfl) rfl

/-- An access that the engine performs in the register space is at a word offset (R50, R51). -/
theorem aligned_of_wf {k : BusKind} (h : (⟨k, a, z, w⟩ : Txn).wf = true) (hreg : a.toNat < 0x10000) : a.toNat % 4 = 0 := by
  obtain rfl : z = .word := size_eq_word_of_wf h hreg
  simp only [Txn.wf, Txn.aligned, Bool.and_eq_true, beq_iff_eq] at h
  exact h.1

/-- The registers from IN_LEN to KEY3 bear results (R62). -/
theorem target_operands_drawn (hal : a.toNat % 4 = 0) (h : 0x010 ≤ a.toNat ∧ a.toNat < 0x030) :
    (target a).drawnWhileBusy = true := by
  by_cases hkey : 0x020 ≤ a.toNat
  · rw [target_key (j := ⟨(a.toNat - 0x020) / 4, by omega⟩) (by simp only; omega)]
    rfl
  · obtain hx | hx | hx | hx : a.toNat = 0x010 ∨ a.toNat = 0x014 ∨ a.toNat = 0x018 ∨ a.toNat = 0x01C := by omega
    all_goals
      rw [target_reg (by omega), hx]
      rfl

/-- The subkeys bear results (R62). -/
theorem target_subkeys_drawn (hal : a.toNat % 4 = 0) (h : 0x040 ≤ a.toNat ∧ a.toNat < 0x0A8) :
    (target a).drawnWhileBusy = true := by
  rw [target_subkey (i := ⟨(a.toNat - 0x040) / 4, by omega⟩) (by simp only; omega)]
  rfl

/-- The bytes of either buffer bear results (R62). -/
theorem target_windows_drawn (h : (0x10000 ≤ a.toNat ∧ a.toNat < 0x10000 + Config.bufBytes)
    ∨ (0x20000 ≤ a.toNat ∧ a.toNat < 0x20000 + Config.bufBytes)) : (target a).drawnWhileBusy = true := by
  rcases h with h | h
  · rw [target_inWindow (o := a.toNat - 0x10000) (by omega) (by omega)]
    rfl
  · rw [target_outWindow (o := a.toNat - 0x20000) (by omega) (by omega)]
    rfl

end Reads

/-- Settles O47: by what stands at the address, a defined value or a draw. -/
theorem busyReadsAreDraws : Obligations.BusyReadsAreDraws := by
  unfold Obligations.BusyReadsAreDraws
  intro s a z w hb hwf
  refine ⟨fun h => transact_read_at (g := .id) hwf (h ▸ rfl) (fun _ => rfl) rfl,
    fun h => transact_read_at (g := .ctrl) hwf (h ▸ rfl) (fun _ => rfl) rfl,
    fun h => transact_read_at (g := .status) hwf (h ▸ rfl) (fun _ => rfl) rfl, fun h => ?_,
    fun h => transact_read_drawn hwf hb ?_⟩
  · rcases h with h | h | h | h | h
    · exact transact_read_at (g := .cmd) hwf (h ▸ rfl) (fun _ => rfl) rfl
    · exact transact_read_reserved hwf (.inl h)
    · exact transact_read_reserved hwf (.inr h)
    · exact transact_read_raz hwf (.inl h)
    · exact transact_read_raz hwf (.inr h)
  · rcases h with h | h | h
    · exact target_operands_drawn (aligned_of_wf hwf (by omega)) h
    · exact target_subkeys_drawn (aligned_of_wf hwf (by omega)) h
    · exact target_windows_drawn h

/-- Settles O48: offset by offset. -/
theorem registerReadsReturnTheRegister : Obligations.RegisterReadsReturnTheRegister := by
  unfold Obligations.RegisterReadsReturnTheRegister
  refine ⟨fun s => ⟨ctrlWord_getLsbD_zero s, ctrlWord_reserved s⟩, fun s a z w _ hwf => transact_read_raz hwf,
    fun s hidle a v w h => ?_⟩
  have hb {g : Target} (hbusy : s.busy = true) : g.drawnWhileBusy = false :=
    absurd hbusy (ne_true_of_eq_false hidle)
  rcases h with ⟨rfl, rfl⟩ | ⟨rfl, rfl⟩ | ⟨rfl, rfl⟩ | ⟨rfl, rfl⟩ | ⟨rfl, rfl⟩ | ⟨rfl, rfl⟩ | ⟨rfl, rfl⟩ | ⟨rfl, rfl⟩ |
    ⟨j, ha, rfl⟩ | ⟨i, ha, rfl⟩ | ⟨hal, hlo, hhi, rfl⟩ | ⟨hal, hlo, hhi, rfl⟩
  -- The eight registers that stand at one offset each come first.
  iterate 8 exact transact_read (word_wf rfl) hb rfl
  · exact transact_read_at (word_wf (by omega)) (target_key ha) hb rfl
  · exact transact_read_at (word_wf (by omega)) (target_subkey ha) hb rfl
  · exact transact_read_reserved (word_wf hal) (.inl ⟨hlo, hhi⟩)
  · exact transact_read_reserved (word_wf hal) (.inr ⟨hlo, hhi⟩)

/-- Settles O49: a read that answers, by a draw or by the value at its address, writes the answer alone. -/
theorem readsHaveNoSideEffect : Obligations.ReadsHaveNoSideEffect := by
  unfold Obligations.ReadsHaveNoSideEffect
  intro s t x hk hwf h
  have hx : transact x s = hostRead x s := by simp [transact, hwf, hk]
  rcases hostRead_cases x s with ⟨hb, _, hr⟩ | ⟨_, ⟨v, _, hr⟩ | ⟨f, _, hr⟩⟩ <;> rw [hx, hr] at h <;> cases h
  · exact ⟨rfl, fun hidle => absurd hb (ne_true_of_eq_false hidle)⟩
  · exact ⟨rfl, fun _ => rfl⟩

/-- A flag that a write of 1 clears (R19). -/
theorem and_not_eq_ite (f b : Bool) : (f && !b) = if b then false else f := by
  cases b <;> simp

/-- Settles O53: the word bit by bit, and the two flags that a write clears. -/
theorem statusFields : Obligations.StatusFields := by
  unfold Obligations.StatusFields
  refine ⟨fun s => ?_, fun s w => ?_⟩
  · exact ⟨(statusWord_getLsbD s (by decide)).trans (by simp), (statusWord_getLsbD s (by decide)).trans (by simp),
      (statusWord_getLsbD s (by decide)).trans (by simp), statusWord_getLsbD_tv s, statusWord_getLsbD_ovr s,
      statusWord_reserved_low s, statusWord_errcode s, statusWord_reserved_high s, bne_iff_ne, Option.isSome_iff_ne_none,
      s.errcode.code_toNat_le, transact_read (word_wf rfl) (fun _ => rfl) rfl⟩
  · rw [transact_write_status, State.clearFlags, and_not_eq_ite, and_not_eq_ite]
    rfl

/-! ## What a write does -/

/-- Settles O56: what a pending command reads is among what stays the same in flight. -/
theorem operandsAreFixedWhilePending : Obligations.OperandsAreFixedWhilePending := by
  unfold Obligations.OperandsAreFixedWhilePending
  intro s t x hb h
  refine (transact_sameInFlight hb h).imp_left fun hsame => ?_
  exact ⟨hsame.pending, (congrArg State.key hsame :), (congrArg State.subkey hsame :), (congrArg State.tv hsame :),
    (congrArg State.blkA hsame :), (congrArg State.blkB hsame :), (congrArg State.inLen hsame :),
    (congrArg State.outLen hsame :), (congrArg State.inBuf hsame :), (congrArg State.outBuf hsame :)⟩

section Writes
variable {s : State} {a : Addr} {z : BusSize} {w : Word}

/-- A write to what is known to stand at its address, when idle (R56). -/
theorem transact_write_at {g : Target} (hw : (⟨.write, a, z, w⟩ : Txn).wf = true) (ht : target a = g) (hb : s.busy = false) :
    transact ⟨.write, a, z, w⟩ s = .next ((s.writeTarget z.bytes w g).respond ⟨.ok, none⟩) := by
  subst ht
  exact transact_write hw (by simp [hb])

/-- Where the host's writes are ignored: ID, OUT_LEN, the subkeys, reserved offsets, and all that lies beyond IN_BUF (R56). -/
theorem writeTarget_ignored (n : Nat) (hal : a.toNat < 0x10000 → a.toNat % 4 = 0)
    (h : a = 0x000 ∨ a = 0x014 ∨ (0x030 ≤ a.toNat ∧ a.toNat < 0x10000)
      ∨ (0x10000 + Config.bufBytes ≤ a.toNat ∧ a.toNat < 0x20000) ∨ 0x20000 ≤ a.toNat) :
    s.writeTarget n w (target a) = s := by
  rcases h with rfl | rfl | ⟨hlo, hhi⟩ | h | h
  · rfl
  · rfl
  · by_cases hsubkey : 0x040 ≤ a.toNat ∧ a.toNat < 0x0A8
    · have hal := hal hhi
      rw [target_subkey (i := ⟨(a.toNat - 0x040) / 4, by omega⟩) (by simp only; omega)]
      rfl
    · rw [target_reserved (by omega)]
      rfl
  · rw [target_raz (.inl h)]
    rfl
  · by_cases hout : a.toNat < 0x20000 + Config.bufBytes
    · rw [target_outWindow (o := a.toNat - 0x20000) (by omega) (by omega)]
      rfl
    · rw [target_raz (.inr (by omega))]
      rfl

end Writes

/-- Settles O50: offset by offset. -/
theorem registerWritesWhenIdle : Obligations.RegisterWritesWhenIdle := by
  unfold Obligations.RegisterWritesWhenIdle
  intro s w hb
  refine ⟨transact_write_at (word_wf rfl) rfl hb, transact_write_at (word_wf rfl) rfl hb,
    transact_write_at (word_wf rfl) rfl hb, transact_write_ctrl s, fun a j ha => transact_write_key ha hb,
    fun a z hwf h => ?_⟩
  rw [transact_write_at hwf rfl hb, writeTarget_ignored _ (aligned_of_wf hwf) h]
  rfl

/-! ## The abort of a command in flight -/

section Abort
variable {s : State} {cw : Word}

/-- The buffer that a reset empties is the one the pending command writes (R189). -/
theorem abortTarget_of_command {i : Instr} (hp : s.pending = some cw) (hd : decode cw = .ok i) :
    s.abortTarget = abortedBuf i := by
  simp only [State.abortTarget, hp, hd]

/-- A reset with an illegal word pending empties no buffer (R189). -/
theorem abortTarget_of_illegal {e : DecodeError} (hp : s.pending = some cw) (hd : decode cw = .error e) :
    s.abortTarget = none := by
  simp only [State.abortTarget, hp, hd]

/-- An output command's buffer is OUT_BUF (R72, R189). -/
theorem abortedBuf_of_outputCommand {i : Instr} (h : i ∈ outputCommands) : abortedBuf i = some .outBuf := by
  simp only [outputCommands, List.mem_cons, List.not_mem_nil, or_false] at h
  rcases h with rfl | rfl | rfl | rfl | rfl | rfl <;> rfl

/-- The commands that write no buffer (R72, R189). -/
theorem abortedBuf_eq_none {i : Instr} (h : i ∈ [Instr.nop, .expand, .encb, .decb, .keyd, .u8ck]) : abortedBuf i = none := by
  simp only [List.mem_cons, List.not_mem_nil, or_false] at h
  rcases h with rfl | rfl | rfl | rfl | rfl | rfl <;> rfl

end Abort

/-- Settles O39: a soft reset is the reset answered OK, and the buffer it empties is the pending command's. -/
theorem softResetAbortsTheCommandInFlight : Obligations.SoftResetAbortsTheCommandInFlight := by
  unfold Obligations.SoftResetAbortsTheCommandInFlight
  refine ⟨fun s _ hw => ⟨transact_softReset s hw, rfl⟩, fun s => ⟨rfl, rfl, rfl, rfl⟩,
    fun s cw i hp hd => ⟨fun hi => ?_, fun hi => ?_, fun hi => ?_⟩, fun s cw e hp hd => ?_⟩
  · simp [abortTarget_of_command hp hd, abortedBuf_of_outputCommand hi, Memory.read]
  · simp [abortTarget_of_command hp hd, hi, abortedBuf, Memory.read]
  · simp [abortTarget_of_command hp hd, abortedBuf_eq_none hi]
  · simp [abortTarget_of_illegal hp hd]

/-! ## The host's duties -/

/-- An accepted host write does not set OVR (R61). -/
theorem writeTarget_ovr {s : State} (h : s.ovr = false) (n : Nat) (w : Word) (g : Target) :
    (s.writeTarget n w g).ovr = false := by
  cases g
  case ctrl =>
    rw [State.writeTarget]
    split
    · rfl
    · exact h
  case status => rw [State.writeTarget, clearFlags_ovr, h, Bool.false_and]
  all_goals exact h

/-- A window read of written bytes has a value (R55). -/
theorem windowRead_ok (b : Buf) {m : Memory} {o n : Nat} (h : (m.readBytes o n).isSome) : ∃ v, windowRead b m o n = .ok v := by
  obtain ⟨bs, hbs⟩ := Option.isSome_iff_exists.1 h
  exact ⟨leJoin bs, by rw [windowRead, hbs]⟩

/-- A read that covers no unwritten byte has a value (R55, R199). -/
theorem readTarget_ok {s : State} {x : Txn} (hk : x.kind = .read) (h : readsWritten x s = true) :
    ∃ v, s.readTarget x.size.bytes (target x.addr) = .ok v := by
  rw [readsWritten, hk] at h
  cases hg : target x.addr with
  | inBuf o => exact windowRead_ok _ (by simpa only [hg] using h)
  | outBuf o => exact windowRead_ok _ (by simpa only [hg] using h)
  | _ => exact ⟨_, rfl⟩

/-- Settles O57: a dutiful read has a value and a dutiful write is accepted. -/
theorem dutifulHostIsSafe : Obligations.DutifulHostIsSafe := by
  unfold Obligations.DutifulHostIsSafe
  rintro s ⟨kind, a, z, w⟩ h
  simp only [dutiful, Bool.and_eq_true] at h
  obtain ⟨⟨hwf, hbusy⟩, hwritten⟩ := h
  cases kind with
  | read =>
    have hb (h : s.busy = true) : (target a).drawnWhileBusy = false := by simpa [respectsBusy, h] using hbusy
    obtain ⟨v, hv⟩ := readTarget_ok rfl hwritten
    exact ⟨_, _, transact_read hwf hb hv, rfl, id, rfl⟩
  | write =>
    have hb (h : s.busy = true) : (target a).acceptedWhileBusy = true := by simpa [respectsBusy, h] using hbusy
    exact ⟨_, _, transact_write hwf hb, rfl, fun hovr => writeTarget_ovr hovr _ _ _, (writeTarget_records s _ _ _).1⟩

/-! ## Refused accesses -/

/-- A misaligned access, or one of a register that is not 4 bytes wide, is not performed (R51). -/
theorem not_wf_of_busError {x : Txn} (h : x.addr.toNat % x.size.bytes ≠ 0 ∨ (x.addr.toNat < 0x10000 ∧ x.size ≠ .word)) :
    x.wf = false := by
  rcases h with h | ⟨hreg, hsize⟩
  · simp [Txn.wf, Txn.aligned, h]
  · simp [Txn.wf, Txn.sizeOk, hreg, hsize]

/-- A recorded fault stays for good (R172). -/
theorem fault_stepInvariant {f : Option Fault} (hf : f ≠ none) : StepInvariant fun s => s.fault = f where
  inputs _ _ h := h
  bus s _ _ _ _ hkeep h := (hkeep (h ▸ hf)).trans h
  write s _ _ h := (writeTarget_records s _ _ _).1.trans h
  reset _ h := h
  command _ _ _ _ hu h := by
    obtain ⟨-, -, -, -, hfault⟩ := hu.sameFlags
    exact hfault.trans h
  illegal _ h := h

/-- Settles O45: a refused access is answered by the bus alone, and a recorded fault is kept by all that a step can do. -/
theorem busErrorHasNoEffect : Obligations.BusErrorHasNoEffect := by
  unfold Obligations.BusErrorHasNoEffect
  refine ⟨fun s x h => ?_, fun s t h hf => (fault_stepInvariant hf).step rfl h⟩
  rw [transact_not_wf s (not_wf_of_busError h)]
  rfl

end Sys2Proof.Machine
end
